-- ==== Sys2Proof/Word.lean ====
section
/-! DEFINITION. The word types of the block: a 32-bit element or register, an 8-bit element, a 40-bit weight, a bit string. -/

namespace Sys2Proof

/-- A register, a command word, or one element of FREQ, TREE or CODE (REG_W = 32, R7, R60). -/
abbrev Word := BitVec 32

/-- A symbol, or one element of IN, OUT or PBITS (SYM_W = 8, R7, R60). -/
abbrev Byte := BitVec 8

/-- A node's weight (WGT_W = 40, R23). -/
abbrev Weight := BitVec 40

/-- A bit string of R10: the head is the leftmost bit, index 0, the first produced or consumed. -/
abbrev BitString := List Bool

end Sys2Proof
end

