-- ==== Sys2Proof/Config.lean ====
section
/-! DEFINITION. The parameters of the block (R7) and the values the spec leaves free. -/

namespace Sys2Proof

/-- The parameters of R7 that an instance may choose. They are no state (R46): a State carries them in a
field that no step changes (log 7). -/
structure Config where
  /-- CNT_W: bits in one frequency count. -/
  cntW : Nat
  /-- MAX_IN: capacity of IN in bytes. -/
  maxIn : Nat
  /-- MAX_OUT: capacity of OUT in bytes. -/
  maxOut : Nat
  deriving DecidableEq, Repr

/-- The defaults of R7: CNT_W = 32, MAX_IN = 65536, MAX_OUT = 32·MAX_IN + 2. -/
def Config.default : Config where
  cntW := 32
  maxIn := 65536
  maxOut := 32 * 65536 + 2

/-- MAX_PB = 8·MAX_IN, the capacity of PBITS in bits (R7). -/
def Config.maxPb (c : Config) : Nat := 8 * c.maxIn

/-- ALPHA = 256, the size of the alphabet (R7). -/
def Config.alpha : Nat := 256

/-- MAX_NODES = 511, the capacity of TREE in records (R7). -/
def Config.maxNodes : Nat := 511

/-- Free value (log 5): the bits BUNPK leaves in the last byte of PBITS at positions from PB_LEN on, which
R103 calls unspecified. Nothing in Lean can evaluate it. -/
opaque Config.freeByte : Nat → BitVec 8

end Sys2Proof
end

