-- ==== Sys2Proof/Syntax.lean ====
section
/-! DEFINITION. Syntax: the twelve commands, the fields of a command word, the address spaces, the host's
actions and the script notation. -/

namespace Sys2Proof

/-- The twelve commands of HUF-CMD (R91), one constructor per row of spec/opcode_table.json. None carries an
operand: the decode strategy S is part of the row (R92). -/
inductive Instr where
  | hnop | hclr | fcnt | tbld | cgen | bpack | bunpk | hdecT | hdecR | henc | hdcmpT | hdcmpR
  deriving DecidableEq, Repr

/-- The fields of format C (R90): ZERO = w[31:9], S = w[8], OPC = w[7:0]. -/
structure CmdFields where
  zero : BitVec 23
  s : BitVec 1
  opc : BitVec 8
  deriving DecidableEq, Repr

/-- The seven address spaces of R60. -/
inductive Space where
  | reg | inp | out | freq | tree | code | pbits
  deriving DecidableEq, Repr

/-- The five derived stores, those with a valid bit (R30). -/
inductive DerivedStore where
  | freq | tree | code | pbits | out
  deriving DecidableEq, Repr

/-- What the host can do to the block: the two accesses of R62 and the reset of R310. `n` is the access's
width in bits and the written value has that width. -/
inductive HostAction where
  | read (sp : Space) (idx n : Nat)
  | write (sp : Space) (idx n : Nat) (v : BitVec n)
  | reset
  deriving DecidableEq, Repr

/-- A store the script lines `host save` and `host load` may name (R104). -/
inductive SavedStore where
  | freq | tree | code | pbits
  deriving DecidableEq, Repr

/-- One line of a command script (R104). `word` is the line "write w to CMD" for a word that need not be a
command (program P4 of 95_test_vectors.md). A comment is no line. -/
inductive ScriptLine where
  | cmd (i : Instr)
  | word (w : Word)
  | hostIn (bytes : List Byte)
  | hostMv
  | hostSave (st : SavedStore) (name : String)
  | hostLoad (st : SavedStore) (name : String)
  | hostVclr (st : DerivedStore)
  | hostReset
  deriving DecidableEq, Repr

/-- The pseudo-instructions of R106. -/
inductive Pseudo where
  | hpipe | hrtT | hrtR | compress | decompress
  deriving DecidableEq, Repr

end Sys2Proof
end

