-- ==== Sys2Proof/WellFormed.lean ====
section
/-! DEFINITION. Well-formedness checks on terms: parameters (R8), command fields (R93), host accesses (R68). -/

namespace Sys2Proof

/-- The constraints a configuration must meet. The first line is R8. The others are read from the fixed
32-bit layout of the host window (log 7, DEDUCED): a count fits its FREQ word (R60, R102), MAX_OUT fits CAP_OUT
and OUT_LEN (R38, R42), and a legal PB_LEN fits its register (R39). -/
abbrev Config.wf (c : Config) : Prop :=
  (1 ≤ c.maxIn ∧ c.maxIn ≤ 2 ^ c.cntW - 1 ∧ 2 ≤ c.maxOut) ∧
  (1 ≤ c.cntW ∧ c.cntW ≤ 32) ∧ c.maxOut < 2 ^ 32 ∧ 8 * c.maxIn < 2 ^ 32

/-- OPC values with a meaning (R93). -/
def assignedOpcodes : List (BitVec 8) :=
  [0x00, 0x01, 0x10, 0x11, 0x12, 0x13, 0x14, 0x15, 0x20, 0x21]

/-- OPC values on which S may be 1 (R90, R93). -/
def strategyOpcodes : List (BitVec 8) := [0x15, 0x21]

/-- The fields of a legal command word, by the three clauses of R93. -/
def CmdFields.wf (f : CmdFields) : Bool :=
  f.zero == 0 && assignedOpcodes.contains f.opc && (f.s == 0 || strategyOpcodes.contains f.opc)

/-- The one element width of each space (R60). -/
def Space.width : Space → Nat
  | .reg => 32
  | .inp => 8
  | .out => 8
  | .freq => 32
  | .tree => 32
  | .code => 32
  | .pbits => 8

/-- Whether an index lies in the range of its space (R60). Register numbers 12 and above are reserved but
defined (R68), so every register number is in range. -/
def Space.inRange (c : Config) : Space → Nat → Bool
  | .reg, _ => true
  | .inp, i => decide (i < c.maxIn)
  | .out, i => decide (i < c.maxOut)
  | .freq, i => decide (i < 256)
  | .tree, i => decide (i < 2044)
  | .code, i => decide (i < 4096)
  | .pbits, i => decide (8 * i < c.maxPb)

/-- A host action the spec defines: the access has the width of its space and an index in its range (R68). -/
def HostAction.wf (c : Config) : HostAction → Bool
  | .read sp idx n => n == sp.width && sp.inRange c idx
  | .write sp idx n _ => n == sp.width && sp.inRange c idx
  | .reset => true

end Sys2Proof
end

