-- ==== Sys2Proof/Decode.lean ====
section
/-! DEFINITION. The command decoder (R90 to R93), total on 32-bit words and rejecting by name, and the encoder. -/

namespace Sys2Proof

/-- Why a word is no command: the three clauses of R93, tried in that order (log 17). -/
inductive DecodeError where
  /-- `ZERO ≠ 0`. -/
  | zeroFieldNotZero
  /-- OPC is none of the assigned operation codes. -/
  | opcodeNotAssigned
  /-- S = 1 on a command without a strategy. -/
  | strategyBitNotAllowed
  deriving DecidableEq, Repr

/-- One row of the opcode map. -/
structure OpcodeRow where
  opc : BitVec 8
  s : BitVec 1
  instr : Instr
  deriving DecidableEq, Repr

/-- The opcode map of R91, row by row. -/
def opcodeMap : List OpcodeRow :=
  [⟨0x00, 0, .hnop⟩, ⟨0x01, 0, .hclr⟩, ⟨0x10, 0, .fcnt⟩, ⟨0x11, 0, .tbld⟩,
   ⟨0x12, 0, .cgen⟩, ⟨0x13, 0, .bpack⟩, ⟨0x14, 0, .bunpk⟩, ⟨0x15, 0, .hdecT⟩,
   ⟨0x15, 1, .hdecR⟩, ⟨0x20, 0, .henc⟩, ⟨0x21, 0, .hdcmpT⟩, ⟨0x21, 1, .hdcmpR⟩]

/-- The fields of a word by format C (R90). -/
def wordFields (w : Word) : CmdFields where
  zero := w.extractLsb' 9 23
  s := w.extractLsb' 8 1
  opc := w.extractLsb' 0 8

/-- The command a word is, or why it is none (R91, R93). -/
def decode (w : Word) : Except DecodeError Instr :=
  let f := wordFields w
  if f.zero ≠ 0 then .error .zeroFieldNotZero
  else match opcodeMap.find? (fun r => r.opc == f.opc && r.s == f.s) with
    | some r => .ok r.instr
    | none =>
      if opcodeMap.any (fun r => r.opc == f.opc) then .error .strategyBitNotAllowed
      else .error .opcodeNotAssigned

/-- OPC of each command (R91). -/
def Instr.opcode : Instr → BitVec 8
  | .hnop => 0x00
  | .hclr => 0x01
  | .fcnt => 0x10
  | .tbld => 0x11
  | .cgen => 0x12
  | .bpack => 0x13
  | .bunpk => 0x14
  | .hdecT => 0x15
  | .hdecR => 0x15
  | .henc => 0x20
  | .hdcmpT => 0x21
  | .hdcmpR => 0x21

/-- S of each command (R91): 1 selects the tree strategy (R92). -/
def Instr.strategy : Instr → BitVec 1
  | .hnop => 0
  | .hclr => 0
  | .fcnt => 0
  | .tbld => 0
  | .cgen => 0
  | .bpack => 0
  | .bunpk => 0
  | .hdecT => 0
  | .hdecR => 1
  | .henc => 0
  | .hdcmpT => 0
  | .hdcmpR => 1

/-- The fields of a command (R90). -/
def Instr.fields (i : Instr) : CmdFields where
  zero := 0
  s := i.strategy
  opc := i.opcode

/-- A command is well-formed when its fields are (R93). -/
def Instr.wf (i : Instr) : Bool := i.fields.wf

/-- The 32-bit word with given fields (R90). -/
def CmdFields.word (f : CmdFields) : Word := f.zero ++ f.s ++ f.opc

/-- The word of a command (R90, R91). -/
def encode (i : Instr) : Word := i.fields.word

/-- The decoder on a number whose bits are numbered as spec/opcode_table.json numbers them. A command is one
32-bit word, so a number that does not fit one is no command. -/
def decodeTableWord (nbits w : Nat) : Option Instr :=
  if w % 2 ^ nbits < 2 ^ 32 then (decode (BitVec.ofNat 32 (w % 2 ^ nbits))).toOption else none

/-- The mnemonic of each command (R91, R104: upper case, suffix .T or .R for the S bit). -/
def Instr.mnemonic : Instr → String
  | .hnop => "HNOP"
  | .hclr => "HCLR"
  | .fcnt => "FCNT"
  | .tbld => "TBLD"
  | .cgen => "CGEN"
  | .bpack => "BPACK"
  | .bunpk => "BUNPK"
  | .hdecT => "HDEC.T"
  | .hdecR => "HDEC.R"
  | .henc => "HENC"
  | .hdcmpT => "HDCMP.T"
  | .hdcmpR => "HDCMP.R"

/-- The command a mnemonic of a script names (R104), with the default qualifier of R105: `HDEC` and `HDCMP`
without a suffix mean the table strategy. -/
def Instr.ofMnemonic (m : String) : Option Instr :=
  if m = "HDEC" then some .hdecT
  else if m = "HDCMP" then some .hdcmpT
  else (opcodeMap.find? (fun r => r.instr.mnemonic == m)).map OpcodeRow.instr

end Sys2Proof
end

