-- ==== Sys2Proof/Machine/State.lean ====
section
/-! DEFINITION. The state of the block as plain data, the reasons a step can stop, and the state after reset. -/

namespace Sys2Proof.Machine

/-- A store: (element index, value) pairs. An index that is not listed has NO VALUE: nothing has written it since
reset, or a failed command left it unspecified (R45, R78; log 1). The canonical form (`Memory.wf`) is strictly
rising indexes. `Memory 8` is a list of `Host.Cell`. -/
abbrev Memory (w : Nat) := List (Nat × BitVec w)

/-- The five valid bits (R30). -/
structure Valid where
  freq : Bool
  tree : Bool
  code : Bool
  pbits : Bool
  out : Bool
  deriving DecidableEq, Repr

/-- STATUS.STATE (R32). -/
inductive CmdState where
  | idle | busy | done | err
  deriving DecidableEq, Repr

/-- The seven error codes of R270. -/
inductive Error where
  | emptyInput | unknownSymbol | corruptPadding | invalidCode | illegalCommand | sequence | capacity
  deriving DecidableEq, Repr

/-- One element as a host read returns it: no extension, an access moves exactly one element (R62). -/
inductive Element where
  | byte (b : Byte)
  | word (w : Word)
  deriving DecidableEq, Repr

/-- A node record with its weight, as TBLD makes it (R23). -/
inductive Node where
  | leaf (sym : Byte) (weight : Weight)
  | internal (weight : Weight) (left right : BitVec 9)
  deriving DecidableEq, Repr

/-- A node record without its weight: all that CGEN and HDEC.R read of it (R24, R206). -/
inductive Link where
  | leaf (sym : Byte)
  | branch (left right : Nat)
  deriving DecidableEq, Repr

/-- Why the machine stops with a fault. The spec's own failures are no faults: they are next states (R279). -/
inductive Fault where
  /-- Raised by a host read or a command that reads a store element without a value (R78, U4). Safe. -/
  | unwrittenElement
  /-- Raised by a host access of the wrong width or outside its space, which R68 gives no effect (U5). Safe. -/
  | undefinedAccess
  /-- Raised by a host access other than a read of STATUS while STATE = BUSY, which R77 gives no meaning (U6). Safe. -/
  | accessWhileBusy
  deriving DecidableEq, Repr

/-- Why a step has no meaning. -/
inductive Refusal where
  /-- Raised by an arm of exec that has no meaning yet. Safe. -/
  | notModelled (mnemonic : String)
  /-- Raised by CGEN, HDEC.R, HDCMP.R on a TREE declared valid that breaks WF_TREE (U1, R319; log 2). Safe. -/
  | treeNotWellFormed
  /-- Raised by BPACK, HDEC.T, HDCMP.T on a CODE declared valid that breaks WF_CODE (U1, R319; log 2). Safe. -/
  | codeNotWellFormed
  deriving DecidableEq, Repr

/-- How a command's body ends when it does not succeed: `raise E(info)` of R11, or a stop of the model. -/
inductive Stop where
  | raise (e : Error) (info : Word)
  | fault (f : Fault)
  | refuse (r : Refusal)
  deriving DecidableEq, Repr

/-- The whole state of the block (10_state.md: six stores, five valid bits, the registers), the parameters it is
built with, and the model's own fields for the host. -/
structure State where
  /-- The parameters (R7). No step changes them (R46; log 7). -/
  cfg : Config
  /-- IN (R21). -/
  inp : Memory 8
  /-- FREQ (R22), one word per symbol (R102). -/
  freq : Memory 32
  /-- TREE (R23), four words per record (R100). -/
  tree : Memory 32
  /-- CODE (R25), sixteen words per record of which 0 to 8 are stored (R101). -/
  code : Memory 32
  /-- PBITS (R28), eight bits per byte, first bit most significant (R103). -/
  pbits : Memory 8
  /-- OUT (R29). -/
  out : Memory 8
  /-- The valid bits (R30). -/
  valid : Valid
  /-- STATUS.STATE (R32). -/
  state : CmdState
  /-- STATUS.ECODE (R35): none is 0. -/
  ecode : Option Error
  /-- STATUS.STICKY (R43): bit e - 1 here is STATUS[16 + e]. -/
  sticky : BitVec 7
  /-- STATUS.LASTOP (R35). -/
  lastop : BitVec 8
  /-- ERRINFO (R36). -/
  errinfo : Word
  /-- IN_LEN (R37). -/
  inLen : Word
  /-- OUT_LEN (R38). -/
  outLen : Word
  /-- PB_LEN (R39). -/
  pbLen : Word
  /-- ROOT (R40). -/
  root : Word
  /-- NNODES (R40). -/
  nnodes : Word
  /-- The model's own: index of the next free value (log 5). -/
  freeCtr : Nat
  /-- The model's own: the host's actions still to come, first one first (log 8). -/
  pending : List HostAction
  /-- The model's own: the element the host's last read returned, the host's variable (log 9). -/
  readData : Option Element
  deriving DecidableEq, Repr

/-- The state after reset with given parameters (R45, R310). -/
def State.resetWith (c : Config) : State where
  cfg := c
  inp := []
  freq := []
  tree := []
  code := []
  pbits := []
  out := []
  valid := ⟨false, false, false, false, false⟩
  state := .idle
  ecode := none
  sticky := 0
  lastop := 0
  errinfo := 0
  inLen := 0
  outLen := 0
  pbLen := 0
  root := 0
  nnodes := 0
  freeCtr := 0
  pending := []
  readData := none

/-- The machine right after reset (R45), with the default parameters of R7. -/
def State.reset : State := State.resetWith Config.default

end Sys2Proof.Machine
end

