-- ==== Sys2Proof/Machine/Bits.lean ====
section
/-! DEFINITION. Bit and byte order: the functions of R10 and R64 between bit strings, bytes and words. -/

namespace Sys2Proof.Machine

/-- The number a bit string writes, first bit most significant (R10). -/
def natOfBits (b : BitString) : Nat := b.foldl (fun n x => 2 * n + x.toNat) 0

/-- `bits8(v)` of R10. -/
def bits8 (v : Byte) : BitString :=
  [v.getLsbD 7, v.getLsbD 6, v.getLsbD 5, v.getLsbD 4, v.getLsbD 3, v.getLsbD 2, v.getLsbD 1, v.getLsbD 0]

/-- `byte8(b)` of R10, for an 8-bit string. -/
def byte8 (b : BitString) : Byte := BitVec.ofNat 8 (natOfBits b)

/-- `bitsof(B)` of R10. -/
def bitsOf (bytes : List Byte) : BitString := bytes.flatMap bits8

/-- The bytes `byte8(b[8j .. 8j+8))` for j below `|b| / 8` (R97, R175). -/
def packBytes (b : BitString) : List Byte :=
  (List.range (b.length / 8)).map fun j => byte8 ((b.drop (8 * j)).take 8)

/-- The 32 bits of a word, bit 31 first (R101). -/
def wordBits (w : Word) : BitString := (List.range 32).map fun i => w.getLsbD (31 - i)

/-- The word whose bits from 31 down are a string of at most 32 bits, the rest 0 (R101). -/
def wordOfBits (b : BitString) : Word := BitVec.ofNat 32 (natOfBits b * 2 ^ (32 - b.length))

/-- `a` is a prefix of `b` (R10). -/
def isPrefix (a b : BitString) : Bool := a.isPrefixOf b

/-- `extra = 8 − (L mod 8)` (R176). -/
def padLength (l : Nat) : Nat := 8 - l % 8

end Sys2Proof.Machine
end

