-- ==== Sys2Proof/Machine/Store.lean ====
section
/-! DEFINITION. Operations on one store: reading an element, writing one, replacing a prefix, the canonical form. -/

namespace Sys2Proof.Machine

/-- The value of an element, none when it has none (R78). -/
def Memory.get {w : Nat} : Memory w → Nat → Option (BitVec w)
  | [], _ => none
  | c :: m, k =>
    match Nat.beq c.1 k with
    | true => some c.2
    | false => Memory.get m k

/-- Writes one element and keeps the indexes rising (R62). -/
def Memory.set {w : Nat} : Memory w → Nat → BitVec w → Memory w
  | [], k, v => [(k, v)]
  | (a, x) :: m, k, v =>
    if k < a then (k, v) :: (a, x) :: m
    else if k = a then (k, v) :: m
    else (a, x) :: Memory.set m k v

/-- The store that holds given values at indexes `base`, `base + 1`, … and nothing else. -/
def Memory.from {w : Nat} (base : Nat) : List (BitVec w) → Memory w
  | [] => []
  | v :: vs => (base, v) :: Memory.from (base + 1) vs

/-- Writes elements 0, 1, … of a store; every other element keeps what it held. -/
def Memory.overwrite {w : Nat} (m : Memory w) (vs : List (BitVec w)) : Memory w :=
  Memory.from 0 vs ++ m.filter fun c => decide (vs.length ≤ c.1)

/-- The canonical form of a store of `n` elements: indexes strictly rising and below `n`. An unlisted element has
no value, so no listed one equals it. -/
abbrev Memory.wf {w : Nat} (n : Nat) (m : Memory w) : Prop :=
  (m.map Prod.fst).Pairwise (· < ·) ∧ ∀ c ∈ m, c.1 < n

/-- An element as a command reads it: one without a value stops the model (U4). -/
def Memory.read {w : Nat} (m : Memory w) (k : Nat) : Except Stop (BitVec w) :=
  match m.get k with
  | some v => .ok v
  | none => .error (.fault .unwrittenElement)

/-- Elements `base` to `base + n − 1`. -/
def Memory.readFrom {w : Nat} (m : Memory w) : Nat → Nat → Except Stop (List (BitVec w))
  | _, 0 => .ok []
  | base, n + 1 => do
    let v ← m.read base
    let vs ← m.readFrom (base + 1) n
    return v :: vs

end Sys2Proof.Machine
end

