-- ==== Sys2Proof/Machine/Flags.lean ====
section
/-! DEFINITION. The flags: valid bits (R30), error codes and sticky bits (R43, R270), the STATUS word (R35). -/

namespace Sys2Proof.Machine

/-- A valid bit. -/
def Valid.get (v : Valid) : DerivedStore → Bool
  | .freq => v.freq
  | .tree => v.tree
  | .code => v.code
  | .pbits => v.pbits
  | .out => v.out

/-- Sets or clears a valid bit. -/
def Valid.set (v : Valid) (x : DerivedStore) (b : Bool) : Valid :=
  match x with
  | .freq => { v with freq := b }
  | .tree => { v with tree := b }
  | .code => { v with code := b }
  | .pbits => { v with pbits := b }
  | .out => { v with out := b }

/-- The position of a store's valid bit in STATUS, VSET and VCLR (R35, R41). -/
def statusBit : DerivedStore → Nat
  | .freq => 8
  | .tree => 9
  | .code => 10
  | .pbits => 11
  | .out => 12

/-- The mask of some stores' valid bits, in STATUS positions. -/
def validBitMask (xs : List DerivedStore) : Word :=
  xs.foldl (fun m x => m ||| BitVec.twoPow 32 (statusBit x)) 0

/-- The five valid bits in STATUS positions (R35). -/
def Valid.word (v : Valid) : Word :=
  (0 : BitVec 19) ++ BitVec.ofBool v.out ++ BitVec.ofBool v.pbits ++ BitVec.ofBool v.code ++
    BitVec.ofBool v.tree ++ BitVec.ofBool v.freq ++ (0 : BitVec 8)

/-- ECODE of each error (R270). -/
def Error.code : Error → BitVec 4
  | .emptyInput => 1
  | .unknownSymbol => 2
  | .corruptPadding => 3
  | .invalidCode => 4
  | .illegalCommand => 5
  | .sequence => 6
  | .capacity => 7

/-- The sticky bit of each error: STATUS[16 + e] is bit e − 1 of the field STATUS[23:17] (R43). -/
def Error.stickyBit (e : Error) : BitVec 7 := BitVec.twoPow 7 (e.code.toNat - 1)

/-- STATE's encoding (R32). -/
def CmdState.code : CmdState → BitVec 2
  | .idle => 0
  | .busy => 1
  | .done => 2
  | .err => 3

/-- ECODE's encoding: 0 when the last accepted command succeeded (R35). -/
def ecodeBits : Option Error → BitVec 4
  | none => 0
  | some e => e.code

/-- The STATUS register as the host reads it (R35). -/
def statusWord (s : State) : Word :=
  (s.lastop ++ s.sticky ++ (0 : BitVec 17)) ||| s.valid.word |||
    ((0 : BitVec 24) ++ ecodeBits s.ecode ++ (0 : BitVec 2) ++ s.state.code)

/-- The effect of a write to VSET on one valid bit (R41): a 1 sets it, a 0 leaves it. -/
def vsetBit (w : Word) (v : Valid) (x : DerivedStore) : Bool := v.get x || w.getLsbD (statusBit x)

/-- A write to VSET (R41): bits 8 to 11 only, V.OUT cannot be set. -/
def Valid.vset (w : Word) (v : Valid) : Valid where
  freq := vsetBit w v .freq
  tree := vsetBit w v .tree
  code := vsetBit w v .code
  pbits := vsetBit w v .pbits
  out := v.out

/-- The effect of a write to VCLR on one valid bit (R41): a 1 clears it, a 0 leaves it. -/
def vclrBit (w : Word) (v : Valid) (x : DerivedStore) : Bool := v.get x && !w.getLsbD (statusBit x)

/-- A write to VCLR (R41): bits 8 to 12. -/
def Valid.vclr (w : Word) (v : Valid) : Valid where
  freq := vclrBit w v .freq
  tree := vclrBit w v .tree
  code := vclrBit w v .code
  pbits := vclrBit w v .pbits
  out := vclrBit w v .out

end Sys2Proof.Machine
end

