-- ==== Sys2Proof/Machine/Operands.lean ====
section
/-! DEFINITION. Operands: which command reads and writes which store (R31), the records of TREE and CODE (R100,
R101), their well-formedness (R24, R27), and the contents of the stores as the commands read them. -/

namespace Sys2Proof.Machine

/-! ## The table of R31 -/

/-- The derived stores a command needs valid: the src column of R31 without IN. -/
def needs : Instr → List DerivedStore
  | .hnop => []
  | .hclr => []
  | .fcnt => []
  | .tbld => [.freq]
  | .cgen => [.tree]
  | .bpack => [.code]
  | .bunpk => []
  | .hdecT => [.pbits, .code]
  | .hdecR => [.pbits, .tree]
  | .henc => []
  | .hdcmpT => [.code]
  | .hdcmpR => [.tree]

/-- The dst column of R31. -/
def dests : Instr → List DerivedStore
  | .hnop => []
  | .hclr => []
  | .fcnt => [.freq]
  | .tbld => [.tree]
  | .cgen => [.code]
  | .bpack => [.out]
  | .bunpk => [.pbits]
  | .hdecT => [.out]
  | .hdecR => [.out]
  | .henc => [.freq, .tree, .code, .out]
  | .hdcmpT => [.pbits, .out]
  | .hdcmpR => [.pbits, .out]

/-- The commands that read IN (R250). -/
def readsIn : Instr → Bool
  | .hnop => false
  | .hclr => false
  | .fcnt => true
  | .tbld => false
  | .cgen => false
  | .bpack => true
  | .bunpk => true
  | .hdecT => false
  | .hdecR => false
  | .henc => true
  | .hdcmpT => true
  | .hdcmpR => true

/-- The commands that read PBITS (R250: HDEC.T and HDEC.R). -/
def readsPbits : Instr → Bool
  | .hnop => false
  | .hclr => false
  | .fcnt => false
  | .tbld => false
  | .cgen => false
  | .bpack => false
  | .bunpk => false
  | .hdecT => true
  | .hdecR => true
  | .henc => false
  | .hdcmpT => false
  | .hdcmpR => false

/-! ## IN, FREQ and PBITS -/

/-- `IN[0 .. IN_LEN−1]` (R21). -/
def readIn (s : State) : Except Stop (List Byte) := s.inp.readFrom 0 s.inLen.toNat

/-- `FREQ[0 .. 255]` as unsigned integers (R94). -/
def readFreq (s : State) : Except Stop (List Nat) := do
  let ws ← s.freq.readFrom 0 256
  return ws.map BitVec.toNat

/-- `PB[0 .. PB_LEN−1]` (R28, R103). -/
def readBits (s : State) : Except Stop BitString := do
  let bytes ← s.pbits.readFrom 0 ((s.pbLen.toNat + 7) / 8)
  return (bitsOf bytes).take s.pbLen.toNat

/-! ## TREE records -/

/-- The four words of a node record (R100). -/
def Node.words : Node → List Word
  | .leaf sym weight =>
    [(0 : BitVec 16) ++ sym ++ (0 : BitVec 8), weight.extractLsb' 0 32, (weight.extractLsb' 32 8).setWidth 32, 0]
  | .internal weight left right =>
    [1, weight.extractLsb' 0 32, (weight.extractLsb' 32 8).setWidth 32,
     (0 : BitVec 7) ++ right ++ (0 : BitVec 7) ++ left]

/-- `NODE[k]` without its weight: the tag, then the symbol of a leaf or the children of an internal node (R100).
Only the words a command needs are read. -/
def readLink (m : Memory 32) (k : Nat) : Except Stop Link := do
  let w0 ← m.read (4 * k)
  if w0.getLsbD 0 then
    let w3 ← m.read (4 * k + 3)
    return .branch (w3.extractLsb' 0 9).toNat (w3.extractLsb' 16 9).toNat
  else
    return .leaf (w0.extractLsb' 8 8)

/-- Records `k` to `k + n − 1`. -/
def readLinks (m : Memory 32) : Nat → Nat → Except Stop (List Link)
  | _, 0 => .ok []
  | k, n + 1 => do
    let l ← readLink m k
    let ls ← readLinks m (k + 1) n
    return l :: ls

/-- The weight field of `NODE[k]` (R100), for statements: no command reads it back. -/
def readWeight (m : Memory 32) (k : Nat) : Except Stop Weight := do
  let w1 ← m.read (4 * k + 1)
  let w2 ← m.read (4 * k + 2)
  return w2.extractLsb' 0 8 ++ w1

/-- The symbols of the leaves, in order of node number. -/
def leafSyms (links : List Link) : List Byte :=
  links.filterMap fun l => match l with
    | .leaf sym => some sym
    | .branch _ _ => none

/-- The children of the internal nodes, in order of node number, left before right. -/
def childNums (links : List Link) : List Nat :=
  links.flatMap fun l => match l with
    | .leaf _ => []
    | .branch a b => [a, b]

/-- The nodes met by following child links from a node, at most `fuel` deep. -/
def reach (links : List Link) : Nat → Nat → List Nat
  | 0, _ => []
  | fuel + 1, v =>
    match links[v]? with
    | some (.branch a b) => v :: (reach links fuel a ++ reach links fuel b)
    | some (.leaf _) => [v]
    | none => [v]

/-- Item 2 of WF_TREE for one record. -/
def linkInRange (n : Nat) : Link → Bool
  | .leaf _ => true
  | .branch a b => decide (a < n) && decide (b < n) && a != b

/-- Items 1 to 5 of WF_TREE (R24), over the records `NODE[0 .. NNODES−1]` and ROOT. Item 6 speaks of the weights,
which CGEN and HDEC.R never read (log 3). -/
def treeShape (links : List Link) (root : Nat) : Bool :=
  let n := links.length
  (decide (1 ≤ n) && decide (n ≤ Config.maxNodes) && n % 2 == 1 && (leafSyms links).length == (n + 1) / 2) &&
  (decide (root < n) && links.all (linkInRange n)) &&
  ((List.range n).all fun k => (childNums links).count k == if k = root then 0 else 1) &&
  ((List.range n).all fun k => (reach links n root).count k == 1) &&
  decide (leafSyms links).Nodup

/-- Item 6 of WF_TREE (R24), for statements: every internal node weighs the sum of its children. -/
def weightsAddUp (links : List Link) (weights : List Nat) : Bool :=
  (List.range links.length).all fun k => match links[k]? with
    | some (.branch a b) => weights.getD k 0 == weights.getD a 0 + weights.getD b 0
    | some (.leaf _) => true
    | none => true

/-- The tree a command works on, refused when it is not well-formed (U1, R319; log 2). A count of records out of
range is refused before any record is read. -/
def loadTree (s : State) : Except Stop (List Link) :=
  if s.nnodes.toNat = 0 ∨ Config.maxNodes < s.nnodes.toNat then .error (.refuse .treeNotWellFormed)
  else do
    let links ← readLinks s.tree 0 s.nnodes.toNat
    if treeShape links s.root.toNat then return links
    else .error (.refuse .treeNotWellFormed)

/-! ## CODE records -/

/-- Words 0 to 8 of a code record (R101). -/
def codeRecord (bits : BitString) : List Word :=
  BitVec.ofNat 32 bits.length :: (List.range 8).map fun j => wordOfBits ((bits.drop (32 * j)).take 32)

/-- The whole CODE store of a table of 256 codes; words 9 to 15 of a record are reserved and hold nothing (R101). -/
def codeCells (tbl : List BitString) : Memory 32 :=
  (List.range 256).flatMap fun s => Memory.from (16 * s) (codeRecord (tbl.getD s []))

/-- `CODE[s].bits`, empty when the symbol is absent (R25, R101). Bits at positions from `len` on are not read. -/
def readCode (m : Memory 32) (s : Nat) : Except Stop BitString := do
  let w0 ← m.read (16 * s)
  let len := (w0.extractLsb' 0 8).toNat
  let ws ← m.readFrom (16 * s + 1) ((len + 31) / 32)
  return (ws.flatMap wordBits).take len

/-- Codes of symbols `s` to `s + n − 1`. -/
def readCodes (m : Memory 32) : Nat → Nat → Except Stop (List BitString)
  | _, 0 => .ok []
  | s, n + 1 => do
    let c ← readCode m s
    let cs ← readCodes m (s + 1) n
    return c :: cs

/-- `code(s)` of a table (R25). -/
def codeOf (tbl : List BitString) (s : Byte) : BitString := tbl.getD s.toNat []

/-- INV (R26): the symbol whose code is a given string, if any. -/
def inv (tbl : List BitString) (c : BitString) : Option Byte :=
  if c = [] then none
  else ((List.range 256).find? fun s => tbl.getD s [] == c).map (BitVec.ofNat 8)

/-- WF_CODE (R27): some symbol has a code, and no code is a prefix of the code of another symbol. -/
def codeShape (tbl : List BitString) : Bool :=
  let present := tbl.filter fun c => !c.isEmpty
  !present.isEmpty && decide (present.Pairwise fun a b => ¬ isPrefix a b ∧ ¬ isPrefix b a)

/-- The code table a command works on, refused when it is not well-formed (U1, R319; log 2). -/
def loadCode (s : State) : Except Stop (List BitString) := do
  let tbl ← readCodes s.code 0 256
  if codeShape tbl then return tbl
  else .error (.refuse .codeNotWellFormed)

end Sys2Proof.Machine
end

