-- ==== Sys2Proof/Machine/Ops.lean ====
section
/-! DEFINITION. The frame every command runs in: acceptance (R250), success (R251), failure (R252, R279). -/

namespace Sys2Proof.Machine

/-- A destination after success: its valid bit is set (R251). -/
def validate (s : State) (x : DerivedStore) : State := { s with valid := s.valid.set x true }

/-- A destination after failure: its valid bit is cleared, its contents have no value any more, and the registers
that belong to it are zero (R252). -/
def invalidate (s : State) : DerivedStore → State
  | .freq => { s with valid := s.valid.set .freq false, freq := [] }
  | .tree => { s with valid := s.valid.set .tree false, tree := [], root := 0, nnodes := 0 }
  | .code => { s with valid := s.valid.set .code false, code := [] }
  | .pbits => { s with valid := s.valid.set .pbits false, pbits := [], pbLen := 0 }
  | .out => { s with valid := s.valid.set .out false, out := [], outLen := 0 }

/-- Success (R251): the destinations of the command become valid; `s` already holds their contents. -/
def succeed (dsts : List DerivedStore) (s : State) : State :=
  { dsts.foldl validate s with state := .done, ecode := none, errinfo := 0 }

/-- Failure (R252), the block's one way to take an exception (R279): destinations invalidated, STATE, ECODE, ERRINFO
and the sticky bit written. Nothing is saved and control goes nowhere; the next command leaves ERR (R281). -/
def fail (dsts : List DerivedStore) (e : Error) (info : Word) (s : State) : State :=
  { dsts.foldl invalidate s with
    state := .err, ecode := some e, errinfo := info, sticky := s.sticky ||| e.stickyBit }

/-- The valid bits a command lacks, as a mask in STATUS positions (R250 check (2)). -/
def missing (i : Instr) (v : Valid) : Word := validBitMask (needs i) &&& ~~~ v.word

/-- Checks (2) and (3) of R250, in order: the error that stops the command before its body, if any. -/
def precheck (i : Instr) (s : State) : Option (Error × Word) :=
  if missing i s.valid ≠ 0 then some (.sequence, missing i s.valid)
  else if readsIn i ∧ s.cfg.maxIn < s.inLen.toNat then some (.capacity, 0)
  else if readsPbits i ∧ s.cfg.maxPb < s.pbLen.toNat then some (.capacity, 2)
  else none

/-- How a command ends (R250 step (4)), from the state `s` in which its body started. -/
def conclude (dsts : List DerivedStore) (s : State) : Except Stop State → Host.Outcome State Fault Refusal
  | .ok t => .next (succeed dsts t)
  | .error (.raise e info) => .next (fail dsts e info s)
  | .error (.fault f) => .fault f
  | .error (.refuse r) => .refused r

/-- The frame of every command but HCLR (R250): LASTOP, the checks, the body, success or failure. A body is a
function of the state that writes its destination stores and their registers and nothing else. -/
def runCommand (i : Instr) (body : State → Except Stop State) (s : State) : Host.Outcome State Fault Refusal :=
  let s := { s with lastop := i.opcode }
  match precheck i s with
  | some (e, info) => .next (fail (dests i) e info s)
  | none => conclude (dests i) s (body s)

/-- What a word that is no command does (R93, R250 check (1), R275): it fails at once, with no destinations. -/
def illegalCommand (w : Word) (s : State) : State :=
  fail [] .illegalCommand w { s with lastop := w.extractLsb' 0 8 }

end Sys2Proof.Machine
end

