-- ==== Sys2Proof/Machine/BitUnpacker.lean ====
section
/-! DEFINITION. The unit bit_unpacker: BUNPK (R190 to R196). -/

namespace Sys2Proof.Machine

/-- The bytes PBITS holds for a bit string: a last byte that is not full ends in free bits, which R103 leaves
unspecified (log 5). -/
def pbitsBytes (b : BitString) (free : Byte) : List Byte :=
  packBytes (b ++ (bits8 free).drop (8 - (8 - b.length % 8) % 8))

/-- The unpacking of a buffer of at least one byte (R190, R191): the payload bit string without its padding. -/
def unpackBuffer (bytes : List Byte) : Except Stop BitString :=
  let bits := bitsOf bytes
  let extra := (byte8 (bits.take 8)).toNat
  let payload := bits.drop 8
  if extra < 1 ∨ 8 < extra then .error (.raise .corruptPadding (BitVec.ofNat 32 extra))
  else if payload.length < extra then .error (.raise .corruptPadding (BitVec.ofNat 32 extra))
  else .ok (payload.take (payload.length - extra))

/-- The body of BUNPK (R190, R193). -/
def bodyBunpk (s : State) : Except Stop State :=
  if s.inLen = 0 then .error (.raise .corruptPadding 0x100)
  else do
    let bytes ← readIn s
    let pb ← unpackBuffer bytes
    return { s with
      pbits := Memory.from 0 (pbitsBytes pb (Config.freeByte s.freeCtr))
      pbLen := BitVec.ofNat 32 pb.length
      freeCtr := s.freeCtr + 1 }

/-- BUNPK (R190). -/
def execBunpk (s : State) : Host.Outcome State Fault Refusal := runCommand .bunpk bodyBunpk s

end Sys2Proof.Machine
end

