-- ==== Sys2Proof/Machine/Decoder.lean ====
section
/-! DEFINITION. The unit huffman_decoder: HDEC.T, HDEC.R, HDCMP.T, HDCMP.R (R205 to R216). -/

namespace Sys2Proof.Machine

/-- The loop of R205. `j` bits have been read, `p` is the running prefix and `out` the symbols emitted. -/
def decodeTableLoop (tbl : List BitString) (maxOut : Nat) :
    Nat → BitString → List Byte → BitString → Except Stop (List Byte)
  | j, p, out, [] => if p = [] then .ok out else .error (.raise .invalidCode (BitVec.ofNat 32 (j - p.length)))
  | j, p, out, b :: bs =>
    match inv tbl (p ++ [b]) with
    | some sym =>
      if out.length = maxOut then .error (.raise .capacity 1)
      else decodeTableLoop tbl maxOut (j + 1) [] (out ++ [sym]) bs
    | none => decodeTableLoop tbl maxOut (j + 1) (p ++ [b]) out bs

/-- Decoding by the table strategy (R205). -/
def decodeByTable (tbl : List BitString) (maxOut : Nat) (bits : BitString) : Except Stop (List Byte) :=
  decodeTableLoop tbl maxOut 0 [] [] bits

/-- The loop of R206 under a root that is a leaf (R207): each 0 emits the symbol, a 1 fails at its index `j`. -/
def decodeLeafLoop (sym : Byte) (maxOut : Nat) : Nat → List Byte → BitString → Except Stop (List Byte)
  | _, out, [] => .ok out
  | j, out, b :: bs =>
    if b then .error (.raise .invalidCode (BitVec.ofNat 32 j))
    else if out.length = maxOut then .error (.raise .capacity 1)
    else decodeLeafLoop sym maxOut (j + 1) (out ++ [sym]) bs

/-- A child of an internal node: left on 0, right on 1. -/
def childOf (a b : Nat) (bit : Bool) : Nat := if bit then b else a

/-- The loop of R206 under a root that is an internal node: `v` is the current node, `start` the index of the
first bit of the current codeword. A node that is not internal has no child to move to; under a well-formed tree
`v` is always internal here. -/
def decodeTreeLoop (links : List Link) (root maxOut : Nat) :
    Nat → Nat → Nat → List Byte → BitString → Except Stop (List Byte)
  | _, v, start, out, [] => if v = root then .ok out else .error (.raise .invalidCode (BitVec.ofNat 32 start))
  | j, v, start, out, bit :: bs =>
    let start := if v = root then j else start
    match links[v]? with
    | some (.branch a b) =>
      match links[childOf a b bit]? with
      | some (.leaf sym) =>
        if out.length = maxOut then .error (.raise .capacity 1)
        else decodeTreeLoop links root maxOut (j + 1) root start (out ++ [sym]) bs
      | some (.branch _ _) => decodeTreeLoop links root maxOut (j + 1) (childOf a b bit) start out bs
      | none => .error (.refuse .treeNotWellFormed)
    | some (.leaf _) => .error (.refuse .treeNotWellFormed)
    | none => .error (.refuse .treeNotWellFormed)

/-- Decoding by the tree strategy (R206). -/
def decodeByTree (links : List Link) (root maxOut : Nat) (bits : BitString) : Except Stop (List Byte) :=
  match links[root]? with
  | some (.leaf sym) => decodeLeafLoop sym maxOut 0 [] bits
  | some (.branch _ _) => decodeTreeLoop links root maxOut 0 root 0 [] bits
  | none => .error (.refuse .treeNotWellFormed)

/-- OUT and OUT_LEN after a decoded symbol sequence. -/
def deliver (s : State) (syms : List Byte) : State :=
  { s with out := s.out.overwrite syms, outLen := BitVec.ofNat 32 syms.length }

/-- The body of HDEC.T (R205). -/
def bodyHdecT (s : State) : Except Stop State := do
  let tbl ← loadCode s
  let bits ← readBits s
  let syms ← decodeByTable tbl s.cfg.maxOut bits
  return deliver s syms

/-- HDEC.T (R205). -/
def execHdecT (s : State) : Host.Outcome State Fault Refusal := runCommand .hdecT bodyHdecT s

/-- The body of HDEC.R (R206). -/
def bodyHdecR (s : State) : Except Stop State := do
  let links ← loadTree s
  let bits ← readBits s
  let syms ← decodeByTree links s.root.toNat s.cfg.maxOut bits
  return deliver s syms

/-- HDEC.R (R206). -/
def execHdecR (s : State) : Host.Outcome State Fault Refusal := runCommand .hdecR bodyHdecR s

/-- The body of HDCMP.T (R211): stage 1 BUNPK, stage 2 HDEC.T. The table must be well-formed before the command
(U1, log 2). -/
def bodyHdcmpT (s : State) : Except Stop State := do
  let _ ← loadCode s
  let s1 ← bodyBunpk s
  bodyHdecT s1

/-- HDCMP.T (R211). -/
def execHdcmpT (s : State) : Host.Outcome State Fault Refusal := runCommand .hdcmpT bodyHdcmpT s

/-- The body of HDCMP.R (R212): stage 1 BUNPK, stage 2 HDEC.R. The tree must be well-formed before the command
(U1, log 2). -/
def bodyHdcmpR (s : State) : Except Stop State := do
  let _ ← loadTree s
  let s1 ← bodyBunpk s
  bodyHdecR s1

/-- HDCMP.R (R212). -/
def execHdcmpR (s : State) : Host.Outcome State Fault Refusal := runCommand .hdcmpR bodyHdcmpR s

end Sys2Proof.Machine
end

