-- ==== Sys2Proof/Machine/BitPacker.lean ====
section
/-! DEFINITION. The unit bit_packer: BPACK (R175 to R181). -/

namespace Sys2Proof.Machine

/-- The symbol scan of R175 from index `i`: the concatenated codes, or UnknownSymbolError at the first symbol
without a code (R178). -/
def encodeSymbols (tbl : List BitString) : Nat → List Byte → Except Stop BitString
  | _, [] => .ok []
  | i, s :: rest =>
    if codeOf tbl s = [] then .error (.raise .unknownSymbol (BitVec.ofNat 32 i))
    else do
      let b ← encodeSymbols tbl (i + 1) rest
      return codeOf tbl s ++ b

/-- The compressed buffer of a code bit string (R95, R175): header byte, then the padded bits. -/
def packBuffer (b : BitString) : List Byte :=
  BitVec.ofNat 8 (padLength b.length) :: packBytes (b ++ List.replicate (padLength b.length) false)

/-- The body of BPACK (R175). The scan is finished before the output size is checked. -/
def bodyBpack (s : State) : Except Stop State := do
  let tbl ← loadCode s
  let bytes ← readIn s
  let b ← encodeSymbols tbl 0 bytes
  if s.cfg.maxOut < 1 + (b.length + padLength b.length) / 8 then .error (.raise .capacity 1)
  else
    return { s with
      out := s.out.overwrite (packBuffer b)
      outLen := BitVec.ofNat 32 (1 + (b.length + padLength b.length) / 8) }

/-- BPACK (R175). -/
def execBpack (s : State) : Host.Outcome State Fault Refusal := runCommand .bpack bodyBpack s

end Sys2Proof.Machine
end

