-- ==== Sys2Proof/Machine/CodeTable.lean ====
section
/-! DEFINITION. The unit code_table_generator: CGEN (R160 to R166). -/

namespace Sys2Proof.Machine

/-- The depth-first walk of R160 from a node reached along `path`, at most `fuel` deep: every leaf met, with its
path, 0 for left and 1 for right. -/
def leafPaths (links : List Link) : Nat → Nat → BitString → List (Byte × BitString)
  | 0, _, _ => []
  | fuel + 1, v, path =>
    match links[v]? with
    | some (.leaf sym) => [(sym, path)]
    | some (.branch a b) =>
      leafPaths links fuel a (path ++ [false]) ++ leafPaths links fuel b (path ++ [true])
    | none => []

/-- The symbols that get a code, with it. A root that is a leaf gets "0" (R161). -/
def treeCodes (links : List Link) (root : Nat) : List (Byte × BitString) :=
  match links[root]? with
  | some (.leaf sym) => [(sym, [false])]
  | some (.branch _ _) => leafPaths links links.length root []
  | none => []

/-- The 256 codes of a tree, empty for a symbol that has no leaf (R160). -/
def codeTable (links : List Link) (root : Nat) : List BitString :=
  (List.range Config.alpha).map fun s => ((treeCodes links root).lookup (BitVec.ofNat 8 s)).getD []

/-- The body of CGEN (R160): all 256 records of CODE are written. -/
def bodyCgen (s : State) : Except Stop State := do
  let links ← loadTree s
  return { s with code := codeCells (codeTable links s.root.toNat) }

/-- CGEN (R160). -/
def execCgen (s : State) : Host.Outcome State Fault Refusal := runCommand .cgen bodyCgen s

end Sys2Proof.Machine
end

