-- ==== Sys2Proof/Machine/FrequencyCounter.lean ====
section
/-! DEFINITION. The unit frequency_counter: FCNT (R130 to R133). -/

namespace Sys2Proof.Machine

/-- The loop of R130: from all counts 0, one more for each symbol met. Exact natural numbers (R9, R131). -/
def countSymbols (bytes : List Byte) : List Nat :=
  bytes.foldl (fun cs b => cs.modify b.toNat (· + 1)) (List.replicate Config.alpha 0)

/-- The body of FCNT (R130): all 256 elements of FREQ are written. -/
def bodyFcnt (s : State) : Except Stop State := do
  let bytes ← readIn s
  return { s with freq := Memory.from 0 ((countSymbols bytes).map (BitVec.ofNat 32)) }

/-- FCNT (R130). -/
def execFcnt (s : State) : Host.Outcome State Fault Refusal := runCommand .fcnt bodyFcnt s

end Sys2Proof.Machine
end

