-- ==== Sys2Proof/Machine/TreeBuilder.lean ====
section
/-! DEFINITION. The unit huffman_tree_builder: TBLD (R140 to R150). -/

namespace Sys2Proof.Machine

/-- A key of the queue: (weight, node number) (R142). -/
abbrev Key := Nat × Nat

/-- The order of R142: lower weight first, among equal weights lower node number first. -/
def keyLt (p q : Key) : Bool := decide (p.1 < q.1) || (p.1 == q.1 && decide (p.2 < q.2))

/-- The least key of a queue that holds at least `q` (R11 argmin, R142). -/
def leastKey (q : Key) (qs : List Key) : Key := qs.foldl (fun m x => if keyLt x m then x else m) q

/-- Takes the least key out of the queue (R140). -/
def extractMin : List Key → Option (Key × List Key)
  | [] => none
  | q :: qs => some (leastKey q qs, (q :: qs).erase (leastKey q qs))

/-- The loop `while |Q| > 1` of R140, with the nodes made so far (k is their number). It answers all nodes and the
root. Each round shortens the queue by one, so `fuel = |Q|` is enough (R144). -/
def mergeLoop : Nat → List Key → List Node → List Node × Nat
  | 0, _, nodes => (nodes, 0)
  | fuel + 1, qs, nodes =>
    match extractMin qs with
    | none => (nodes, 0)
    | some (a, qs1) =>
      match extractMin qs1 with
      | none => (nodes, a.2)
      | some (b, qs2) =>
        mergeLoop fuel (qs2 ++ [(a.1 + b.1, nodes.length)])
          (nodes ++ [.internal (BitVec.ofNat 40 (a.1 + b.1)) (BitVec.ofNat 9 a.2) (BitVec.ofNat 9 b.2)])

/-- The symbols with a positive count, ascending (R141). -/
def presentSymbols (counts : List Nat) : List Nat := (List.range 256).filter fun s => decide (0 < counts.getD s 0)

/-- The whole build of R140 from 256 counts, at least one of them positive: the node records and the root. -/
def buildTree (counts : List Nat) : List Node × Nat :=
  let syms := presentSymbols counts
  mergeLoop syms.length
    (syms.zipIdx.map fun p => (counts.getD p.1 0, p.2))
    (syms.map fun s => .leaf (BitVec.ofNat 8 s) (BitVec.ofNat 40 (counts.getD s 0)))

/-- The body of TBLD (R140). Records from NNODES on keep what they held. -/
def bodyTbld (s : State) : Except Stop State := do
  let counts ← readFreq s
  if presentSymbols counts = [] then .error (.raise .emptyInput 0)
  else
    let built := buildTree counts
    return { s with
      tree := s.tree.overwrite (built.1.flatMap Node.words)
      root := BitVec.ofNat 32 built.2
      nnodes := BitVec.ofNat 32 built.1.length }

/-- TBLD (R140). -/
def execTbld (s : State) : Host.Outcome State Fault Refusal := runCommand .tbld bodyTbld s

end Sys2Proof.Machine
end

