-- ==== Sys2Proof/Machine/Encoder.lean ====
section
/-! DEFINITION. The top level huffman_encoder: HENC (R230 to R235). -/

namespace Sys2Proof.Machine

/-- The body of HENC (R230): the bodies of FCNT, TBLD, CGEN and BPACK in order, each on what the stages before it
wrote. No stage looks at a valid bit (R231). -/
def bodyHenc (s : State) : Except Stop State := do
  let s1 ← bodyFcnt s
  let s2 ← bodyTbld s1
  let s3 ← bodyCgen s2
  bodyBpack s3

/-- HENC (R230). -/
def execHenc (s : State) : Host.Outcome State Fault Refusal := runCommand .henc bodyHenc s

end Sys2Proof.Machine
end

