-- ==== Sys2Proof/Machine/Housekeeping.lean ====
section
/-! DEFINITION. The housekeeping commands HNOP (R253) and HCLR (R254). -/

namespace Sys2Proof.Machine

/-- HNOP (R253): succeeds and does nothing else. -/
def execHnop (s : State) : Host.Outcome State Fault Refusal := runCommand .hnop (fun t => .ok t) s

/-- HCLR (R254): ends the session. It ends in IDLE, so it does not run in the frame of R250. -/
def execHclr (s : State) : Host.Outcome State Fault Refusal :=
  .next { [DerivedStore.freq, .tree, .code, .pbits, .out].foldl invalidate s with
    sticky := 0, ecode := none, errinfo := 0, state := .idle, lastop := Instr.hclr.opcode }

end Sys2Proof.Machine
end

