-- ==== Sys2Proof/Machine/Dispatch.lean ====
section
/-! DEFINITION. One arm per command. -/

namespace Sys2Proof.Machine

/-- The meaning of a command issued in a state (R250). -/
def exec (i : Instr) (s : State) : Host.Outcome State Fault Refusal :=
  match i with
  | .hnop => Sys2Proof.Machine.execHnop s
  | .hclr => Sys2Proof.Machine.execHclr s
  | .fcnt => Sys2Proof.Machine.execFcnt s
  | .tbld => Sys2Proof.Machine.execTbld s
  | .cgen => Sys2Proof.Machine.execCgen s
  | .bpack => Sys2Proof.Machine.execBpack s
  | .bunpk => Sys2Proof.Machine.execBunpk s
  | .hdecT => Sys2Proof.Machine.execHdecT s
  | .hdecR => Sys2Proof.Machine.execHdecR s
  | .henc => Sys2Proof.Machine.execHenc s
  | .hdcmpT => Sys2Proof.Machine.execHdcmpT s
  | .hdcmpR => Sys2Proof.Machine.execHdcmpR s

end Sys2Proof.Machine
end

