-- ==== Sys2Proof/Machine/HostPort.lean ====
section
/-! DEFINITION. The host's side of the block: the register map (R33 to R42), MemRead and MemWrite (R62), issuing a
command (R34, R250), reset (R310). -/

namespace Sys2Proof.Machine

/-- What a write to CMD does (R34, R250): a command runs, any other word fails as an illegal command (R93). -/
def issueCommand (w : Word) (s : State) : Host.Outcome State Fault Refusal :=
  match decode w with
  | .ok i => exec i s
  | .error _ => .next (illegalCommand w s)

/-- The value of a register as the host reads it (R33): CMD, VSET, VCLR and reserved registers read 0. -/
def regRead (s : State) : Nat → Word
  | 1 => statusWord s
  | 2 => s.errinfo
  | 3 => s.inLen
  | 4 => s.outLen
  | 5 => s.pbLen
  | 6 => s.root
  | 7 => s.nnodes
  | 10 => BitVec.ofNat 32 s.cfg.maxIn
  | 11 => BitVec.ofNat 32 s.cfg.maxOut
  | _ => 0

/-- A host write to a register (R34 to R42): read-only and reserved registers ignore it. -/
def regWrite (s : State) (v : Word) : Nat → Host.Outcome State Fault Refusal
  | 0 => issueCommand v s
  | 3 => .next { s with inLen := v }
  | 5 => .next { s with pbLen := v, valid := s.valid.set .pbits false }
  | 6 => .next { s with root := v, valid := s.valid.set .tree false }
  | 7 => .next { s with nnodes := v, valid := s.valid.set .tree false }
  | 8 => .next { s with valid := s.valid.vset v }
  | 9 => .next { s with valid := s.valid.vclr v }
  | _ => .next s

/-- The bits of a FREQ word that a count of CNT_W bits has; the others are reserved (R22, R68; log 7). -/
def freqMask (c : Config) : Word := BitVec.ofNat 32 (2 ^ c.cntW - 1)

/-- The bits of a 40-bit weight that WGT_W = CNT_W + 8 leaves (R7; log 7). -/
def weightMask (c : Config) : Weight := BitVec.ofNat 40 (2 ^ (c.cntW + 8) - 1)

/-- The bits of a TREE word that are not reserved (R100), by its place in the record. -/
def treeMask (c : Config) : Nat → Word
  | 0 => 0x0000FF01
  | 1 => (weightMask c).extractLsb' 0 32
  | 2 => ((weightMask c).extractLsb' 32 8).setWidth 32
  | _ => 0x01FF01FF

/-- The bits of a CODE word that are not reserved (R101), by its place in the record. -/
def codeMask : Nat → Word
  | 0 => 0x000000FF
  | _ => 0xFFFFFFFF

/-- Whether a CODE word is one of the reserved words 9 to 15 of its record (R101). -/
def codeReserved (idx : Nat) : Bool := decide (9 ≤ idx % 16)

/-- The element a host read finds, if it has a value (R62, R78). Reserved words of CODE read 0 (R68). -/
def spaceRead (s : State) (sp : Space) (idx : Nat) : Option Element :=
  match sp with
  | .reg => some (.word (regRead s idx))
  | .inp => (s.inp.get idx).map .byte
  | .out => (s.out.get idx).map .byte
  | .freq => (s.freq.get idx).map .word
  | .tree => (s.tree.get idx).map .word
  | .code => if codeReserved idx then some (.word 0) else (s.code.get idx).map .word
  | .pbits => (s.pbits.get idx).map .byte

/-- The code store after a host write: a reserved word holds nothing (R68). -/
def codeWrite (m : Memory 32) (idx : Nat) (v : Word) : Memory 32 :=
  if codeReserved idx then m else m.set idx (v &&& codeMask (idx % 16))

/-- A host write of an element in range and of the space's width (R62). -/
def spaceWrite (s : State) (sp : Space) (idx : Nat) (v : Word) : Host.Outcome State Fault Refusal :=
  match sp with
  | .reg => regWrite s v idx
  | .inp => .next { s with inp := s.inp.set idx (v.setWidth 8) }
  | .out => .next s
  | .freq => .next { s with freq := s.freq.set idx (v &&& freqMask s.cfg), valid := s.valid.set .freq false }
  | .tree => .next { s with
      tree := s.tree.set idx (v &&& treeMask s.cfg (idx % 4)), valid := s.valid.set .tree false }
  | .code => .next { s with code := codeWrite s.code idx v, valid := s.valid.set .code false }
  | .pbits => .next { s with pbits := s.pbits.set idx (v.setWidth 8), valid := s.valid.set .pbits false }

/-- The one access the host may make while a command runs: a read of STATUS (R77). -/
def allowedWhileBusy (sp : Space) (idx : Nat) : Bool := sp == .reg && idx == 1

/-- `MemRead(space, idx, n)` (R62). The value goes to the host; the block does not change (R70). -/
def memRead (s : State) (sp : Space) (idx n : Nat) : Host.Outcome State Fault Refusal :=
  if s.state = .busy ∧ ¬ allowedWhileBusy sp idx then .fault .accessWhileBusy
  else if n ≠ sp.width ∨ ¬ sp.inRange s.cfg idx then .fault .undefinedAccess
  else match spaceRead s sp idx with
    | some e => .next { s with readData := some e }
    | none => .fault .unwrittenElement

/-- `MemWrite(space, idx, n, v)` (R62). -/
def memWrite (s : State) (sp : Space) (idx n : Nat) (v : BitVec n) : Host.Outcome State Fault Refusal :=
  if s.state = .busy then .fault .accessWhileBusy
  else if n ≠ sp.width ∨ ¬ sp.inRange s.cfg idx then .fault .undefinedAccess
  else spaceWrite s sp idx (v.setWidth 32)

/-- Reset (R310): every piece of the block's state takes its reset value (R45). The parameters stay (R46), and so do
the model's own fields, which are the host's (log 14). -/
def hostReset (s : State) : State :=
  { State.resetWith s.cfg with freeCtr := s.freeCtr, pending := s.pending, readData := s.readData }

/-- One action of the host (R62, R310). -/
def perform (a : HostAction) (s : State) : Host.Outcome State Fault Refusal :=
  match a with
  | .read sp idx n => memRead s sp idx n
  | .write sp idx n v => memWrite s sp idx n v
  | .reset => .next (hostReset s)

end Sys2Proof.Machine
end

