-- ==== Sys2Proof/Machine/Step.lean ====
section
/-! DEFINITION. One step: the block receives the host's next action (R4, R72). -/

namespace Sys2Proof.Machine

/-- One step. The block has no program counter (R32): what it does next is the host's next action. With none
pending the block waits and its state survives (R4, R289; log 8). -/
def step (s : State) : Host.Outcome State Fault Refusal :=
  match s.pending with
  | [] => .next s
  | a :: rest => perform a { s with pending := rest }

/-- The state whose next step is the host's write of a command word to CMD (R34), given as a number whose bits are
numbered as spec/opcode_table.json numbers them. -/
def State.withFetchWord (s : State) (nbits w : Nat) : State :=
  { s with pending := .write .reg 0 32 (BitVec.ofNat 32 (w % 2 ^ nbits)) :: s.pending }

end Sys2Proof.Machine
end

