-- ==== Sys2Proof/Machine/Script.lean ====
section
/-! DEFINITION. The host's scripts (R104), the pseudo-instructions (R106) and the end of a run (R323), as the host
accesses they are made of. -/

namespace Sys2Proof.Machine

/-- What the host keeps of a saved store (R104, R313): its elements in order and the registers that belong to it. -/
structure Saved where
  elems : List Element
  root : Word
  nnodes : Word
  pbLen : Word
  deriving DecidableEq, Repr

/-- The host-side variables of a script, latest first. -/
abbrev HostVars := List (String × Saved)

/-- Does one action after another; the first that stops the machine stops the run. -/
def performAll : List HostAction → State → Host.Outcome State Fault Refusal
  | [], s => .next s
  | a :: rest, s =>
    match perform a s with
    | .next t => performAll rest t
    | .fault f => .fault f
    | .refused r => .refused r

/-- The write of a command word to CMD. -/
def writeCmd (w : Word) : HostAction := .write .reg 0 32 w

/-- Writes of bytes to a space from an index on. -/
def writeBytes (sp : Space) : Nat → List Byte → List HostAction
  | _, [] => []
  | i, b :: bs => .write sp i 8 b :: writeBytes sp (i + 1) bs

/-- `host in <bytes>` (R104): the bytes, then their count to IN_LEN. -/
def hostIn (bytes : List Byte) : List HostAction :=
  writeBytes .inp 0 bytes ++ [.write .reg 3 32 (BitVec.ofNat 32 bytes.length)]

/-- Reads of `n` elements of a space from an index on, collecting what the host receives. -/
def readElems (sp : Space) : Nat → Nat → State → Except Stop (List Element × State)
  | _, 0, s => .ok ([], s)
  | i, n + 1, s =>
    match memRead s sp i sp.width with
    | .next t => do
      let (es, u) ← readElems sp (i + 1) n t
      return (t.readData.toList ++ es, u)
    | .fault f => .error (.fault f)
    | .refused r => .error (.refuse r)

/-- The byte of an element. -/
def Element.toByte : Element → Byte
  | .byte b => b
  | .word w => w.setWidth 8

/-- The word of an element. -/
def Element.toWord : Element → Word
  | .byte b => b.setWidth 32
  | .word w => w

/-- The space of a store a script saves. -/
def savedSpace : SavedStore → Space
  | .freq => .freq
  | .tree => .tree
  | .code => .code
  | .pbits => .pbits

/-- The store's valid bit. -/
def savedStore : SavedStore → DerivedStore
  | .freq => .freq
  | .tree => .tree
  | .code => .code
  | .pbits => .pbits

/-- How many elements of a store are its complete contents (R319): all counts, records 0 to NNODES − 1, all code
records, bytes 0 to (PB_LEN − 1) div 8 (log 16). -/
def savedCount (s : State) : SavedStore → Nat
  | .freq => 256
  | .tree => 4 * s.nnodes.toNat
  | .code => 4096
  | .pbits => (s.pbLen.toNat + 7) / 8

/-- The write of one element, of the width of its space. -/
def writeElem (sp : Space) (i : Nat) : Element → HostAction
  | .byte b => .write sp i 8 b
  | .word w => .write sp i 32 w

/-- Writes of saved elements from an index on. -/
def writeElems (sp : Space) : Nat → List Element → List HostAction
  | _, [] => []
  | i, e :: es => writeElem sp i e :: writeElems sp (i + 1) es

/-- The registers written back with a store (R104). -/
def savedRegs (v : Saved) : SavedStore → List HostAction
  | .freq => []
  | .tree => [.write .reg 6 32 v.root, .write .reg 7 32 v.nnodes]
  | .code => []
  | .pbits => [.write .reg 5 32 v.pbLen]

/-- `host load` (R104): the elements, their registers, then VSET with the store's bit. R104 does not say what a load
does with contents saved from another store. Here they are written by index into the named store, and the first element
of another width or outside that space stops the script with undefinedAccess: the model's choice (log 21, DESIGN
CHOICE, safe). -/
def hostLoad (st : SavedStore) (v : Saved) : List HostAction :=
  writeElems (savedSpace st) 0 v.elems ++ savedRegs v st ++
    [.write .reg 8 32 (BitVec.twoPow 32 (statusBit (savedStore st)))]

/-- An outcome with the host's variables. -/
def withVars (vars : HostVars) : Host.Outcome State Fault Refusal → Except Stop (HostVars × State)
  | .next t => .ok (vars, t)
  | .fault f => .error (.fault f)
  | .refused r => .error (.refuse r)

/-- One script line (R104). A load of a name that was never saved writes nothing (log 16). -/
def runLine (vars : HostVars) (s : State) : ScriptLine → Except Stop (HostVars × State)
  | .cmd i => withVars vars (performAll [writeCmd (encode i)] s)
  | .word w => withVars vars (performAll [writeCmd w] s)
  | .hostIn bytes => withVars vars (performAll (hostIn bytes) s)
  | .hostMv => do
    let (es, t) ← readElems .out 0 s.outLen.toNat s
    withVars vars (performAll (hostIn (es.map Element.toByte)) t)
  | .hostSave st name => do
    let (es, t) ← readElems (savedSpace st) 0 (savedCount s st) s
    return ((name, ⟨es, s.root, s.nnodes, s.pbLen⟩) :: vars, t)
  | .hostLoad st name =>
    match vars.lookup name with
    | some v => withVars vars (performAll (hostLoad st v) s)
    | none => .ok (vars, s)
  | .hostVclr st => withVars vars (performAll [.write .reg 9 32 (BitVec.twoPow 32 (statusBit st))] s)
  | .hostReset => withVars vars (performAll [.reset] s)

/-- A script, line by line (R104). -/
def runScript : List ScriptLine → HostVars → State → Except Stop (HostVars × State)
  | [], vars, s => .ok (vars, s)
  | l :: ls, vars, s => do
    let (vars1, s1) ← runLine vars s l
    runScript ls vars1 s1

/-- A script that stops at the first line after which STATE is ERR (R106). -/
def runUntilErr : List ScriptLine → HostVars → State → Except Stop (HostVars × State)
  | [], vars, s => .ok (vars, s)
  | l :: ls, vars, s => do
    let (vars1, s1) ← runLine vars s l
    if s1.state = .err then return (vars1, s1) else runUntilErr ls vars1 s1

/-- The expansion of a pseudo-instruction (R106). -/
def pseudoLines : Pseudo → List ScriptLine
  | .hpipe => [.cmd .fcnt, .cmd .tbld, .cmd .cgen, .cmd .bpack]
  | .hrtT => [.cmd .henc, .hostMv, .cmd .hdcmpT]
  | .hrtR => [.cmd .henc, .hostMv, .cmd .hdcmpR]
  | .compress => [.cmd .henc]
  | .decompress => [.cmd .hdcmpT]

/-- A pseudo-instruction (R106): its lines, the rest skipped after a command that ends in ERR. R106 says so of HPIPE
and HRT.T and says nothing of HRT.R, whose lines 2 and 3 are skipped too when HENC ends in ERR: the model's choice
(log 22, DESIGN CHOICE, unsafe). -/
def runPseudo (p : Pseudo) (vars : HostVars) (s : State) : Except Stop (HostVars × State) :=
  runUntilErr (pseudoLines p) vars s

/-- A run has failed when a sticky bit is set at its end (R323). R323 says so of a run that began from reset or HCLR
and holds no later HCLR or reset. Of any other run it says nothing, and there the answer, from the final state alone, is
the model's choice (log 20, DESIGN CHOICE, unsafe). -/
def runFailed (s : State) : Bool := s.sticky != 0

end Sys2Proof.Machine
end

