-- ==== Sys2Proof/Safety.lean ====
section
/-! DEFINITION. What the claims call a legal state of the block, and a full well-formed tree. -/

namespace Sys2Proof.Machine

/-- The stores in canonical form, with no element outside its space (R60). -/
abbrev State.storesCanonical (s : State) : Prop :=
  s.inp.wf s.cfg.maxIn ∧ s.freq.wf 256 ∧ s.tree.wf 2044 ∧ s.code.wf 4096 ∧ s.pbits.wf s.cfg.maxIn ∧
    s.out.wf s.cfg.maxOut

/-- Reserved bits and words of the stores hold 0 or nothing (R68, R100, R101; for CNT_W below 32 log 7). -/
abbrev State.reservedClear (s : State) : Prop :=
  (∀ c ∈ s.freq, c.2 &&& ~~~ freqMask s.cfg = 0) ∧
  (∀ c ∈ s.tree, c.2 &&& ~~~ treeMask s.cfg (c.1 % 4) = 0) ∧
  (∀ c ∈ s.code, codeReserved c.1 = false ∧ c.2 &&& ~~~ codeMask (c.1 % 16) = 0)

/-- STATUS and ERRINFO agree (R32, R35, R36, R43): no command is running; ECODE is non-zero exactly in ERR; the
sticky bit of the current error is set; ERRINFO is 0 without an error; IDLE means no failure is recorded. -/
abbrev State.statusConsistent (s : State) : Prop :=
  s.state ≠ .busy ∧ (s.state = .err ↔ s.ecode ≠ none) ∧
  (match s.ecode with
   | some e => s.sticky &&& e.stickyBit = e.stickyBit
   | none => s.errinfo = 0) ∧
  (s.state = .idle → s.sticky = 0)

/-- A valid OUT is complete: it is never loaded by the host, so the bit means a command delivered it (R29, R41). -/
abbrev State.outComplete (s : State) : Prop :=
  s.valid.out = true → s.outLen.toNat ≤ s.cfg.maxOut ∧ ∀ i < s.outLen.toNat, s.out.get i ≠ none

/-- The invariant of the block. -/
structure State.Inv (s : State) : Prop where
  cfg_wf : s.cfg.wf
  stores : s.storesCanonical
  reserved : s.reservedClear
  status : s.statusConsistent
  out_complete : s.outComplete

/-! ## What the stores hold, read straight from the layouts of R100 to R103 -/

/-- A store holds a list at its first elements. -/
abbrev Holds {w : Nat} (m : Memory w) (vs : List (BitVec w)) : Prop := ∀ i < vs.length, m.get i = vs[i]?

/-- IN holds a byte sequence (R21). -/
abbrev InHolds (s : State) (bytes : List Byte) : Prop := s.inLen.toNat = bytes.length ∧ Holds s.inp bytes

/-- OUT holds a byte sequence (R29). -/
abbrev OutHolds (s : State) (bytes : List Byte) : Prop := s.outLen.toNat = bytes.length ∧ Holds s.out bytes

/-- FREQ holds 256 counts (R22, R102). -/
abbrev FreqHolds (s : State) (counts : List Nat) : Prop :=
  counts.length = 256 ∧ ∀ k < 256, (s.freq.get k).map BitVec.toNat = counts[k]?

/-- PBITS holds a bit string: bit j is bit 7 − (j mod 8) of byte j div 8 (R28, R103). -/
abbrev PbHolds (s : State) (bits : BitString) : Prop :=
  s.pbLen.toNat = bits.length ∧
    ∀ j < bits.length, (s.pbits.get (j / 8)).map (fun b => b.getLsbD (7 - j % 8)) = bits[j]?

/-- One CODE record holds a code: its length in word 0, code bit i at bit 31 − (i mod 32) of word 1 + (i div 32)
(R101). -/
abbrev CodeRecordHolds (m : Memory 32) (sym : Nat) (bits : BitString) : Prop :=
  (m.get (16 * sym)).map (fun w => (w.extractLsb' 0 8).toNat) = some bits.length ∧
    ∀ i < bits.length, (m.get (16 * sym + (1 + i / 32))).map (fun w => w.getLsbD (31 - i % 32)) = bits[i]?

/-- CODE holds a table of 256 codes, empty for an absent symbol (R25). -/
abbrev CodeHolds (s : State) (tbl : List BitString) : Prop :=
  tbl.length = 256 ∧ ∀ sym < 256, CodeRecordHolds s.code sym (tbl.getD sym [])

/-- One TREE record holds a node, weight aside: the tag, then the symbol or the two children (R100). -/
def linkHolds (m : Memory 32) (k : Nat) : Link → Bool
  | .leaf sym => (m.get (4 * k)).map (fun w => (w.getLsbD 0, w.extractLsb' 8 8)) == some (false, sym)
  | .branch a b =>
    (m.get (4 * k)).map (fun w => w.getLsbD 0) == some true &&
      (m.get (4 * k + 3)).map (fun w => ((w.extractLsb' 0 9).toNat, (w.extractLsb' 16 9).toNat)) == some (a, b)

/-- TREE holds NNODES records (R23). -/
abbrev TreeHolds (s : State) (links : List Link) : Prop :=
  s.nnodes.toNat = links.length ∧ ∀ k < links.length, (links[k]?.map (linkHolds s.tree k)) = some true

/-- The weight of a TREE record: bits 31:0 in word 1, bits 39:32 in word 2 (R100). -/
def weightAt (m : Memory 32) (k : Nat) : Option Nat :=
  match m.get (4 * k + 1), m.get (4 * k + 2) with
  | some w1, some w2 => some ((w2.extractLsb' 0 8).toNat * 2 ^ 32 + w1.toNat)
  | some _, none => none
  | none, some _ => none
  | none, none => none

/-- The records of TREE have given weights. -/
abbrev WeightsHold (s : State) (weights : List Nat) : Prop :=
  ∀ k < weights.length, weightAt s.tree k = weights[k]?

/-! ## Trees and codes, as the rules speak of them -/

/-- WF_TREE (R24), all six items, of records without weights and their weights. -/
def wfTree (links : List Link) (weights : List Nat) (root : Nat) : Bool :=
  treeShape links root && weightsAddUp links weights

/-- The node a string of bits leads to from a node, 0 to the left child and 1 to the right (R160, R206). -/
def walk (links : List Link) : Nat → BitString → Option Nat
  | v, [] => some v
  | v, b :: bs =>
    match links[v]? with
    | some (.branch l r) => walk links (if b then r else l) bs
    | some (.leaf _) => none
    | none => none

/-- The symbol of the leaf a string of bits leads to from the root. -/
def leafAt (links : List Link) (root : Nat) (c : BitString) : Option Byte :=
  match (walk links root c).bind (fun v => links[v]?) with
  | some (.leaf sym) => some sym
  | some (.branch _ _) => none
  | none => none

/-- A code of a tree: the path of a leaf, or "0" when the root is a leaf (R160, R161). -/
def isTreeCode (links : List Link) (root : Nat) (c : BitString) (sym : Byte) : Prop :=
  match links[root]? with
  | some (.leaf r) => c = [false] ∧ sym = r
  | some (.branch _ _) => c ≠ [] ∧ leafAt links root c = some sym
  | none => False

/-- The node numbers below `k` that are no child of a node below `k`: the queue Q of R140 before node `k` is made. -/
def queueAt (links : List Link) (k : Nat) : List Nat :=
  (List.range k).filter fun q => !(childNums (links.take k)).contains q

/-- The key order of R142: lower weight first, among equal weights lower node number first. -/
def keyBefore (weights : List Nat) (p q : Nat) : Prop :=
  weights.getD p 0 < weights.getD q 0 ∨ (weights.getD p 0 = weights.getD q 0 ∧ p < q)

/-- The greedy merge of R140 to R144 stated without a loop: leaves first, in ascending symbol order; each further
node joins the least and the second least key of the queue, the least being the left child; the last node made is
the root. -/
structure GreedyMerge (counts : List Nat) (links : List Link) (weights : List Nat) (root : Nat) : Prop where
  weights_length : weights.length = links.length
  length_eq : links.length = 2 * (presentSymbols counts).length - 1
  root_eq : root = links.length - 1
  leaves : ∀ i (h : i < (presentSymbols counts).length),
    links[i]? = some (.leaf (BitVec.ofNat 8 (presentSymbols counts)[i])) ∧
      weights[i]? = counts[(presentSymbols counts)[i]]?
  merges : ∀ k, (presentSymbols counts).length ≤ k → k < links.length → ∃ a b,
    links[k]? = some (.branch a b) ∧ weights[k]? = some (weights.getD a 0 + weights.getD b 0) ∧
      a ∈ queueAt links k ∧ b ∈ queueAt links k ∧ keyBefore weights a b ∧
      ∀ q ∈ queueAt links k, q = a ∨ q = b ∨ keyBefore weights b q

/-- The Kraft sum of a table, times 2^255 (R162). -/
def kraftSum (tbl : List BitString) : Nat :=
  ((tbl.filter fun c => !c.isEmpty).map fun c => 2 ^ (255 - c.length)).sum

/-- The codes of a symbol sequence, concatenated (R175). -/
def encoded (tbl : List BitString) (syms : List Byte) : BitString := syms.flatMap (codeOf tbl)

/-! ## How a command ends -/

/-- A command that fails with an error and its info word (R252). -/
def FailsWith (o : Host.Outcome State Fault Refusal) (e : Error) (info : Word) : Prop :=
  ∃ t, o = .next t ∧ t.state = .err ∧ t.ecode = some e ∧ t.errinfo = info

/-- A command that fails as another one did, with given valid bits after it. -/
def FailsLike (o : Host.Outcome State Fault Refusal) (a : State) (v : Valid) : Prop :=
  ∃ t, o = .next t ∧ t.state = .err ∧ t.ecode = a.ecode ∧ t.errinfo = a.errinfo ∧ t.valid = v

/-- A valid, well-formed table in CODE. -/
abbrev HasTable (s : State) (tbl : List BitString) : Prop :=
  s.valid.code = true ∧ CodeHolds s tbl ∧ codeShape tbl = true

/-- A valid, well-formed tree in TREE; item 6 of R24 is not asked (log 3). -/
abbrev HasTree (s : State) (links : List Link) : Prop :=
  s.valid.tree = true ∧ TreeHolds s links ∧ treeShape links s.root.toNat = true

/-- A valid bit string in PBITS within capacity. -/
abbrev HasBits (s : State) (bits : BitString) : Prop :=
  s.valid.pbits = true ∧ PbHolds s bits ∧ bits.length ≤ s.cfg.maxPb

/-- An input within capacity. -/
abbrev HasInput (s : State) (bytes : List Byte) : Prop := InHolds s bytes ∧ bytes.length ≤ s.cfg.maxIn

/-- Every symbol of a sequence has a code. -/
abbrev AllCoded (tbl : List BitString) (syms : List Byte) : Prop := ∀ x ∈ syms, codeOf tbl x ≠ []

/-- A compressed buffer whose header is legal (R95, R191), with its payload bits without padding. -/
abbrev UnpacksTo (bytes : List Byte) (bits : BitString) : Prop :=
  1 ≤ (bytes.headD 0).toNat ∧ (bytes.headD 0).toNat ≤ 8 ∧ (bytes.headD 0).toNat ≤ 8 * (bytes.length - 1) ∧
    bits = (bitsOf bytes.tail).take (8 * (bytes.length - 1) - (bytes.headD 0).toNat)

end Sys2Proof.Machine
end

