-- ==== Sys2Proof/Certificates/Slice0/Obligations.lean ====
section
/-! DEFINITION. The statements for the provers. -/

open Sys2Proof Sys2Proof.Machine

/-! ## Encoding -/

/-- R91, R93: the twelve words, and no other word decodes to a command. -/
def Obligations.DecodeAcceptsExactlyTheTwelveWords : Prop :=
  (encode .hnop = 0x00000000 ∧ encode .hclr = 0x00000001 ∧ encode .fcnt = 0x00000010 ∧
    encode .tbld = 0x00000011 ∧ encode .cgen = 0x00000012 ∧ encode .bpack = 0x00000013 ∧
    encode .bunpk = 0x00000014 ∧ encode .hdecT = 0x00000015 ∧ encode .hdecR = 0x00000115 ∧
    encode .henc = 0x00000020 ∧ encode .hdcmpT = 0x00000021 ∧ encode .hdcmpR = 0x00000121) ∧
  ∀ (w : Word) (i : Instr), decode w = .ok i ↔ w = encode i

/-- R93, with the model's names for its three clauses (log 17). -/
def Obligations.IllegalWordsAreRejectedByReason : Prop :=
  ∀ w : Word,
    (w.extractLsb' 9 23 ≠ 0 → decode w = .error .zeroFieldNotZero) ∧
    (w.extractLsb' 9 23 = 0 → w.extractLsb' 0 8 ∉ assignedOpcodes → decode w = .error .opcodeNotAssigned) ∧
    (w.extractLsb' 9 23 = 0 → w.extractLsb' 0 8 ∈ assignedOpcodes → w.getLsbD 8 = true →
      w.extractLsb' 0 8 ∉ strategyOpcodes → decode w = .error .strategyBitNotAllowed)

/-- Words of R91 written out bit by bit, one or more of each family. -/
def Obligations.HandWrittenWordsDecode : Prop :=
  decode 0b00000000000000000000000000000001 = .ok .hclr ∧
  decode 0b00000000000000000000000000010000 = .ok .fcnt ∧
  decode 0b00000000000000000000000000010001 = .ok .tbld ∧
  decode 0b00000000000000000000000000010010 = .ok .cgen ∧
  decode 0b00000000000000000000000000010011 = .ok .bpack ∧
  decode 0b00000000000000000000000000010100 = .ok .bunpk ∧
  decode 0b00000000000000000000000100010101 = .ok .hdecR ∧
  decode 0b00000000000000000000000000100000 = .ok .henc ∧
  decode 0b00000000000000000000000100100001 = .ok .hdcmpR

/-! ## The step -/

/-- R34, R250: a step that receives the host's write of a command word to CMD is that command at the state that is
left when the action is taken from the queue (log 8); and withFetchWord places exactly such a write. -/
def Obligations.StepRunsTheDecodedCommand : Prop :=
  (∀ (s : State) (w : Word) (i : Instr) (rest : List HostAction),
    s.pending = .write .reg 0 32 w :: rest → s.state ≠ .busy → decode w = .ok i →
      step s = exec i { s with pending := rest }) ∧
  ∀ (s : State) (i : Instr), s.state ≠ .busy → step (s.withFetchWord 32 (encode i).toNat) = exec i s

/-- R93, R275: a word that is no command fails at once, and nothing but STATUS and ERRINFO changes. -/
def Obligations.IllegalWordFailsAtOnce : Prop :=
  Error.illegalCommand.code = 5 ∧ ∀ (s : State) (w : Word) (rest : List HostAction),
    s.pending = .write .reg 0 32 w :: rest → s.state ≠ .busy → (∀ i, w ≠ encode i) →
      step s = .next { s with
        pending := rest, lastop := w.extractLsb' 0 8, state := .err, ecode := some .illegalCommand, errinfo := w,
        sticky := s.sticky ||| 0b0010000 }

/-- R4, R289, and the model's choice of log 8: with no action of the host pending the block waits unchanged. -/
def Obligations.WaitingBlockKeepsItsState : Prop :=
  ∀ s : State, s.pending = [] → step s = .next s

/-- R77, U6 (log 10): in a state with a command running only a read of STATUS, and reset, have a meaning. -/
def Obligations.BusyBlockAllowsOnlyStatusReads : Prop :=
  ∀ s : State, s.state = .busy →
    perform (.read .reg 1 32) s = .next { s with readData := some (.word (statusWord s)) } ∧
    perform .reset s = .next (hostReset s) ∧
    (∀ sp idx n, (sp ≠ .reg ∨ idx ≠ 1) → perform (.read sp idx n) s = .fault .accessWhileBusy) ∧
    (∀ sp idx n (v : BitVec n), perform (.write sp idx n v) s = .fault .accessWhileBusy)

/-! ## The frame of every command -/

/-- R276: each command with a derived source fails when that store is not valid, and ERRINFO names the missing
stores in STATUS positions. -/
def Obligations.SequenceErrorNamesTheMissingStores : Prop :=
  Error.sequence.code = 6 ∧ ∀ s : State,
    (s.valid.freq = false → FailsWith (exec .tbld s) .sequence 0x100) ∧
    (s.valid.tree = false → FailsWith (exec .cgen s) .sequence 0x200) ∧
    (s.valid.code = false → FailsWith (exec .bpack s) .sequence 0x400) ∧
    (s.valid.pbits = false → s.valid.code = true → FailsWith (exec .hdecT s) .sequence 0x800) ∧
    (s.valid.pbits = true → s.valid.code = false → FailsWith (exec .hdecT s) .sequence 0x400) ∧
    (s.valid.pbits = false → s.valid.code = false → FailsWith (exec .hdecT s) .sequence 0xC00) ∧
    (s.valid.pbits = false → s.valid.tree = true → FailsWith (exec .hdecR s) .sequence 0x800) ∧
    (s.valid.pbits = true → s.valid.tree = false → FailsWith (exec .hdecR s) .sequence 0x200) ∧
    (s.valid.pbits = false → s.valid.tree = false → FailsWith (exec .hdecR s) .sequence 0xA00) ∧
    (s.valid.code = false → FailsWith (exec .hdcmpT s) .sequence 0x400) ∧
    (s.valid.tree = false → FailsWith (exec .hdcmpR s) .sequence 0x200)

/-- R250 check (3), R277: with every needed store valid, an IN_LEN above MAX_IN or a PB_LEN above MAX_PB stops the
command before its body, whatever the stores hold. -/
def Obligations.LengthsAboveCapacityAreRefusedFirst : Prop :=
  ∀ (i : Instr) (s : State), (∀ x ∈ needs i, s.valid.get x = true) →
    (i ∈ [Instr.fcnt, .bpack, .bunpk, .henc, .hdcmpT, .hdcmpR] → s.cfg.maxIn < s.inLen.toNat →
      FailsWith (exec i s) .capacity 0) ∧
    (i ∈ [Instr.hdecT, .hdecR] → 8 * s.cfg.maxIn < s.pbLen.toNat → FailsWith (exec i s) .capacity 2)

/-- R252, R279, R280: what a failed command changes. The contents of a destination are left open, as the rule does. -/
def Obligations.FailureTouchesDestinationsOnly : Prop :=
  ∀ (i : Instr) (s t : State), exec i s = .next t → t.state = .err →
    t.lastop = i.opcode ∧
    (∃ e, t.ecode = some e ∧ t.sticky = s.sticky ||| e.stickyBit) ∧
    (∀ x, t.valid.get x = if x ∈ dests i then false else s.valid.get x) ∧
    (.out ∈ dests i → t.outLen = 0) ∧ (.pbits ∈ dests i → t.pbLen = 0) ∧
    (.tree ∈ dests i → t.root = 0 ∧ t.nnodes = 0) ∧
    (.freq ∉ dests i → t.freq = s.freq) ∧
    (.tree ∉ dests i → t.tree = s.tree ∧ t.root = s.root ∧ t.nnodes = s.nnodes) ∧
    (.code ∉ dests i → t.code = s.code) ∧
    (.pbits ∉ dests i → t.pbits = s.pbits ∧ t.pbLen = s.pbLen) ∧
    (.out ∉ dests i → t.out = s.out ∧ t.outLen = s.outLen) ∧
    t.inp = s.inp ∧ t.inLen = s.inLen ∧ t.cfg = s.cfg ∧ t.pending = s.pending ∧ t.readData = s.readData

/-- R251: what a successful command changes besides the contents of its destinations. -/
def Obligations.SuccessTouchesDestinationsOnly : Prop :=
  ∀ (i : Instr) (s t : State), exec i s = .next t → t.state = .done →
    t.lastop = i.opcode ∧ t.ecode = none ∧ t.errinfo = 0 ∧ t.sticky = s.sticky ∧
    (∀ x, t.valid.get x = if x ∈ dests i then true else s.valid.get x) ∧
    (.freq ∉ dests i → t.freq = s.freq) ∧
    (.tree ∉ dests i → t.tree = s.tree ∧ t.root = s.root ∧ t.nnodes = s.nnodes) ∧
    (.code ∉ dests i → t.code = s.code) ∧
    (.pbits ∉ dests i → t.pbits = s.pbits ∧ t.pbLen = s.pbLen) ∧
    (.out ∉ dests i → t.out = s.out ∧ t.outLen = s.outLen) ∧
    t.inp = s.inp ∧ t.inLen = s.inLen ∧ t.cfg = s.cfg ∧ t.pending = s.pending ∧ t.readData = s.readData

/-- R140 ("Elements NODE[NNODES ..] keep whatever they held"), and the same of OUT (log 6, DEDUCED): a successful
command leaves the elements of TREE and OUT beyond what it delivers. -/
def Obligations.ElementsBeyondTheResultAreKept : Prop :=
  ∀ (i : Instr) (s t : State), s.cfg.wf → exec i s = .next t → t.state = .done →
    (∀ k, t.outLen.toNat ≤ k → t.out.get k = s.out.get k) ∧
    (∀ k, 4 * t.nnodes.toNat ≤ k → t.tree.get k = s.tree.get k)

/-- R32, R35: a command other than HCLR ends in DONE or in ERR, and ECODE is non-zero exactly in ERR. -/
def Obligations.CommandsEndDoneOrErr : Prop :=
  ∀ (i : Instr) (s t : State), exec i s = .next t →
    (i = .hclr → t.state = .idle) ∧ (i ≠ .hclr → t.state = .done ∨ t.state = .err) ∧
    (t.state = .err ↔ t.ecode ≠ none) ∧ (t.ecode = none → t.errinfo = 0)

/-- R75: a command is a function of its sources. Two states that agree on the parameters, on the stores and lengths
the command reads and on their valid bits (and on the model's free value counter) give the same status and the same
destinations: TREE and OUT as far as the lengths say they are meaningful, FREQ, CODE and PBITS whole. Three of these
equalities are the model's and not R75's: after a failure, which leaves the contents unspecified (R252), FREQ, CODE and
PBITS are equal because all their elements lose their values (log 18, DESIGN CHOICE); after a success the bits of the
last PBITS byte from PB_LEN on are equal because the free value counters are (log 5, DESIGN CHOICE), and the bytes of
PBITS above it because they have no value (log 6, DESIGN CHOICE). -/
def Obligations.CommandsDependOnlyOnTheirSources : Prop :=
  ∀ (i : Instr) (s u t : State), u.cfg = s.cfg → u.freeCtr = s.freeCtr →
    (∀ x ∈ needs i, u.valid.get x = s.valid.get x) →
    (readsIn i = true → u.inp = s.inp ∧ u.inLen = s.inLen) →
    (.freq ∈ needs i → u.freq = s.freq) →
    (.tree ∈ needs i → u.tree = s.tree ∧ u.root = s.root ∧ u.nnodes = s.nnodes) →
    (.code ∈ needs i → u.code = s.code) →
    (.pbits ∈ needs i → u.pbits = s.pbits ∧ u.pbLen = s.pbLen) →
    s.cfg.wf → exec i s = .next t →
      ∃ v, exec i u = .next v ∧ v.state = t.state ∧ v.ecode = t.ecode ∧ v.errinfo = t.errinfo ∧
        (∀ x ∈ dests i, v.valid.get x = t.valid.get x) ∧
        (.freq ∈ dests i → v.freq = t.freq) ∧
        (.tree ∈ dests i → v.root = t.root ∧ v.nnodes = t.nnodes ∧
          ∀ k < 4 * t.nnodes.toNat, v.tree.get k = t.tree.get k) ∧
        (.code ∈ dests i → v.code = t.code) ∧
        (.pbits ∈ dests i → v.pbits = t.pbits ∧ v.pbLen = t.pbLen) ∧
        (.out ∈ dests i → v.outLen = t.outLen ∧ ∀ k < t.outLen.toNat, v.out.get k = t.out.get k)

/-! ## HNOP and HCLR -/

/-- R253: HNOP changes STATE, ECODE, ERRINFO and LASTOP, and nothing else. -/
def Obligations.HnopOnlyReportsDone : Prop :=
  encode .hnop = 0x00000000 ∧ ∀ s : State, exec .hnop s =
    .next { s with state := .done, ecode := none, errinfo := 0, lastop := 0x00 }

/-- R254: HCLR ends the session. The contents of the five derived stores are left open, as the rule does. -/
def Obligations.HclrEndsTheSession : Prop :=
  encode .hclr = 0x00000001 ∧ ∀ s : State, ∃ t, exec .hclr s = .next t ∧ statusWord t = 0x01000000 ∧
    t = { s with
      freq := t.freq, tree := t.tree, code := t.code, pbits := t.pbits, out := t.out,
      valid := ⟨false, false, false, false, false⟩, outLen := 0, pbLen := 0, root := 0, nnodes := 0,
      sticky := 0, ecode := none, errinfo := 0, state := .idle, lastop := 0x01 }

/-! ## FCNT -/

/-- R130: FREQ[s] is the number of occurrences of s in the input, and nothing else changes but the flags. An input
above MAX_IN is a CapacityError with info 0, and FCNT reports no other error. -/
def Obligations.FcntCountsEverySymbol : Prop :=
  encode .fcnt = 0x00000010 ∧
  (∀ (s : State) (bytes : List Byte), s.cfg.wf → HasInput s bytes →
    ∃ t, exec .fcnt s = .next t ∧
      FreqHolds t ((List.range 256).map fun k => bytes.count (BitVec.ofNat 8 k)) ∧
      t = { s with
        freq := t.freq, valid := { s.valid with freq := true },
        state := .done, ecode := none, errinfo := 0, lastop := 0x10 }) ∧
  (∀ s : State, s.cfg.maxIn < s.inLen.toNat → FailsWith (exec .fcnt s) .capacity 0) ∧
  ∀ s t : State, exec .fcnt s = .next t → t.state = .err → t.ecode = some .capacity ∧ s.cfg.maxIn < s.inLen.toNat

/-- R131: after FCNT the counts add up to IN_LEN and each fits its CNT_W bits. -/
def Obligations.FcntCountsAreExact : Prop :=
  ∀ s t : State, s.cfg.wf → exec .fcnt s = .next t → t.state = .done →
    s.inLen.toNat ≤ s.cfg.maxIn ∧ s.cfg.maxIn ≤ 2 ^ s.cfg.cntW - 1 ∧
    ∃ counts, FreqHolds t counts ∧ counts.sum = s.inLen.toNat ∧ ∀ n ∈ counts, n ≤ s.inLen.toNat

/-- R132: the empty input gives 256 zero counts without an error, and TBLD then reports it. -/
def Obligations.FcntOfEmptyInput : Prop :=
  ∀ s : State, s.inLen = 0 →
    ∃ t, exec .fcnt s = .next t ∧ t.state = .done ∧ t.valid.freq = true ∧
      (∀ k < 256, t.freq.get k = some 0) ∧ FailsWith (exec .tbld t) .emptyInput 0

/-! ## TBLD -/

/-- R140 to R144: with FREQ valid and some count positive TBLD succeeds, TREE holds the greedy merge with the key
(weight, node number), and nothing else changes but ROOT, NNODES and the flags. -/
def Obligations.TbldMergesGreedily : Prop :=
  ∀ (s : State) (counts : List Nat), s.valid.freq = true → FreqHolds s counts → (∃ n ∈ counts, 0 < n) →
    ∃ t links weights, exec .tbld s = .next t ∧ TreeHolds t links ∧ WeightsHold t weights ∧
      GreedyMerge counts links weights t.root.toNat ∧
      (∀ k, 4 * links.length ≤ k → t.tree.get k = s.tree.get k) ∧
      t = { s with
        tree := t.tree, root := t.root, nnodes := t.nnodes, valid := { s.valid with tree := true },
        state := .done, ecode := none, errinfo := 0, lastop := 0x11 }

/-- R146: no positive count is an EmptyInputError (ECODE 1, STATE ERR in STATUS), and the destination is invalid with
ROOT and NNODES zero. -/
def Obligations.TbldOfEmptyMapping : Prop :=
  ∀ (s : State) (counts : List Nat), s.valid.freq = true → FreqHolds s counts → (∀ n ∈ counts, n = 0) →
    FailsWith (exec .tbld s) .emptyInput 0 ∧
    ∀ t, exec .tbld s = .next t → (statusWord t).extractLsb' 4 4 = 1 ∧ (statusWord t).extractLsb' 0 2 = 3 ∧ t.valid.tree = false ∧ t.root = 0 ∧ t.nnodes = 0 ∧ t.freq = s.freq

/-- R145: one distinct symbol gives a tree of one leaf, and CGEN gives it the code "0". -/
def Obligations.TreeOfOneSymbolGetsCodeZero : Prop :=
  ∀ (s : State) (counts : List Nat) (sym : Byte), s.valid.freq = true → FreqHolds s counts →
    (∀ k < 256, 0 < counts.getD k 0 ↔ k = sym.toNat) →
    ∃ t u, exec .tbld s = .next t ∧ t.state = .done ∧ t.root = 0 ∧ t.nnodes = 1 ∧
      TreeHolds t [.leaf sym] ∧ WeightsHold t [counts.getD sym.toNat 0] ∧
      wfTree [.leaf sym] [counts.getD sym.toNat 0] 0 = true ∧
      exec .cgen t = .next u ∧ u.state = .done ∧ CodeRecordHolds u.code sym.toNat [false]

/-- R148, R149: every tree TBLD builds is well-formed with all six items, its leaves come first with ascending
symbols, children have lower numbers than their parent, merged weights never decrease, and the root weighs the sum
of the counts. -/
def Obligations.TbldBuildsWellFormedTree : Prop :=
  ∀ (s t : State) (counts : List Nat), FreqHolds s counts → exec .tbld s = .next t → t.state = .done →
    ∃ links weights n, TreeHolds t links ∧ WeightsHold t weights ∧ weights.length = links.length ∧
      links.length = 2 * n - 1 ∧ wfTree links weights t.root.toNat = true ∧
      ((leafSyms links).map BitVec.toNat).Pairwise (· < ·) ∧ leafSyms links = leafSyms (links.take n) ∧
      (∀ (k a b : Nat), links[k]? = some (Link.branch a b) → a < k ∧ b < k) ∧
      (∀ j k, n ≤ j → j ≤ k → k < links.length → weights.getD j 0 ≤ weights.getD k 0) ∧
      weights.getD t.root.toNat 0 = counts.sum ∧ counts.sum < 2 ^ 40

/-! ## CGEN -/

/-- R160, R161: with a valid, well-formed tree CGEN succeeds; the code of a symbol is the path to its leaf ("0" for
a root that is a leaf), every other symbol has none; nothing else changes but the flags. Well-formed is items 1 to 5 of
R24: that the tree's weights need not add up is the model's reading (log 3, DEDUCED, unsafe). -/
def Obligations.CgenAssignsLeafPaths : Prop :=
  ∀ (s : State) (links : List Link), HasTree s links →
    ∃ t tbl, exec .cgen s = .next t ∧ CodeHolds t tbl ∧
      (∀ (sym : Byte) (c : BitString), c ≠ [] → (codeOf tbl sym = c ↔ isTreeCode links s.root.toNat c sym)) ∧
      t = { s with
        code := t.code, valid := { s.valid with code := true },
        state := .done, ecode := none, errinfo := 0, lastop := 0x12 }

/-- R162: the table CGEN makes is well-formed, no code is a prefix of the code of another symbol (so codes are unique),
the symbols with a code are the leaf symbols, and Kraft's sum is 1 for two or more leaves and 1/2 for one. -/
def Obligations.CgenMakesCompletePrefixCode : Prop :=
  ∀ s t : State, exec .cgen s = .next t → t.state = .done →
    ∃ links tbl, TreeHolds s links ∧ CodeHolds t tbl ∧ codeShape tbl = true ∧
      (∀ sym : Byte, codeOf tbl sym ≠ [] ↔ sym ∈ leafSyms links) ∧
      (∀ x y : Byte, x ≠ y → codeOf tbl x ≠ [] → codeOf tbl y ≠ [] → ¬ codeOf tbl x <+: codeOf tbl y) ∧
      kraftSum tbl = if (leafSyms links).length = 1 then 2 ^ 254 else 2 ^ 255

/-- R165: no code of a tree with n ≥ 2 leaves is longer than n − 1 bits, so none exceeds 255. -/
def Obligations.CodesAreShorterThanTheLeafCount : Prop :=
  ∀ (s t : State) (links : List Link), exec .cgen s = .next t → t.state = .done → TreeHolds s links →
    ∃ tbl, CodeHolds t tbl ∧ ∀ sym : Byte, (codeOf tbl sym).length ≤ 255 ∧
      (2 ≤ (leafSyms links).length → (codeOf tbl sym).length ≤ (leafSyms links).length - 1)

/-! ## BPACK -/

/-- R175 to R177, R181: BPACK writes the header and the padded codes; nothing else changes but OUT_LEN and the
flags. That the elements of OUT from OUT_LEN on stay is the model's reading (log 6, DEDUCED, unsafe). -/
def Obligations.BpackWritesThePaddedBuffer : Prop :=
  ∀ (s : State) (tbl : List BitString) (bytes : List Byte), s.cfg.wf → HasTable s tbl → HasInput s bytes →
    AllCoded tbl bytes → 2 + (encoded tbl bytes).length / 8 ≤ s.cfg.maxOut →
    ∃ t outb, exec .bpack s = .next t ∧ OutHolds t outb ∧
      outb.length = 2 + (encoded tbl bytes).length / 8 ∧
      bitsOf outb = bits8 (BitVec.ofNat 8 (8 - (encoded tbl bytes).length % 8)) ++ encoded tbl bytes ++
        List.replicate (8 - (encoded tbl bytes).length % 8) false ∧
      (∀ k, outb.length ≤ k → t.out.get k = s.out.get k) ∧
      t = { s with
        out := t.out, outLen := t.outLen, valid := { s.valid with out := true },
        state := .done, ecode := none, errinfo := 0, lastop := 0x13 }

/-- R178: the first symbol without a code is an UnknownSymbolError whose info word is its index. -/
def Obligations.BpackReportsFirstUnknownSymbol : Prop :=
  ∀ (s : State) (tbl : List BitString) (bytes : List Byte) (i : Nat) (x : Byte), HasTable s tbl → HasInput s bytes →
    AllCoded tbl (bytes.take i) → bytes[i]? = some x → codeOf tbl x = [] →
    FailsWith (exec .bpack s) .unknownSymbol (BitVec.ofNat 32 i)

/-- R180: with an empty stream BPACK packs 08 00, and HENC fails before it. -/
def Obligations.BpackOfEmptyStream : Prop :=
  (∀ (s : State) (tbl : List BitString), s.cfg.wf → HasTable s tbl → s.inLen = 0 →
    ∃ t, exec .bpack s = .next t ∧ t.state = .done ∧ OutHolds t [0x08, 0x00]) ∧
  ∀ s : State, s.inLen = 0 → FailsWith (exec .henc s) .emptyInput 0

/-- R179: an output above MAX_OUT is a CapacityError with info 1, and with the default MAX_OUT it never happens. -/
def Obligations.BpackOutputCapacity : Prop :=
  ∀ (s : State) (tbl : List BitString) (bytes : List Byte), HasTable s tbl → HasInput s bytes →
    AllCoded tbl bytes →
    (s.cfg.maxOut < 2 + (encoded tbl bytes).length / 8 → FailsWith (exec .bpack s) .capacity 1) ∧
    (s.cfg.maxOut = 32 * s.cfg.maxIn + 2 → 2 + (encoded tbl bytes).length / 8 ≤ s.cfg.maxOut)

/-! ## BUNPK -/

/-- R190: BUNPK strips the header and the padding; nothing else changes but PB_LEN, the flags and the model's own
free value counter. -/
def Obligations.BunpkStripsHeaderAndPadding : Prop :=
  ∀ (s : State) (bytes : List Byte) (bits : BitString), s.cfg.wf → HasInput s bytes → UnpacksTo bytes bits →
    ∃ t, exec .bunpk s = .next t ∧ PbHolds t bits ∧
      t = { s with
        pbits := t.pbits, pbLen := t.pbLen, freeCtr := t.freeCtr, valid := { s.valid with pbits := true },
        state := .done, ecode := none, errinfo := 0, lastop := 0x14 }

/-- R273, R191, R193: the causes of CorruptPaddingError and its info word, in BUNPK and in both decompressions. HasTree
does not ask that weights add up (log 3, DEDUCED, unsafe). -/
def Obligations.CorruptPaddingIsReported : Prop :=
  ∀ (s : State) (bytes : List Byte) (i : Instr), HasInput s bytes →
    (i = .bunpk ∨ (i = .hdcmpT ∧ ∃ tbl, HasTable s tbl) ∨ (i = .hdcmpR ∧ ∃ links, HasTree s links)) →
    (bytes = [] → FailsWith (exec i s) .corruptPadding 0x100) ∧
    (∀ h rest, bytes = h :: rest → (h = 0 ∨ 8 < h.toNat ∨ 8 * rest.length < h.toNat) →
      FailsWith (exec i s) .corruptPadding (h.setWidth 32))

/-- R192: two buffers that differ in their padding bits only unpack to the same bit string. -/
def Obligations.PaddingBitsAreNotChecked : Prop :=
  ∀ (s u : State) (h : Byte) (xs ys : List Byte), s.cfg.wf → u.cfg.wf → HasInput s (h :: xs) →
    HasInput u (h :: ys) → xs.length = ys.length → 1 ≤ h.toNat → h.toNat ≤ 8 → xs ≠ [] →
    (bitsOf xs).take (8 * xs.length - h.toNat) = (bitsOf ys).take (8 * ys.length - h.toNat) →
    ∃ t v bits, exec .bunpk s = .next t ∧ exec .bunpk u = .next v ∧ t.state = .done ∧ v.state = .done ∧
      PbHolds t bits ∧ PbHolds v bits

/-- R196: unpacking what BPACK wrote gives back the concatenated codes. -/
def Obligations.BunpkInvertsBpack : Prop :=
  ∀ (s t u : State) (tbl : List BitString) (bytes outb : List Byte), s.cfg.wf → u.cfg.wf → CodeHolds s tbl →
    InHolds s bytes → exec .bpack s = .next t → t.state = .done → OutHolds t outb → HasInput u outb →
    ∃ v, exec .bunpk u = .next v ∧ v.state = .done ∧ PbHolds v (encoded tbl bytes)

/-! ## HDEC -/

/-- R205: HDEC.T decodes a concatenation of codes to its symbols; nothing else changes but OUT_LEN and the flags. That
the elements of OUT beyond the sequence stay is the model's reading (log 6, DEDUCED, unsafe). -/
def Obligations.HdecTDecodesCodes : Prop :=
  ∀ (s : State) (tbl : List BitString) (syms : List Byte), s.cfg.wf → HasTable s tbl →
    HasBits s (encoded tbl syms) → AllCoded tbl syms → syms.length ≤ s.cfg.maxOut →
    ∃ t, exec .hdecT s = .next t ∧ OutHolds t syms ∧ (∀ k, syms.length ≤ k → t.out.get k = s.out.get k) ∧
      t = { s with
        out := t.out, outLen := t.outLen, valid := { s.valid with out := true },
        state := .done, ecode := none, errinfo := 0, lastop := 0x15 }

/-- R209, R210: bits that end inside a codeword are an InvalidCodeError at the first bit of that codeword; a symbol
too many is a CapacityError with info 1. -/
def Obligations.HdecTReportsTheIncompleteCode : Prop :=
  ∀ (s : State) (tbl : List BitString) (syms : List Byte) (rest : BitString), HasTable s tbl →
    HasBits s (encoded tbl syms ++ rest) → AllCoded tbl syms →
    (syms.length ≤ s.cfg.maxOut → rest ≠ [] → (∀ x, codeOf tbl x ≠ [] → ¬ codeOf tbl x <+: rest) →
      FailsWith (exec .hdecT s) .invalidCode (BitVec.ofNat 32 (encoded tbl syms).length)) ∧
    (syms.length = s.cfg.maxOut + 1 → FailsWith (exec .hdecT s) .capacity 1)

/-- R206, R207: HDEC.R decodes a concatenation of leaf paths (zeros under a root that is a leaf) to the leaves'
symbols; nothing else changes but OUT_LEN and the flags. That the elements of OUT beyond the sequence stay is the
model's reading (log 6, DEDUCED, unsafe), and so is that the tree's weights need not add up (log 3, DEDUCED, unsafe). -/
def Obligations.HdecRDecodesLeafPaths : Prop :=
  ∀ (s : State) (links : List Link) (parts : List (BitString × Byte)), s.cfg.wf → HasTree s links →
    HasBits s (parts.flatMap Prod.fst) → (∀ p ∈ parts, isTreeCode links s.root.toNat p.1 p.2) →
    parts.length ≤ s.cfg.maxOut →
    ∃ t, exec .hdecR s = .next t ∧ OutHolds t (parts.map Prod.snd) ∧
      (∀ k, parts.length ≤ k → t.out.get k = s.out.get k) ∧
      t = { s with
        out := t.out, outLen := t.outLen, valid := { s.valid with out := true },
        state := .done, ecode := none, errinfo := 0, lastop := 0x15 }

/-- R209, R207, R210: under the tree strategy, bits that end inside a path are an InvalidCodeError at the first bit of
that path; under a root that is a leaf the first 1 bit is one, at its index; a symbol too many is a CapacityError with
info 1, whatever bits follow. That the tree's weights need not add up is the model's reading (log 3, DEDUCED,
unsafe). -/
def Obligations.HdecRReportsTheIncompletePath : Prop :=
  ∀ (s : State) (links : List Link) (parts : List (BitString × Byte)) (rest : BitString), HasTree s links →
    HasBits s (parts.flatMap Prod.fst ++ rest) → (∀ p ∈ parts, isTreeCode links s.root.toNat p.1 p.2) →
    (parts.length ≤ s.cfg.maxOut → rest ≠ [] → (∀ c x, isTreeCode links s.root.toNat c x → ¬ c <+: rest) →
      FailsWith (exec .hdecR s) .invalidCode (BitVec.ofNat 32 (parts.flatMap Prod.fst).length)) ∧
    (parts.length = s.cfg.maxOut + 1 → FailsWith (exec .hdecR s) .capacity 1)

/-- R214: an empty bit string decodes to the empty sequence, by both strategies. That the weights of HDEC.R's tree need
not add up is the model's reading (log 3, DEDUCED, unsafe). -/
def Obligations.HdecOfEmptyBits : Prop :=
  (∀ (s : State) (tbl : List BitString), HasTable s tbl → s.valid.pbits = true → s.pbLen = 0 →
    ∃ t, exec .hdecT s = .next t ∧ t.state = .done ∧ t.valid.out = true ∧ t.outLen = 0) ∧
  (∀ (s : State) (links : List Link), HasTree s links → s.valid.pbits = true → s.pbLen = 0 →
    ∃ t, exec .hdecR s = .next t ∧ t.state = .done ∧ t.valid.out = true ∧ t.outLen = 0)

/-- R208: with the table CGEN derives from the tree, both strategies end alike on every content of PBITS, errors
included, a PBITS that is not valid or too long too. -/
def Obligations.StrategiesAgree : Prop :=
  ∀ (s0 s : State) (bits : BitString), s0.cfg.wf → exec .cgen s0 = .next s → s.state = .done → PbHolds s bits →
    ∃ t u, exec .hdecT s = .next t ∧ exec .hdecR s = .next u ∧ t.state = u.state ∧ t.ecode = u.ecode ∧
      t.errinfo = u.errinfo ∧ t.outLen = u.outLen ∧ ∀ k < t.outLen.toNat, t.out.get k = u.out.get k

/-! ## HDCMP -/

/-- R211: HDCMP.T unpacks and decodes a buffer of codes; nothing else changes but PB_LEN, OUT_LEN, the flags and the
model's own free value counter. That the elements of OUT beyond the sequence stay is the model's reading (log 6,
DEDUCED, unsafe). -/
def Obligations.HdcmpTDecodesTheBuffer : Prop :=
  ∀ (s : State) (tbl : List BitString) (bytes syms : List Byte), s.cfg.wf → HasTable s tbl → HasInput s bytes →
    UnpacksTo bytes (encoded tbl syms) → AllCoded tbl syms → syms.length ≤ s.cfg.maxOut →
    ∃ t, exec .hdcmpT s = .next t ∧ PbHolds t (encoded tbl syms) ∧ OutHolds t syms ∧
      (∀ k, syms.length ≤ k → t.out.get k = s.out.get k) ∧
      t = { s with
        pbits := t.pbits, pbLen := t.pbLen, freeCtr := t.freeCtr, out := t.out, outLen := t.outLen,
        valid := { s.valid with pbits := true, out := true },
        state := .done, ecode := none, errinfo := 0, lastop := 0x21 }

/-- R212: HDCMP.R unpacks and decodes a buffer of leaf paths; nothing else changes but PB_LEN, OUT_LEN, the flags and
the model's own free value counter. That the elements of OUT beyond the sequence stay is the model's reading (log 6,
DEDUCED, unsafe), and so is that the tree's weights need not add up (log 3, DEDUCED, unsafe). -/
def Obligations.HdcmpRDecodesTheBuffer : Prop :=
  ∀ (s : State) (links : List Link) (bytes : List Byte) (parts : List (BitString × Byte)), s.cfg.wf →
    HasTree s links → HasInput s bytes → UnpacksTo bytes (parts.flatMap Prod.fst) →
    (∀ p ∈ parts, isTreeCode links s.root.toNat p.1 p.2) → parts.length ≤ s.cfg.maxOut →
    ∃ t, exec .hdcmpR s = .next t ∧ PbHolds t (parts.flatMap Prod.fst) ∧ OutHolds t (parts.map Prod.snd) ∧
      (∀ k, parts.length ≤ k → t.out.get k = s.out.get k) ∧
      t = { s with
        pbits := t.pbits, pbLen := t.pbLen, freeCtr := t.freeCtr, out := t.out, outLen := t.outLen,
        valid := { s.valid with pbits := true, out := true },
        state := .done, ecode := none, errinfo := 0, lastop := 0x21 }

/-- R216, for both strategies: `d` is HDEC.x and `h` is HDCMP.x. A failing BUNPK is compared where HDCMP.x has its
table or tree. HasTree does not ask that weights add up (log 3, DEDUCED, unsafe). That PBITS agrees from PB_LEN on too
is the model's free value and missing values (logs 5 and 6, DESIGN CHOICE), and that OUT agrees from OUT_LEN on too is
the model's reading (log 6, DEDUCED, unsafe). -/
def Obligations.HdcmpIsBunpkThenHdec : Prop :=
  ∀ (d h : Instr) (s t : State), s.cfg.wf → (d = .hdecT ∧ h = .hdcmpT) ∨ (d = .hdecR ∧ h = .hdcmpR) →
    exec .bunpk s = .next t →
    (t.state = .done → ∀ u, exec d t = .next u →
      (u.state = .done → ∃ v, exec h s = .next v ∧ v.state = .done ∧ v.pbits = u.pbits ∧ v.pbLen = u.pbLen ∧
        v.out = u.out ∧ v.outLen = u.outLen) ∧
      (u.state = .err → ∃ v, exec h s = .next v ∧ v.state = .err ∧ v.ecode = u.ecode ∧ v.errinfo = u.errinfo ∧
        v.valid.pbits = false)) ∧
    (t.state = .err →
      ((∃ tbl, d = .hdecT ∧ HasTable s tbl) ∨ (∃ links, d = .hdecR ∧ HasTree s links)) →
      ∃ v, exec h s = .next v ∧ v.state = .err ∧ v.ecode = t.ecode ∧ v.errinfo = t.errinfo)

/-! ## HENC -/

/-- R230, R232, R235: on an input of at least one byte HENC succeeds when MAX_OUT is at least its default: OUT holds
the header and the padded codes of the input, of the size R235 says; nothing else changes but the registers of its
destinations and the flags. -/
def Obligations.HencCompresses : Prop :=
  ∀ (s : State) (bytes : List Byte), s.cfg.wf → HasInput s bytes → bytes ≠ [] →
    32 * s.cfg.maxIn + 2 ≤ s.cfg.maxOut →
    ∃ t tbl outb, exec .henc s = .next t ∧
      FreqHolds t ((List.range 256).map fun k => bytes.count (BitVec.ofNat 8 k)) ∧
      CodeHolds t tbl ∧ codeShape tbl = true ∧ AllCoded tbl bytes ∧ OutHolds t outb ∧
      bitsOf outb = bits8 (BitVec.ofNat 8 (8 - (encoded tbl bytes).length % 8)) ++ encoded tbl bytes ++
        List.replicate (8 - (encoded tbl bytes).length % 8) false ∧
      outb.length = 2 + ((List.range 256).map fun k =>
        bytes.count (BitVec.ofNat 8 k) * (codeOf tbl (BitVec.ofNat 8 k)).length).sum / 8 ∧
      t = { s with
        freq := t.freq, tree := t.tree, root := t.root, nnodes := t.nnodes, code := t.code, out := t.out,
        outLen := t.outLen, valid := { s.valid with freq := true, tree := true, code := true, out := true },
        state := .done, ecode := none, errinfo := 0, lastop := 0x20 }

/-- R231: HENC is FCNT, TBLD, CGEN, BPACK in sequence. When all four end in DONE the states differ in LASTOP only;
when one fails HENC fails with the same ECODE and ERRINFO. CGEN does not fail here: TBLD's tree is well-formed. -/
def Obligations.HencIsThePipeline : Prop :=
  ∀ s a : State, s.cfg.wf → exec .fcnt s = .next a →
    (a.state = .err → FailsLike (exec .henc s) a
      { s.valid with freq := false, tree := false, code := false, out := false }) ∧
    (a.state = .done → ∀ b, exec .tbld a = .next b →
      (b.state = .err → b.valid.freq = true ∧ FailsLike (exec .henc s) b
        { s.valid with freq := false, tree := false, code := false, out := false }) ∧
      (b.state = .done → ∃ c, exec .cgen b = .next c ∧ c.state = .done ∧ ∀ d, exec .bpack c = .next d →
        (d.state = .err → d.valid.freq = true ∧ d.valid.tree = true ∧ d.valid.code = true ∧
          FailsLike (exec .henc s) d
            { s.valid with freq := false, tree := false, code := false, out := false }) ∧
        (d.state = .done → exec .henc s = .next { d with lastop := 0x20 })))

/-- R234: HENC of an empty input is an EmptyInputError with OUT_LEN 0 and no valid destination; HDCMP of a
zero-length buffer, with its table or tree, is an error, the CorruptPaddingError of R193. HasTree does not ask that
weights add up (log 3, DEDUCED, unsafe). -/
def Obligations.HencOfEmptyInput : Prop :=
  (∀ s : State, s.inLen = 0 →
    ∃ t, exec .henc s = .next t ∧ t.state = .err ∧ t.ecode = some .emptyInput ∧ t.errinfo = 0 ∧ t.outLen = 0 ∧
      t.root = 0 ∧ t.nnodes = 0 ∧ t.sticky = s.sticky ||| 0b0000001 ∧
      t.valid = { s.valid with freq := false, tree := false, code := false, out := false }) ∧
  (∀ (s : State) (tbl : List BitString), HasTable s tbl → s.inLen = 0 →
    FailsWith (exec .hdcmpT s) .corruptPadding 0x100) ∧
  (∀ (s : State) (links : List Link), HasTree s links → s.inLen = 0 →
    FailsWith (exec .hdcmpR s) .corruptPadding 0x100)

/-- R233, the round-trip law: HENC, then the output copied back to IN, then HDCMP.T or HDCMP.R with CODE and TREE as
HENC left them, gives the input back. MAX_OUT is at least its default (R232). -/
def Obligations.RoundTripLaw : Prop :=
  ∀ (s : State) (bytes : List Byte), s.cfg.wf → HasInput s bytes → bytes ≠ [] →
    32 * s.cfg.maxIn + 2 ≤ s.cfg.maxOut →
    ∃ t, exec .henc s = .next t ∧ t.state = .done ∧
      ∀ (outb : List Byte) (m : Memory 8) (n : Word), OutHolds t outb →
        HasInput { t with inp := m, inLen := n } outb →
        (∃ u, exec .hdcmpT { t with inp := m, inLen := n } = .next u ∧ u.state = .done ∧ OutHolds u bytes) ∧
        (∃ u, exec .hdcmpR { t with inp := m, inLen := n } = .next u ∧ u.state = .done ∧ OutHolds u bytes)

/-! ## The host's side -/

/-- R70: a host read changes nothing of the block; only the host's own variable takes the value (log 9). -/
def Obligations.HostReadsChangeNothing : Prop :=
  ∀ (s t : State) (sp : Space) (idx n : Nat), perform (.read sp idx n) s = .next t →
    t = { s with readData := spaceRead s sp idx }

/-- R33, R35, R42: what each register reads as, STATUS field by field. -/
def Obligations.RegistersReadTheirValues : Prop :=
  ∀ s : State,
    (∀ k ∈ [0, 8, 9], regRead s k = 0) ∧ (∀ k, 12 ≤ k → regRead s k = 0) ∧
    regRead s 2 = s.errinfo ∧ regRead s 3 = s.inLen ∧ regRead s 4 = s.outLen ∧ regRead s 5 = s.pbLen ∧
    regRead s 6 = s.root ∧ regRead s 7 = s.nnodes ∧
    (s.cfg.wf → (regRead s 10).toNat = s.cfg.maxIn ∧ (regRead s 11).toNat = s.cfg.maxOut) ∧
    (regRead s 1).extractLsb' 0 2 = s.state.code ∧ (regRead s 1).extractLsb' 2 2 = 0 ∧
    (regRead s 1).extractLsb' 4 4 = ecodeBits s.ecode ∧
    (regRead s 1).getLsbD 8 = s.valid.freq ∧ (regRead s 1).getLsbD 9 = s.valid.tree ∧
    (regRead s 1).getLsbD 10 = s.valid.code ∧ (regRead s 1).getLsbD 11 = s.valid.pbits ∧
    (regRead s 1).getLsbD 12 = s.valid.out ∧ (regRead s 1).extractLsb' 13 4 = 0 ∧
    (regRead s 1).extractLsb' 17 7 = s.sticky ∧ (regRead s 1).extractLsb' 24 8 = s.lastop

/-- R33, R37 to R41, R30: what a host write to each register other than CMD does. -/
def Obligations.RegisterWritesFollowTheMap : Prop :=
  ∀ (s : State) (v : Word), s.state ≠ .busy →
    (∀ k ∈ [1, 2, 4, 10, 11], perform (.write .reg k 32 v) s = .next s) ∧
    (∀ k, 12 ≤ k → perform (.write .reg k 32 v) s = .next s) ∧
    perform (.write .reg 3 32 v) s = .next { s with inLen := v } ∧
    perform (.write .reg 5 32 v) s = .next { s with pbLen := v, valid := { s.valid with pbits := false } } ∧
    perform (.write .reg 6 32 v) s = .next { s with root := v, valid := { s.valid with tree := false } } ∧
    perform (.write .reg 7 32 v) s = .next { s with nnodes := v, valid := { s.valid with tree := false } } ∧
    perform (.write .reg 8 32 v) s = .next { s with valid :=
      ⟨s.valid.freq || v.getLsbD 8, s.valid.tree || v.getLsbD 9, s.valid.code || v.getLsbD 10,
        s.valid.pbits || v.getLsbD 11, s.valid.out⟩ } ∧
    perform (.write .reg 9 32 v) s = .next { s with valid :=
      ⟨s.valid.freq && !v.getLsbD 8, s.valid.tree && !v.getLsbD 9, s.valid.code && !v.getLsbD 10,
        s.valid.pbits && !v.getLsbD 11, s.valid.out && !v.getLsbD 12⟩ }

/-- R62, R68, R100, R101: an element the host has written reads back as written, reserved bits and words as 0 (with
CNT_W = 32; log 7 says what a smaller CNT_W reserves). That code bits at positions from len on (log 12, DEDUCED, unsafe)
and the fields a node record does not use (log 13, DEDUCED, unsafe) read back as the host wrote them is the model's
reading; R25, R100 and R101 give them as 0. -/
def Obligations.WrittenElementsReadBack : Prop :=
  ∀ (s t : State) (sp : Space) (idx : Nat) (v : Word), s.cfg.cntW = 32 → sp ≠ .reg → sp ≠ .out →
    perform (.write sp idx sp.width (v.setWidth sp.width)) s = .next t →
    spaceRead t sp idx = match sp with
      | .reg => none
      | .out => none
      | .inp => some (.byte (v.setWidth 8))
      | .pbits => some (.byte (v.setWidth 8))
      | .freq => some (.word v)
      | .tree =>
        if idx % 4 = 0 then some (.word (v &&& 0x0000FF01))
        else if idx % 4 = 1 then some (.word v)
        else if idx % 4 = 2 then some (.word (v &&& 0x000000FF))
        else some (.word (v &&& 0x01FF01FF))
      | .code =>
        if 9 ≤ idx % 16 then some (.word 0)
        else if idx % 16 = 0 then some (.word (v &&& 0x000000FF))
        else some (.word v)

/-- R62, R30, R316: a host write to a store changes one element of that store and clears its valid bit, and nothing
else; a write to OUT changes nothing. -/
def Obligations.HostWriteTouchesOneElement : Prop :=
  ∀ (s : State) (b : Byte) (v : Word), s.state ≠ .busy →
    (∀ idx < s.cfg.maxIn, ∃ t, perform (.write .inp idx 8 b) s = .next t ∧ t = { s with inp := t.inp } ∧
      ∀ k, k ≠ idx → t.inp.get k = s.inp.get k) ∧
    (∀ idx < s.cfg.maxOut, perform (.write .out idx 8 b) s = .next s) ∧
    (∀ idx < 256, ∃ t, perform (.write .freq idx 32 v) s = .next t ∧
      t = { s with freq := t.freq, valid := { s.valid with freq := false } } ∧
      ∀ k, k ≠ idx → t.freq.get k = s.freq.get k) ∧
    (∀ idx < 2044, ∃ t, perform (.write .tree idx 32 v) s = .next t ∧
      t = { s with tree := t.tree, valid := { s.valid with tree := false } } ∧
      ∀ k, k ≠ idx → t.tree.get k = s.tree.get k) ∧
    (∀ idx < 4096, ∃ t, perform (.write .code idx 32 v) s = .next t ∧
      t = { s with code := t.code, valid := { s.valid with code := false } } ∧
      ∀ k, k ≠ idx → t.code.get k = s.code.get k) ∧
    (∀ idx < s.cfg.maxIn, ∃ t, perform (.write .pbits idx 8 b) s = .next t ∧
      t = { s with pbits := t.pbits, valid := { s.valid with pbits := false } } ∧
      ∀ k, k ≠ idx → t.pbits.get k = s.pbits.get k)

/-- R68, U5 and R78, U4 (log 1, 11): an access of the wrong width or outside its space, and a read of an element
without a value, stop the machine; every other read answers. -/
def Obligations.OnlyDefinedReadsAnswer : Prop :=
  ∀ (s : State) (sp : Space) (idx n : Nat), s.state ≠ .busy →
    (n ≠ sp.width ∨ sp.inRange s.cfg idx = false →
      perform (.read sp idx n) s = .fault .undefinedAccess ∧
      ∀ v : BitVec n, perform (.write sp idx n v) s = .fault .undefinedAccess) ∧
    (n = sp.width → sp.inRange s.cfg idx = true →
      (spaceRead s sp idx = none → perform (.read sp idx n) s = .fault .unwrittenElement) ∧
      ∀ e, spaceRead s sp idx = some e → perform (.read sp idx n) s = .next { s with readData := some e })

/-! ## Stops -/

/-- U1, R319, the model's choice of log 2: past the checks of R250, a command is refused when its tree, declared valid,
breaks one of the items 1 to 5 of R24 or NNODES is no count of records (R40), whatever TREE holds, and when its table,
declared valid, breaks R27. A tree that breaks item 6 only, the weights, is not refused (log 3, DEDUCED, unsafe). -/
def Obligations.IllFormedStoresAreRefused : Prop :=
  (∀ (i : Instr) (s : State) (links : List Link), i ∈ [Instr.cgen, .hdecR, .hdcmpR] →
    (∀ x ∈ needs i, s.valid.get x = true) → (readsIn i = true → s.inLen.toNat ≤ s.cfg.maxIn) →
    (readsPbits i = true → s.pbLen.toNat ≤ s.cfg.maxPb) → TreeHolds s links →
    treeShape links s.root.toNat = false → exec i s = .refused .treeNotWellFormed) ∧
  (∀ (i : Instr) (s : State), i ∈ [Instr.cgen, .hdecR, .hdcmpR] →
    (∀ x ∈ needs i, s.valid.get x = true) → (readsIn i = true → s.inLen.toNat ≤ s.cfg.maxIn) →
    (readsPbits i = true → s.pbLen.toNat ≤ s.cfg.maxPb) → (s.nnodes.toNat = 0 ∨ 511 < s.nnodes.toNat) →
    exec i s = .refused .treeNotWellFormed) ∧
  (∀ (i : Instr) (s : State) (tbl : List BitString), i ∈ [Instr.bpack, .hdecT, .hdcmpT] →
    (∀ x ∈ needs i, s.valid.get x = true) → (readsIn i = true → s.inLen.toNat ≤ s.cfg.maxIn) →
    (readsPbits i = true → s.pbLen.toNat ≤ s.cfg.maxPb) → CodeHolds s tbl →
    codeShape tbl = false → exec i s = .refused .codeNotWellFormed)

/-- U4, R78 (log 1): FCNT and HENC on an input with a byte nothing has written stop with a fault. -/
def Obligations.UnwrittenInputStopsTheCount : Prop :=
  ∀ (s : State) (i : Instr) (k : Nat), i ∈ [Instr.fcnt, .henc] → s.inLen.toNat ≤ s.cfg.maxIn →
    k < s.inLen.toNat → s.inp.get k = none → exec i s = .fault .unwrittenElement

/-! ## Invariants -/

/-- Every step keeps the invariant of the block: parameters, canonical stores, reserved bits, a consistent STATUS, a
complete OUT. Two parts are the model's reading: the bounds Config.wf adds to R8 and, for CNT_W below 32, which bits of a
count and of a weight are reserved (log 7, DEDUCED, unsafe); and that no step leaves BUSY (log 10, DESIGN CHOICE,
unsafe). -/
def Obligations.EveryStepKeepsTheInvariant : Prop :=
  ∀ s t : State, s.Inv → step s = .next t → t.Inv

/-- The invariant holds at reset; the bounds Config.wf adds to R8 are the model's reading (log 7, DEDUCED, unsafe). -/
def Obligations.ResetMeetsTheInvariant : Prop := State.reset.Inv

/-- R45, R310: the values reset leaves, and that the host's reset gives them in every state, whatever the block was
doing, with the default parameters of R7 in the reset state, the parameters kept (R46), and the model's own fields
pending, readData and freeCtr kept (the model's choice, log 14). -/
def Obligations.ResetLeavesTheStatedValues : Prop :=
  State.reset.cfg = ⟨32, 65536, 2097154⟩ ∧
  ∀ s : State, ∃ t, perform .reset s = .next t ∧ statusWord t = 0 ∧ t.errinfo = 0 ∧ t.inLen = 0 ∧ t.outLen = 0 ∧
    t.pbLen = 0 ∧ t.root = 0 ∧ t.nnodes = 0 ∧ t.cfg = s.cfg ∧ t.pending = s.pending ∧
    t.readData = s.readData ∧ t.freeCtr = s.freeCtr ∧ (s = State.reset → t = State.reset) ∧
    regRead t 10 = BitVec.ofNat 32 s.cfg.maxIn ∧ regRead t 11 = BitVec.ofNat 32 s.cfg.maxOut

/-- R46: no command, no host access and no reset changes the parameters, two of which CAP_IN and CAP_OUT show. -/
def Obligations.NoStepChangesTheParameters : Prop :=
  (∀ s t : State, step s = .next t → t.cfg = s.cfg) ∧ (∀ s : State, (hostReset s).cfg = s.cfg) ∧
  ∀ s : State, s.cfg.wf → (regRead s 10).toNat = s.cfg.maxIn ∧ (regRead s 11).toNat = s.cfg.maxOut

/-- R43: a failing command sets the sticky bit of its error, STATUS bit 16 + e; only HCLR and reset clear sticky
bits, and they clear all seven. -/
def Obligations.StickyBitsStayUntilCleared : Prop :=
  ∀ s t : State, step s = .next t →
    (s.sticky &&& t.sticky = s.sticky ∨
      (∃ rest, s.pending = .reset :: rest) ∨ (∃ rest, s.pending = .write .reg 0 32 (encode .hclr) :: rest)) ∧
    (∀ rest, s.pending = .reset :: rest → t.sticky = 0) ∧
    (∀ rest, s.pending = .write .reg 0 32 (encode .hclr) :: rest → t.sticky = 0) ∧
    ∀ w rest e, s.pending = .write .reg 0 32 w :: rest → t.ecode = some e →
      (statusWord t).getLsbD (16 + e.code.toNat) = true
end

