-- ==== Sys2Proof/Laws/Bits.lean ====
section
/-! SUPPORT. Laws of the bit order: bytes to bits and back (R10, R64). -/

namespace Sys2Proof.Machine

@[simp] theorem bits8_length (v : Byte) : (bits8 v).length = 8 := rfl

/-- `byte8(bits8(v)) = v` (R10). -/
@[simp] theorem byte8_bits8 (v : Byte) : byte8 (bits8 v) = v := by
  revert v; decide

/-- Bit j of `bits8(v)` is bit 7 − j of v. -/
theorem bits8_getElem? (v : Byte) {j : Nat} (h : j < 8) : (bits8 v)[j]? = some (v.getLsbD (7 - j)) := by
  interval_cases j <;> rfl

theorem bits8_byte8_cons (a b c d e f g h : Bool) :
    bits8 (byte8 [a, b, c, d, e, f, g, h]) = [a, b, c, d, e, f, g, h] := by
  revert a b c d e f g h; decide

/-- `bits8(byte8(b)) = b` for an 8-bit string (R10). -/
theorem bits8_byte8 {b : BitString} (h : b.length = 8) : bits8 (byte8 b) = b := by
  match b, h with
  | [a, b, c, d, e, f, g, h], _ => exact bits8_byte8_cons a b c d e f g h

@[simp] theorem bitsOf_nil : bitsOf [] = [] := rfl

@[simp] theorem bitsOf_cons (v : Byte) (vs : List Byte) : bitsOf (v :: vs) = bits8 v ++ bitsOf vs := rfl

@[simp] theorem bitsOf_length (vs : List Byte) : (bitsOf vs).length = 8 * vs.length := by
  induction vs with
  | nil => rfl
  | cons v vs ih => simp [ih]; omega

/-- Bit j of `bitsof(B)` is bit 7 − (j mod 8) of byte j div 8 (R64). -/
theorem bitsOf_getElem? (vs : List Byte) (j : Nat) :
    (bitsOf vs)[j]? = (vs[j / 8]?).map fun v => v.getLsbD (7 - j % 8) := by
  induction vs generalizing j with
  | nil => simp
  | cons v vs ih =>
    rw [bitsOf_cons]
    by_cases h : j < 8
    · rw [List.getElem?_append_left (by simpa using h), bits8_getElem? v h]
      simp [Nat.div_eq_of_lt h, Nat.mod_eq_of_lt h]
    · rw [List.getElem?_append_right (by simp; omega), bits8_length, ih]
      have h1 : j / 8 = (j - 8) / 8 + 1 := by omega
      have h2 : j % 8 = (j - 8) % 8 := by omega
      rw [h1, h2]
      simp

@[simp] theorem packBytes_length (b : BitString) : (packBytes b).length = b.length / 8 := by simp [packBytes]

theorem packBytes_append8 {a : BitString} (ha : a.length = 8) (b : BitString) :
    packBytes (a ++ b) = byte8 a :: packBytes b := by
  have hl : (a ++ b).length / 8 = b.length / 8 + 1 := by simp [ha]
  simp only [packBytes, hl, List.range_succ_eq_map, List.map_cons, List.map_map]
  congr 1
  · simp [ha]
  · apply List.map_congr_left
    intro j _
    simp only [Function.comp_apply]
    congr 1
    rw [show 8 * (j + 1) = a.length + 8 * j by omega, List.drop_append, List.drop_of_length_le (by omega)]
    simp

/-- Packing a string of a whole number of bytes keeps every bit (R97). -/
theorem bitsOf_packBytes {b : BitString} (h : b.length % 8 = 0) : bitsOf (packBytes b) = b := by
  obtain ⟨n, hn⟩ : ∃ n, b.length = 8 * n := ⟨b.length / 8, by omega⟩
  clear h
  induction n generalizing b with
  | zero => simp [List.length_eq_zero_iff.1 hn, packBytes]
  | succ n ih =>
    have h8 : (b.take 8).length = 8 := by simp; omega
    have hd : (b.drop 8).length = 8 * n := by simp; omega
    rw [← List.take_append_drop 8 b, packBytes_append8 h8, bitsOf_cons, bits8_byte8 h8, ih hd]

/-- Unpacking bytes and packing them again gives the bytes. -/
@[simp] theorem packBytes_bitsOf (vs : List Byte) : packBytes (bitsOf vs) = vs := by
  induction vs with
  | nil => rfl
  | cons v vs ih => rw [bitsOf_cons, packBytes_append8 (bits8_length v), byte8_bits8, ih]

theorem padLength_pos (l : Nat) : 1 ≤ padLength l := by unfold padLength; omega

theorem padLength_le (l : Nat) : padLength l ≤ 8 := by unfold padLength; omega

/-- The padding reaches a byte boundary (R176). -/
theorem padLength_aligns (l : Nat) : (l + padLength l) % 8 = 0 := by unfold padLength; omega

/-- The number of payload bytes (R177). -/
theorem padded_bytes (l : Nat) : (l + padLength l) / 8 = l / 8 + 1 := by unfold padLength; omega

theorem wordBits_getElem? (w : Word) {i : Nat} (h : i < 32) : (wordBits w)[i]? = some (w.getLsbD (31 - i)) := by
  simp [wordBits, h]

@[simp] theorem wordBits_length (w : Word) : (wordBits w).length = 32 := by simp [wordBits]

theorem foldl_natOfBits (b : BitString) (n : Nat) :
    b.foldl (fun n x => 2 * n + x.toNat) n = n * 2 ^ b.length + natOfBits b := by
  induction b generalizing n with
  | nil => simp [natOfBits]
  | cons x b ih =>
    simp only [natOfBits, List.foldl_cons, List.length_cons]
    rw [ih, ih (2 * 0 + x.toNat)]
    ring

@[simp] theorem natOfBits_nil : natOfBits [] = 0 := rfl

theorem natOfBits_cons (x : Bool) (b : BitString) : natOfBits (x :: b) = x.toNat * 2 ^ b.length + natOfBits b := by
  have := foldl_natOfBits b (2 * 0 + x.toNat)
  simpa [natOfBits] using this

theorem natOfBits_lt (b : BitString) : natOfBits b < 2 ^ b.length := by
  induction b with
  | nil => simp
  | cons x b ih =>
    rw [natOfBits_cons, List.length_cons, pow_succ]
    cases x <;> simp <;> omega

/-- Bit i of a string, counted from the left, is bit `length − 1 − i` of its number. -/
theorem natOfBits_testBit (b : BitString) {i : Nat} (h : i < b.length) :
    (natOfBits b).testBit (b.length - 1 - i) = b[i] := by
  induction b generalizing i with
  | nil => simp at h
  | cons x b ih =>
    rw [natOfBits_cons]
    have hlt := natOfBits_lt b
    cases i with
    | zero =>
      rw [show x.toNat * 2 ^ b.length + natOfBits b = 2 ^ b.length * x.toNat + natOfBits b by ring,
        Nat.testBit_two_pow_mul_add _ hlt]
      cases x <;> simp
    | succ i =>
      simp only [List.length_cons] at h
      rw [show x.toNat * 2 ^ b.length + natOfBits b = 2 ^ b.length * x.toNat + natOfBits b by ring,
        Nat.testBit_two_pow_mul_add _ hlt]
      have h1 : (x :: b).length - 1 - (i + 1) = b.length - 1 - i := by simp; omega
      rw [h1, if_pos (by omega), ih (by omega)]
      simp

/-- Bit i of a code chunk stands at bit 31 − i of its word (R101). -/
theorem wordOfBits_getLsbD {b : BitString} (hb : b.length ≤ 32) {i : Nat} (h : i < b.length) :
    (wordOfBits b).getLsbD (31 - i) = b[i] := by
  have h1 : 31 - i < 32 := by omega
  simp only [wordOfBits, BitVec.getLsbD_ofNat, h1, decide_true, Bool.true_and]
  rw [Nat.testBit_mul_two_pow, ← natOfBits_testBit b h]
  have h2 : 32 - b.length ≤ 31 - i := by omega
  have h3 : 31 - i - (32 - b.length) = b.length - 1 - i := by omega
  simp [h2, h3]

end Sys2Proof.Machine
end

