-- ==== Sys2Proof/Laws/State.lean ====
section
/-! SUPPORT. Small laws of the shared state updates: one lemma per field per update. -/

namespace Sys2Proof.Machine

/-! ## The valid bits -/

@[simp] theorem Valid.get_set_same (v : Valid) (x : DerivedStore) (b : Bool) : (v.set x b).get x = b := by
  cases x <;> rfl

theorem Valid.get_set_other (v : Valid) {x y : DerivedStore} (b : Bool) (h : y ≠ x) : (v.set x b).get y = v.get y := by
  cases x <;> cases y <;> first | rfl | exact absurd rfl h

theorem Valid.get_set (v : Valid) (x y : DerivedStore) (b : Bool) :
    (v.set x b).get y = if y = x then b else v.get y := by
  cases x <;> cases y <;> rfl

/-- Five bits are equal when each is. -/
theorem Valid.ext_get {v u : Valid} (h : ∀ x, v.get x = u.get x) : v = u := by
  have h1 := h .freq
  have h2 := h .tree
  have h3 := h .code
  have h4 := h .pbits
  have h5 := h .out
  cases v
  cases u
  simp_all [Valid.get]

/-! ## One destination -/
@[simp] theorem validate_cfg (s : State) (x : DerivedStore) : (validate s x).cfg = s.cfg := rfl
@[simp] theorem validate_inp (s : State) (x : DerivedStore) : (validate s x).inp = s.inp := rfl
@[simp] theorem validate_freq (s : State) (x : DerivedStore) : (validate s x).freq = s.freq := rfl
@[simp] theorem validate_tree (s : State) (x : DerivedStore) : (validate s x).tree = s.tree := rfl
@[simp] theorem validate_code (s : State) (x : DerivedStore) : (validate s x).code = s.code := rfl
@[simp] theorem validate_pbits (s : State) (x : DerivedStore) : (validate s x).pbits = s.pbits := rfl
@[simp] theorem validate_out (s : State) (x : DerivedStore) : (validate s x).out = s.out := rfl
@[simp] theorem validate_state (s : State) (x : DerivedStore) : (validate s x).state = s.state := rfl
@[simp] theorem validate_ecode (s : State) (x : DerivedStore) : (validate s x).ecode = s.ecode := rfl
@[simp] theorem validate_sticky (s : State) (x : DerivedStore) : (validate s x).sticky = s.sticky := rfl
@[simp] theorem validate_lastop (s : State) (x : DerivedStore) : (validate s x).lastop = s.lastop := rfl
@[simp] theorem validate_errinfo (s : State) (x : DerivedStore) : (validate s x).errinfo = s.errinfo := rfl
@[simp] theorem validate_inLen (s : State) (x : DerivedStore) : (validate s x).inLen = s.inLen := rfl
@[simp] theorem validate_outLen (s : State) (x : DerivedStore) : (validate s x).outLen = s.outLen := rfl
@[simp] theorem validate_pbLen (s : State) (x : DerivedStore) : (validate s x).pbLen = s.pbLen := rfl
@[simp] theorem validate_root (s : State) (x : DerivedStore) : (validate s x).root = s.root := rfl
@[simp] theorem validate_nnodes (s : State) (x : DerivedStore) : (validate s x).nnodes = s.nnodes := rfl
@[simp] theorem validate_freeCtr (s : State) (x : DerivedStore) : (validate s x).freeCtr = s.freeCtr := rfl
@[simp] theorem validate_pending (s : State) (x : DerivedStore) : (validate s x).pending = s.pending := rfl
@[simp] theorem validate_readData (s : State) (x : DerivedStore) : (validate s x).readData = s.readData := rfl
@[simp] theorem validate_valid (s : State) (x : DerivedStore) : (validate s x).valid = s.valid.set x true := rfl
@[simp] theorem invalidate_cfg (s : State) (x : DerivedStore) : (invalidate s x).cfg = s.cfg := by cases x <;> rfl
@[simp] theorem invalidate_inp (s : State) (x : DerivedStore) : (invalidate s x).inp = s.inp := by cases x <;> rfl
@[simp] theorem invalidate_state (s : State) (x : DerivedStore) : (invalidate s x).state = s.state := by cases x <;> rfl
@[simp] theorem invalidate_ecode (s : State) (x : DerivedStore) : (invalidate s x).ecode = s.ecode := by cases x <;> rfl
@[simp] theorem invalidate_sticky (s : State) (x : DerivedStore) : (invalidate s x).sticky = s.sticky := by cases x <;> rfl
@[simp] theorem invalidate_lastop (s : State) (x : DerivedStore) : (invalidate s x).lastop = s.lastop := by cases x <;> rfl
@[simp] theorem invalidate_errinfo (s : State) (x : DerivedStore) : (invalidate s x).errinfo = s.errinfo := by cases x <;> rfl
@[simp] theorem invalidate_inLen (s : State) (x : DerivedStore) : (invalidate s x).inLen = s.inLen := by cases x <;> rfl
@[simp] theorem invalidate_freeCtr (s : State) (x : DerivedStore) : (invalidate s x).freeCtr = s.freeCtr := by cases x <;> rfl
@[simp] theorem invalidate_pending (s : State) (x : DerivedStore) : (invalidate s x).pending = s.pending := by cases x <;> rfl
@[simp] theorem invalidate_readData (s : State) (x : DerivedStore) : (invalidate s x).readData = s.readData := by cases x <;> rfl
@[simp] theorem invalidate_valid (s : State) (x : DerivedStore) : (invalidate s x).valid = s.valid.set x false := by
  cases x <;> rfl
@[simp] theorem invalidate_freq (s : State) (x : DerivedStore) :
    (invalidate s x).freq = if x = .freq then [] else s.freq := by cases x <;> rfl
@[simp] theorem invalidate_tree (s : State) (x : DerivedStore) :
    (invalidate s x).tree = if x = .tree then [] else s.tree := by cases x <;> rfl
@[simp] theorem invalidate_root (s : State) (x : DerivedStore) :
    (invalidate s x).root = if x = .tree then 0 else s.root := by cases x <;> rfl
@[simp] theorem invalidate_nnodes (s : State) (x : DerivedStore) :
    (invalidate s x).nnodes = if x = .tree then 0 else s.nnodes := by cases x <;> rfl
@[simp] theorem invalidate_code (s : State) (x : DerivedStore) :
    (invalidate s x).code = if x = .code then [] else s.code := by cases x <;> rfl
@[simp] theorem invalidate_pbits (s : State) (x : DerivedStore) :
    (invalidate s x).pbits = if x = .pbits then [] else s.pbits := by cases x <;> rfl
@[simp] theorem invalidate_pbLen (s : State) (x : DerivedStore) :
    (invalidate s x).pbLen = if x = .pbits then 0 else s.pbLen := by cases x <;> rfl
@[simp] theorem invalidate_out (s : State) (x : DerivedStore) :
    (invalidate s x).out = if x = .out then [] else s.out := by cases x <;> rfl
@[simp] theorem invalidate_outLen (s : State) (x : DerivedStore) :
    (invalidate s x).outLen = if x = .out then 0 else s.outLen := by cases x <;> rfl

/-! ## All destinations of a command -/
@[simp] theorem foldl_validate_cfg (xs : List DerivedStore) (s : State) :
    (xs.foldl validate s).cfg = s.cfg := by
  induction xs generalizing s with
  | nil => rfl
  | cons x xs ih => simp [ih]
@[simp] theorem foldl_validate_inp (xs : List DerivedStore) (s : State) :
    (xs.foldl validate s).inp = s.inp := by
  induction xs generalizing s with
  | nil => rfl
  | cons x xs ih => simp [ih]
@[simp] theorem foldl_validate_freq (xs : List DerivedStore) (s : State) :
    (xs.foldl validate s).freq = s.freq := by
  induction xs generalizing s with
  | nil => rfl
  | cons x xs ih => simp [ih]
@[simp] theorem foldl_validate_tree (xs : List DerivedStore) (s : State) :
    (xs.foldl validate s).tree = s.tree := by
  induction xs generalizing s with
  | nil => rfl
  | cons x xs ih => simp [ih]
@[simp] theorem foldl_validate_code (xs : List DerivedStore) (s : State) :
    (xs.foldl validate s).code = s.code := by
  induction xs generalizing s with
  | nil => rfl
  | cons x xs ih => simp [ih]
@[simp] theorem foldl_validate_pbits (xs : List DerivedStore) (s : State) :
    (xs.foldl validate s).pbits = s.pbits := by
  induction xs generalizing s with
  | nil => rfl
  | cons x xs ih => simp [ih]
@[simp] theorem foldl_validate_out (xs : List DerivedStore) (s : State) :
    (xs.foldl validate s).out = s.out := by
  induction xs generalizing s with
  | nil => rfl
  | cons x xs ih => simp [ih]
@[simp] theorem foldl_validate_state (xs : List DerivedStore) (s : State) :
    (xs.foldl validate s).state = s.state := by
  induction xs generalizing s with
  | nil => rfl
  | cons x xs ih => simp [ih]
@[simp] theorem foldl_validate_ecode (xs : List DerivedStore) (s : State) :
    (xs.foldl validate s).ecode = s.ecode := by
  induction xs generalizing s with
  | nil => rfl
  | cons x xs ih => simp [ih]
@[simp] theorem foldl_validate_sticky (xs : List DerivedStore) (s : State) :
    (xs.foldl validate s).sticky = s.sticky := by
  induction xs generalizing s with
  | nil => rfl
  | cons x xs ih => simp [ih]
@[simp] theorem foldl_validate_lastop (xs : List DerivedStore) (s : State) :
    (xs.foldl validate s).lastop = s.lastop := by
  induction xs generalizing s with
  | nil => rfl
  | cons x xs ih => simp [ih]
@[simp] theorem foldl_validate_errinfo (xs : List DerivedStore) (s : State) :
    (xs.foldl validate s).errinfo = s.errinfo := by
  induction xs generalizing s with
  | nil => rfl
  | cons x xs ih => simp [ih]
@[simp] theorem foldl_validate_inLen (xs : List DerivedStore) (s : State) :
    (xs.foldl validate s).inLen = s.inLen := by
  induction xs generalizing s with
  | nil => rfl
  | cons x xs ih => simp [ih]
@[simp] theorem foldl_validate_outLen (xs : List DerivedStore) (s : State) :
    (xs.foldl validate s).outLen = s.outLen := by
  induction xs generalizing s with
  | nil => rfl
  | cons x xs ih => simp [ih]
@[simp] theorem foldl_validate_pbLen (xs : List DerivedStore) (s : State) :
    (xs.foldl validate s).pbLen = s.pbLen := by
  induction xs generalizing s with
  | nil => rfl
  | cons x xs ih => simp [ih]
@[simp] theorem foldl_validate_root (xs : List DerivedStore) (s : State) :
    (xs.foldl validate s).root = s.root := by
  induction xs generalizing s with
  | nil => rfl
  | cons x xs ih => simp [ih]
@[simp] theorem foldl_validate_nnodes (xs : List DerivedStore) (s : State) :
    (xs.foldl validate s).nnodes = s.nnodes := by
  induction xs generalizing s with
  | nil => rfl
  | cons x xs ih => simp [ih]
@[simp] theorem foldl_validate_freeCtr (xs : List DerivedStore) (s : State) :
    (xs.foldl validate s).freeCtr = s.freeCtr := by
  induction xs generalizing s with
  | nil => rfl
  | cons x xs ih => simp [ih]
@[simp] theorem foldl_validate_pending (xs : List DerivedStore) (s : State) :
    (xs.foldl validate s).pending = s.pending := by
  induction xs generalizing s with
  | nil => rfl
  | cons x xs ih => simp [ih]
@[simp] theorem foldl_validate_readData (xs : List DerivedStore) (s : State) :
    (xs.foldl validate s).readData = s.readData := by
  induction xs generalizing s with
  | nil => rfl
  | cons x xs ih => simp [ih]
theorem foldl_validate_get (xs : List DerivedStore) (s : State) (y : DerivedStore) :
    (xs.foldl validate s).valid.get y = (decide (y ∈ xs) || s.valid.get y) := by
  induction xs generalizing s with
  | nil => simp
  | cons x xs ih =>
    rw [List.foldl_cons, ih]
    by_cases h : y = x <;> simp [Valid.get_set, h]
@[simp] theorem foldl_invalidate_cfg (xs : List DerivedStore) (s : State) :
    (xs.foldl invalidate s).cfg = s.cfg := by
  induction xs generalizing s with
  | nil => rfl
  | cons x xs ih => simp [ih]
@[simp] theorem foldl_invalidate_inp (xs : List DerivedStore) (s : State) :
    (xs.foldl invalidate s).inp = s.inp := by
  induction xs generalizing s with
  | nil => rfl
  | cons x xs ih => simp [ih]
@[simp] theorem foldl_invalidate_state (xs : List DerivedStore) (s : State) :
    (xs.foldl invalidate s).state = s.state := by
  induction xs generalizing s with
  | nil => rfl
  | cons x xs ih => simp [ih]
@[simp] theorem foldl_invalidate_ecode (xs : List DerivedStore) (s : State) :
    (xs.foldl invalidate s).ecode = s.ecode := by
  induction xs generalizing s with
  | nil => rfl
  | cons x xs ih => simp [ih]
@[simp] theorem foldl_invalidate_sticky (xs : List DerivedStore) (s : State) :
    (xs.foldl invalidate s).sticky = s.sticky := by
  induction xs generalizing s with
  | nil => rfl
  | cons x xs ih => simp [ih]
@[simp] theorem foldl_invalidate_lastop (xs : List DerivedStore) (s : State) :
    (xs.foldl invalidate s).lastop = s.lastop := by
  induction xs generalizing s with
  | nil => rfl
  | cons x xs ih => simp [ih]
@[simp] theorem foldl_invalidate_errinfo (xs : List DerivedStore) (s : State) :
    (xs.foldl invalidate s).errinfo = s.errinfo := by
  induction xs generalizing s with
  | nil => rfl
  | cons x xs ih => simp [ih]
@[simp] theorem foldl_invalidate_inLen (xs : List DerivedStore) (s : State) :
    (xs.foldl invalidate s).inLen = s.inLen := by
  induction xs generalizing s with
  | nil => rfl
  | cons x xs ih => simp [ih]
@[simp] theorem foldl_invalidate_freeCtr (xs : List DerivedStore) (s : State) :
    (xs.foldl invalidate s).freeCtr = s.freeCtr := by
  induction xs generalizing s with
  | nil => rfl
  | cons x xs ih => simp [ih]
@[simp] theorem foldl_invalidate_pending (xs : List DerivedStore) (s : State) :
    (xs.foldl invalidate s).pending = s.pending := by
  induction xs generalizing s with
  | nil => rfl
  | cons x xs ih => simp [ih]
@[simp] theorem foldl_invalidate_readData (xs : List DerivedStore) (s : State) :
    (xs.foldl invalidate s).readData = s.readData := by
  induction xs generalizing s with
  | nil => rfl
  | cons x xs ih => simp [ih]
theorem foldl_invalidate_get (xs : List DerivedStore) (s : State) (y : DerivedStore) :
    (xs.foldl invalidate s).valid.get y = (!decide (y ∈ xs) && s.valid.get y) := by
  induction xs generalizing s with
  | nil => simp
  | cons x xs ih =>
    rw [List.foldl_cons, ih]
    by_cases h : y = x <;> simp [Valid.get_set, h]
theorem foldl_invalidate_freq (xs : List DerivedStore) (s : State) :
    (xs.foldl invalidate s).freq = if .freq ∈ xs then [] else s.freq := by
  induction xs generalizing s with
  | nil => simp
  | cons x xs ih =>
    rw [List.foldl_cons, ih]
    by_cases h : x = .freq
    · simp [h]
    · have h2 : DerivedStore.freq ≠ x := Ne.symm h
      simp [h, h2]
theorem foldl_invalidate_tree (xs : List DerivedStore) (s : State) :
    (xs.foldl invalidate s).tree = if .tree ∈ xs then [] else s.tree := by
  induction xs generalizing s with
  | nil => simp
  | cons x xs ih =>
    rw [List.foldl_cons, ih]
    by_cases h : x = .tree
    · simp [h]
    · have h2 : DerivedStore.tree ≠ x := Ne.symm h
      simp [h, h2]
theorem foldl_invalidate_root (xs : List DerivedStore) (s : State) :
    (xs.foldl invalidate s).root = if .tree ∈ xs then 0 else s.root := by
  induction xs generalizing s with
  | nil => simp
  | cons x xs ih =>
    rw [List.foldl_cons, ih]
    by_cases h : x = .tree
    · simp [h]
    · have h2 : DerivedStore.tree ≠ x := Ne.symm h
      simp [h, h2]
theorem foldl_invalidate_nnodes (xs : List DerivedStore) (s : State) :
    (xs.foldl invalidate s).nnodes = if .tree ∈ xs then 0 else s.nnodes := by
  induction xs generalizing s with
  | nil => simp
  | cons x xs ih =>
    rw [List.foldl_cons, ih]
    by_cases h : x = .tree
    · simp [h]
    · have h2 : DerivedStore.tree ≠ x := Ne.symm h
      simp [h, h2]
theorem foldl_invalidate_code (xs : List DerivedStore) (s : State) :
    (xs.foldl invalidate s).code = if .code ∈ xs then [] else s.code := by
  induction xs generalizing s with
  | nil => simp
  | cons x xs ih =>
    rw [List.foldl_cons, ih]
    by_cases h : x = .code
    · simp [h]
    · have h2 : DerivedStore.code ≠ x := Ne.symm h
      simp [h, h2]
theorem foldl_invalidate_pbits (xs : List DerivedStore) (s : State) :
    (xs.foldl invalidate s).pbits = if .pbits ∈ xs then [] else s.pbits := by
  induction xs generalizing s with
  | nil => simp
  | cons x xs ih =>
    rw [List.foldl_cons, ih]
    by_cases h : x = .pbits
    · simp [h]
    · have h2 : DerivedStore.pbits ≠ x := Ne.symm h
      simp [h, h2]
theorem foldl_invalidate_pbLen (xs : List DerivedStore) (s : State) :
    (xs.foldl invalidate s).pbLen = if .pbits ∈ xs then 0 else s.pbLen := by
  induction xs generalizing s with
  | nil => simp
  | cons x xs ih =>
    rw [List.foldl_cons, ih]
    by_cases h : x = .pbits
    · simp [h]
    · have h2 : DerivedStore.pbits ≠ x := Ne.symm h
      simp [h, h2]
theorem foldl_invalidate_out (xs : List DerivedStore) (s : State) :
    (xs.foldl invalidate s).out = if .out ∈ xs then [] else s.out := by
  induction xs generalizing s with
  | nil => simp
  | cons x xs ih =>
    rw [List.foldl_cons, ih]
    by_cases h : x = .out
    · simp [h]
    · have h2 : DerivedStore.out ≠ x := Ne.symm h
      simp [h, h2]
theorem foldl_invalidate_outLen (xs : List DerivedStore) (s : State) :
    (xs.foldl invalidate s).outLen = if .out ∈ xs then 0 else s.outLen := by
  induction xs generalizing s with
  | nil => simp
  | cons x xs ih =>
    rw [List.foldl_cons, ih]
    by_cases h : x = .out
    · simp [h]
    · have h2 : DerivedStore.out ≠ x := Ne.symm h
      simp [h, h2]

/-! ## Success and failure -/
@[simp] theorem succeed_cfg (xs : List DerivedStore) (s : State) : (succeed xs s).cfg = s.cfg := by simp [succeed]
@[simp] theorem succeed_inp (xs : List DerivedStore) (s : State) : (succeed xs s).inp = s.inp := by simp [succeed]
@[simp] theorem succeed_freq (xs : List DerivedStore) (s : State) : (succeed xs s).freq = s.freq := by simp [succeed]
@[simp] theorem succeed_tree (xs : List DerivedStore) (s : State) : (succeed xs s).tree = s.tree := by simp [succeed]
@[simp] theorem succeed_code (xs : List DerivedStore) (s : State) : (succeed xs s).code = s.code := by simp [succeed]
@[simp] theorem succeed_pbits (xs : List DerivedStore) (s : State) : (succeed xs s).pbits = s.pbits := by simp [succeed]
@[simp] theorem succeed_out (xs : List DerivedStore) (s : State) : (succeed xs s).out = s.out := by simp [succeed]
@[simp] theorem succeed_sticky (xs : List DerivedStore) (s : State) : (succeed xs s).sticky = s.sticky := by simp [succeed]
@[simp] theorem succeed_lastop (xs : List DerivedStore) (s : State) : (succeed xs s).lastop = s.lastop := by simp [succeed]
@[simp] theorem succeed_inLen (xs : List DerivedStore) (s : State) : (succeed xs s).inLen = s.inLen := by simp [succeed]
@[simp] theorem succeed_outLen (xs : List DerivedStore) (s : State) : (succeed xs s).outLen = s.outLen := by simp [succeed]
@[simp] theorem succeed_pbLen (xs : List DerivedStore) (s : State) : (succeed xs s).pbLen = s.pbLen := by simp [succeed]
@[simp] theorem succeed_root (xs : List DerivedStore) (s : State) : (succeed xs s).root = s.root := by simp [succeed]
@[simp] theorem succeed_nnodes (xs : List DerivedStore) (s : State) : (succeed xs s).nnodes = s.nnodes := by simp [succeed]
@[simp] theorem succeed_freeCtr (xs : List DerivedStore) (s : State) : (succeed xs s).freeCtr = s.freeCtr := by simp [succeed]
@[simp] theorem succeed_pending (xs : List DerivedStore) (s : State) : (succeed xs s).pending = s.pending := by simp [succeed]
@[simp] theorem succeed_readData (xs : List DerivedStore) (s : State) : (succeed xs s).readData = s.readData := by simp [succeed]
@[simp] theorem succeed_state (xs : List DerivedStore) (s : State) : (succeed xs s).state = .done := rfl
@[simp] theorem succeed_ecode (xs : List DerivedStore) (s : State) : (succeed xs s).ecode = none := rfl
@[simp] theorem succeed_errinfo (xs : List DerivedStore) (s : State) : (succeed xs s).errinfo = 0 := rfl
theorem succeed_valid_get (xs : List DerivedStore) (s : State) (y : DerivedStore) :
    (succeed xs s).valid.get y = (decide (y ∈ xs) || s.valid.get y) := foldl_validate_get xs s y
@[simp] theorem fail_cfg (xs : List DerivedStore) (e : Error) (info : Word) (s : State) :
    (fail xs e info s).cfg = s.cfg := by simp [fail]
@[simp] theorem fail_inp (xs : List DerivedStore) (e : Error) (info : Word) (s : State) :
    (fail xs e info s).inp = s.inp := by simp [fail]
@[simp] theorem fail_lastop (xs : List DerivedStore) (e : Error) (info : Word) (s : State) :
    (fail xs e info s).lastop = s.lastop := by simp [fail]
@[simp] theorem fail_inLen (xs : List DerivedStore) (e : Error) (info : Word) (s : State) :
    (fail xs e info s).inLen = s.inLen := by simp [fail]
@[simp] theorem fail_freeCtr (xs : List DerivedStore) (e : Error) (info : Word) (s : State) :
    (fail xs e info s).freeCtr = s.freeCtr := by simp [fail]
@[simp] theorem fail_pending (xs : List DerivedStore) (e : Error) (info : Word) (s : State) :
    (fail xs e info s).pending = s.pending := by simp [fail]
@[simp] theorem fail_readData (xs : List DerivedStore) (e : Error) (info : Word) (s : State) :
    (fail xs e info s).readData = s.readData := by simp [fail]
@[simp] theorem fail_state (xs : List DerivedStore) (e : Error) (info : Word) (s : State) :
    (fail xs e info s).state = .err := rfl
@[simp] theorem fail_ecode (xs : List DerivedStore) (e : Error) (info : Word) (s : State) :
    (fail xs e info s).ecode = some e := rfl
@[simp] theorem fail_errinfo (xs : List DerivedStore) (e : Error) (info : Word) (s : State) :
    (fail xs e info s).errinfo = info := rfl
@[simp] theorem fail_sticky (xs : List DerivedStore) (e : Error) (info : Word) (s : State) :
    (fail xs e info s).sticky = s.sticky ||| e.stickyBit := rfl
theorem fail_valid_get (xs : List DerivedStore) (e : Error) (info : Word) (s : State) (y : DerivedStore) :
    (fail xs e info s).valid.get y = (!decide (y ∈ xs) && s.valid.get y) := foldl_invalidate_get xs s y
theorem fail_freq (xs : List DerivedStore) (e : Error) (info : Word) (s : State) :
    (fail xs e info s).freq = if .freq ∈ xs then [] else s.freq := foldl_invalidate_freq xs s
theorem fail_tree (xs : List DerivedStore) (e : Error) (info : Word) (s : State) :
    (fail xs e info s).tree = if .tree ∈ xs then [] else s.tree := foldl_invalidate_tree xs s
theorem fail_root (xs : List DerivedStore) (e : Error) (info : Word) (s : State) :
    (fail xs e info s).root = if .tree ∈ xs then 0 else s.root := foldl_invalidate_root xs s
theorem fail_nnodes (xs : List DerivedStore) (e : Error) (info : Word) (s : State) :
    (fail xs e info s).nnodes = if .tree ∈ xs then 0 else s.nnodes := foldl_invalidate_nnodes xs s
theorem fail_code (xs : List DerivedStore) (e : Error) (info : Word) (s : State) :
    (fail xs e info s).code = if .code ∈ xs then [] else s.code := foldl_invalidate_code xs s
theorem fail_pbits (xs : List DerivedStore) (e : Error) (info : Word) (s : State) :
    (fail xs e info s).pbits = if .pbits ∈ xs then [] else s.pbits := foldl_invalidate_pbits xs s
theorem fail_pbLen (xs : List DerivedStore) (e : Error) (info : Word) (s : State) :
    (fail xs e info s).pbLen = if .pbits ∈ xs then 0 else s.pbLen := foldl_invalidate_pbLen xs s
theorem fail_out (xs : List DerivedStore) (e : Error) (info : Word) (s : State) :
    (fail xs e info s).out = if .out ∈ xs then [] else s.out := foldl_invalidate_out xs s
theorem fail_outLen (xs : List DerivedStore) (e : Error) (info : Word) (s : State) :
    (fail xs e info s).outLen = if .out ∈ xs then 0 else s.outLen := foldl_invalidate_outLen xs s

end Sys2Proof.Machine
end

