-- ==== Sys2Proof/Laws/Ops.lean ====
section
/-! SUPPORT. What a command in the frame of R250 can do, said once. -/

namespace Sys2Proof.Machine

/-- A command that answers a next state was stopped by a check, or its body raised, or its body succeeded. -/
theorem runCommand_cases {i : Instr} {body : State → Except Stop State} {s t : State}
    (h : runCommand i body s = .next t) :
    (∃ e info, precheck i { s with lastop := i.opcode } = some (e, info) ∧
      t = fail (dests i) e info { s with lastop := i.opcode }) ∨
    (precheck i { s with lastop := i.opcode } = none ∧ ∃ e info,
      body { s with lastop := i.opcode } = .error (.raise e info) ∧
      t = fail (dests i) e info { s with lastop := i.opcode }) ∨
    (precheck i { s with lastop := i.opcode } = none ∧ ∃ u,
      body { s with lastop := i.opcode } = .ok u ∧ t = succeed (dests i) u) := by
  simp only [runCommand] at h
  split at h
  · rename_i e info hp
    cases h
    exact .inl ⟨e, info, hp, rfl⟩
  · rename_i hp
    unfold conclude at h
    split at h
    · rename_i u hb
      cases h
      exact .inr (.inr ⟨hp, u, hb, rfl⟩)
    · rename_i e info hb
      cases h
      exact .inr (.inl ⟨hp, e, info, hb, rfl⟩)
    · cases h
    · cases h

/-- A command whose checks pass and whose body succeeds. -/
theorem runCommand_of_ok {i : Instr} {body : State → Except Stop State} {s u : State}
    (hp : precheck i { s with lastop := i.opcode } = none) (hb : body { s with lastop := i.opcode } = .ok u) :
    runCommand i body s = .next (succeed (dests i) u) := by
  simp [runCommand, hp, hb, conclude]

/-- A command whose checks pass and whose body raises. -/
theorem runCommand_of_raise {i : Instr} {body : State → Except Stop State} {s : State} {e : Error} {info : Word}
    (hp : precheck i { s with lastop := i.opcode } = none)
    (hb : body { s with lastop := i.opcode } = .error (.raise e info)) :
    runCommand i body s = .next (fail (dests i) e info { s with lastop := i.opcode }) := by
  simp [runCommand, hp, hb, conclude]

/-- A command whose checks pass and whose body has no meaning in that state. -/
theorem runCommand_of_refuse {i : Instr} {body : State → Except Stop State} {s : State} {r : Refusal}
    (hp : precheck i { s with lastop := i.opcode } = none)
    (hb : body { s with lastop := i.opcode } = .error (.refuse r)) : runCommand i body s = .refused r := by
  simp [runCommand, hp, hb, conclude]

/-- A command whose checks pass and whose body meets an element without a value. -/
theorem runCommand_of_fault {i : Instr} {body : State → Except Stop State} {s : State} {f : Fault}
    (hp : precheck i { s with lastop := i.opcode } = none)
    (hb : body { s with lastop := i.opcode } = .error (.fault f)) : runCommand i body s = .fault f := by
  simp [runCommand, hp, hb, conclude]

/-- A command stopped by a check. -/
theorem runCommand_of_precheck {i : Instr} {body : State → Except Stop State} {s : State} {e : Error} {info : Word}
    (hp : precheck i { s with lastop := i.opcode } = some (e, info)) :
    runCommand i body s = .next (fail (dests i) e info { s with lastop := i.opcode }) := by
  simp [runCommand, hp]

/-- The checks of R250 pass exactly when no needed valid bit is missing and the lengths are within capacity. -/
theorem precheck_none_iff {i : Instr} {s : State} :
    precheck i s = none ↔ missing i s.valid = 0 ∧ (readsIn i = true → s.inLen.toNat ≤ s.cfg.maxIn) ∧
      (readsPbits i = true → s.pbLen.toNat ≤ s.cfg.maxPb) := by
  unfold precheck
  constructor
  · intro h
    split_ifs at h with h1 h2 h3
    exact ⟨not_not.1 h1, fun h => Nat.le_of_not_lt fun hl => h2 ⟨h, hl⟩,
      fun h => Nat.le_of_not_lt fun hl => h3 ⟨h, hl⟩⟩
  · rintro ⟨h1, h2, h3⟩
    rw [if_neg (not_not.2 h1), if_neg fun h => Nat.not_lt.2 (h2 h.1) h.2,
      if_neg fun h => Nat.not_lt.2 (h3 h.1) h.2]

end Sys2Proof.Machine
end

