-- ==== Sys2Proof/Laws/Store.lean ====
section
/-! SUPPORT. Laws of one store: read after write, and every operation keeps the canonical form. -/

namespace Sys2Proof.Machine

variable {w : Nat}

@[simp] theorem Memory.get_nil (k : Nat) : Memory.get ([] : Memory w) k = none := rfl

theorem Memory.get_cons (a : Nat) (v : BitVec w) (m : Memory w) (k : Nat) :
    Memory.get ((a, v) :: m) k = if a = k then some v else Memory.get m k := by
  by_cases h : a = k
  · subst h; simp [Memory.get]
  · have : Nat.beq a k = false := Bool.eq_false_iff.mpr fun e => h (Nat.eq_of_beq_eq_true e)
    simp [Memory.get, this, h]

/-- A read after a write to the same element gives the value written. -/
@[simp] theorem Memory.get_set_same (m : Memory w) (k : Nat) (v : BitVec w) : (m.set k v).get k = some v := by
  induction m with
  | nil => simp [Memory.set, Memory.get_cons]
  | cons c m ih =>
    obtain ⟨a, x⟩ := c
    simp only [Memory.set]
    split
    · simp [Memory.get_cons]
    · split
      · simp [Memory.get_cons]
      · have : a ≠ k := by omega
        simp [Memory.get_cons, this, ih]

/-- A write leaves every other element alone. -/
theorem Memory.get_set_other (m : Memory w) {k j : Nat} (v : BitVec w) (h : j ≠ k) :
    (m.set k v).get j = m.get j := by
  induction m with
  | nil => simp [Memory.set, Memory.get_cons, Ne.symm h]
  | cons c m ih =>
    obtain ⟨a, x⟩ := c
    simp only [Memory.set]
    split
    · simp [Memory.get_cons, Ne.symm h]
    · split
      · have : a ≠ j := by omega
        simp [Memory.get_cons, Ne.symm h, this]
      · simp [Memory.get_cons, ih]

/-- The elements of a store built from a list. -/
theorem Memory.get_from (vs : List (BitVec w)) (base k : Nat) :
    (Memory.from base vs).get k = if base ≤ k then vs[k - base]? else none := by
  induction vs generalizing base with
  | nil => simp [Memory.from]
  | cons v vs ih =>
    simp only [Memory.from, Memory.get_cons, ih]
    by_cases h : base = k
    · simp [h]
    · by_cases h2 : base ≤ k
      · have h3 : k - base = (k - (base + 1)) + 1 := by omega
        have h4 : base + 1 ≤ k := by omega
        simp [h, h2, h3, h4]
      · have h4 : ¬ base + 1 ≤ k := by omega
        simp [h, h2, h4]

theorem Memory.get_append (m n : Memory w) (k : Nat) :
    Memory.get (m ++ n) k = (m.get k).or (n.get k) := by
  induction m with
  | nil => simp
  | cons c m ih =>
    obtain ⟨a, x⟩ := c
    simp only [List.cons_append, Memory.get_cons, ih]
    split <;> simp

theorem Memory.get_filter_ge (m : Memory w) (n k : Nat) :
    Memory.get (m.filter fun c => decide (n ≤ c.1)) k = if n ≤ k then m.get k else none := by
  induction m with
  | nil => simp
  | cons c m ih =>
    obtain ⟨a, x⟩ := c
    by_cases h : n ≤ a
    · simp only [List.filter_cons, h, decide_true, if_true, Memory.get_cons, ih]
      by_cases hk : a = k
      · subst hk; simp [h]
      · simp [hk]
    · simp only [List.filter_cons, h, decide_false, Bool.false_eq_true, if_false, Memory.get_cons, ih]
      by_cases hk : a = k
      · subst hk; simp [h]
      · simp [hk]

/-- `overwrite` replaces the elements below the length of the list and keeps the others. -/
theorem Memory.get_overwrite (m : Memory w) (vs : List (BitVec w)) (k : Nat) :
    (m.overwrite vs).get k = if k < vs.length then vs[k]? else m.get k := by
  simp only [Memory.overwrite, Memory.get_append, Memory.get_from, Memory.get_filter_ge]
  by_cases h : k < vs.length
  · simp [h]
  · simp [h, Nat.le_of_not_lt h]

@[simp] theorem Memory.wf_nil (n : Nat) : Memory.wf n ([] : Memory w) := by simp [Memory.wf]

theorem Memory.mem_set {m : Memory w} {k : Nat} {v : BitVec w} {c : Nat × BitVec w} (h : c ∈ m.set k v) :
    c = (k, v) ∨ c ∈ m := by
  induction m with
  | nil => simpa [Memory.set] using h
  | cons d m ih =>
    obtain ⟨a, x⟩ := d
    simp only [Memory.set] at h
    split at h
    · simpa using h
    · split at h
      · simp only [List.mem_cons] at h ⊢; tauto
      · simp only [List.mem_cons] at h ⊢
        rcases h with h | h
        · tauto
        · rcases ih h with h | h <;> tauto

/-- A host write keeps the canonical form. -/
theorem Memory.wf_set {n : Nat} {m : Memory w} (h : m.wf n) {k : Nat} (hk : k < n) (v : BitVec w) :
    (m.set k v).wf n := by
  refine ⟨?_, ?_⟩
  · have hp := h.1
    clear h
    induction m with
    | nil => simp [Memory.set]
    | cons c m ih =>
      obtain ⟨a, x⟩ := c
      simp only [List.map_cons, List.pairwise_cons] at hp
      simp only [Memory.set]
      split
      · rename_i hlt
        simp only [List.map_cons, List.pairwise_cons]
        refine ⟨?_, hp⟩
        intro b hb
        rcases List.mem_cons.1 hb with rfl | hb
        · exact hlt
        · exact Nat.lt_trans hlt (hp.1 b hb)
      · split
        · rename_i _ heq
          subst heq
          simpa using hp
        · simp only [List.map_cons, List.pairwise_cons]
          refine ⟨?_, ih hp.2⟩
          intro b hb
          obtain ⟨c, hc, rfl⟩ := List.mem_map.1 hb
          rcases Memory.mem_set hc with rfl | hc
          · simp only; omega
          · exact hp.1 _ (List.mem_map.2 ⟨c, hc, rfl⟩)
  · intro c hc
    rcases Memory.mem_set hc with rfl | hc
    · exact hk
    · exact h.2 c hc

theorem Memory.from_keys (base : Nat) (vs : List (BitVec w)) :
    (Memory.from base vs).map Prod.fst = List.range' base vs.length := by
  induction vs generalizing base with
  | nil => rfl
  | cons v vs ih => simp [Memory.from, ih, List.range'_succ]

theorem Memory.mem_from {base : Nat} {vs : List (BitVec w)} {c : Nat × BitVec w} (h : c ∈ Memory.from base vs) :
    base ≤ c.1 ∧ c.1 < base + vs.length ∧ c.2 ∈ vs := by
  induction vs generalizing base with
  | nil => simp [Memory.from] at h
  | cons v vs ih =>
    simp only [Memory.from, List.mem_cons] at h
    rcases h with rfl | h
    · simp
    · have := ih h
      simp only [List.length_cons, List.mem_cons]
      exact ⟨by omega, by omega, Or.inr this.2.2⟩

/-- A store built from a list is in canonical form. -/
theorem Memory.wf_from {n base : Nat} {vs : List (BitVec w)} (h : base + vs.length ≤ n) :
    (Memory.from base vs).wf n := by
  refine ⟨?_, ?_⟩
  · rw [Memory.from_keys]; exact List.pairwise_lt_range'
  · intro c hc
    have := Memory.mem_from hc
    omega

/-- Replacing a prefix keeps the canonical form. -/
theorem Memory.wf_overwrite {n : Nat} {m : Memory w} (h : m.wf n) {vs : List (BitVec w)} (hv : vs.length ≤ n) :
    (m.overwrite vs).wf n := by
  have hf : (Memory.from 0 vs).wf n := Memory.wf_from (by omega)
  refine ⟨?_, ?_⟩
  · simp only [Memory.overwrite, List.map_append, List.pairwise_append]
    refine ⟨hf.1, ?_, ?_⟩
    · exact List.Pairwise.sublist (List.Sublist.map _ List.filter_sublist) h.1
    · intro a ha b hb
      obtain ⟨c, hc, rfl⟩ := List.mem_map.1 ha
      obtain ⟨d, hd, rfl⟩ := List.mem_map.1 hb
      have h1 := Memory.mem_from hc
      have h2 := (List.mem_filter.1 hd).2
      simp only [decide_eq_true_eq] at h2
      omega
  · intro c hc
    rcases List.mem_append.1 hc with hc | hc
    · exact hf.2 c hc
    · exact h.2 c (List.mem_filter.1 hc).1

theorem Memory.read_ok_iff {m : Memory w} {k : Nat} {v : BitVec w} : m.read k = .ok v ↔ m.get k = some v := by
  unfold Memory.read
  split <;> simp_all

/-- A range is read exactly when each of its elements has the value read. -/
theorem Memory.readFrom_ok_iff {m : Memory w} {base n : Nat} {vs : List (BitVec w)} :
    m.readFrom base n = .ok vs ↔ vs.length = n ∧ ∀ i < n, m.get (base + i) = vs[i]? := by
  induction n generalizing base vs with
  | zero =>
    simp only [Memory.readFrom, Except.ok.injEq, Nat.not_lt_zero, false_imp_iff, implies_true, and_true]
    exact ⟨fun h => by simp [← h], fun h => (List.length_eq_zero_iff.1 h).symm⟩
  | succ n ih =>
    simp only [Memory.readFrom, bind, Except.bind, pure, Except.pure]
    constructor
    · intro h
      split at h
      · cases h
      · rename_i v hv
        split at h
        · cases h
        · rename_i us hus
          cases h
          have := ih.1 hus
          refine ⟨by simp [this.1], ?_⟩
          intro i hi
          cases i with
          | zero => simpa using Memory.read_ok_iff.1 hv
          | succ i =>
            have h2 := this.2 i (by omega)
            rw [show base + (i + 1) = base + 1 + i by omega, h2]
            simp
    · rintro ⟨hl, hg⟩
      cases vs with
      | nil => simp at hl
      | cons v us =>
        have h0 := hg 0 (by omega)
        simp only [Nat.add_zero, List.getElem?_cons_zero] at h0
        rw [Memory.read_ok_iff.2 h0]
        have : m.readFrom (base + 1) n = .ok us := by
          refine ih.2 ⟨by simpa using hl, fun i hi => ?_⟩
          have h1 := hg (i + 1) (by omega)
          rw [show base + (i + 1) = base + 1 + i by omega] at h1
          simpa using h1
        simp [this]

end Sys2Proof.Machine
end

