-- ==== Sys2Proof/Laws/Exec.lean ====
section
/-! SUPPORT. What each command's body writes, and from that what each command can do: one inversion per body. -/

namespace Sys2Proof.Machine

variable {α β : Type} {s u t : State}

theorem bind_ok_iff {x : Except Stop α} {f : α → Except Stop β} {r : β} :
    (x >>= f) = .ok r ↔ ∃ a, x = .ok a ∧ f a = .ok r := by
  cases x <;> simp [bind, Except.bind]

theorem bind_error_iff {x : Except Stop α} {f : α → Except Stop β} {e : Stop} :
    (x >>= f) = .error e ↔ x = .error e ∨ ∃ a, x = .ok a ∧ f a = .error e := by
  cases x <;> simp [bind, Except.bind]

theorem bodyFcnt_ok_iff : bodyFcnt s = .ok u ↔ ∃ bytes, readIn s = .ok bytes ∧
    u = { s with freq := Memory.from 0 ((countSymbols bytes).map (BitVec.ofNat 32)) } := by
  simp only [bodyFcnt, bind_ok_iff, pure, Except.pure, Except.ok.injEq]
  exact exists_congr fun _ => and_congr_right fun _ => eq_comm

theorem bodyTbld_ok_iff : bodyTbld s = .ok u ↔ ∃ counts, readFreq s = .ok counts ∧ presentSymbols counts ≠ [] ∧
    u = { s with
      tree := s.tree.overwrite ((buildTree counts).1.flatMap Node.words)
      root := BitVec.ofNat 32 (buildTree counts).2
      nnodes := BitVec.ofNat 32 (buildTree counts).1.length } := by
  simp only [bodyTbld, bind_ok_iff]
  constructor
  · rintro ⟨c, hc, h⟩
    split at h
    · cases h
    · rename_i hp
      cases h
      exact ⟨c, hc, hp, rfl⟩
  · rintro ⟨c, hc, hp, rfl⟩
    exact ⟨c, hc, by rw [if_neg hp]; rfl⟩

theorem bodyCgen_ok_iff : bodyCgen s = .ok u ↔ ∃ links, loadTree s = .ok links ∧
    u = { s with code := codeCells (codeTable links s.root.toNat) } := by
  simp only [bodyCgen, bind_ok_iff, pure, Except.pure, Except.ok.injEq]
  exact exists_congr fun _ => and_congr_right fun _ => eq_comm

theorem bodyBpack_ok_iff : bodyBpack s = .ok u ↔ ∃ tbl bytes b, loadCode s = .ok tbl ∧ readIn s = .ok bytes ∧
    encodeSymbols tbl 0 bytes = .ok b ∧ ¬ s.cfg.maxOut < 1 + (b.length + padLength b.length) / 8 ∧
    u = { s with
      out := s.out.overwrite (packBuffer b)
      outLen := BitVec.ofNat 32 (1 + (b.length + padLength b.length) / 8) } := by
  simp only [bodyBpack, bind_ok_iff]
  constructor
  · rintro ⟨tbl, ht, bytes, hb, b, he, h⟩
    split at h
    · cases h
    · rename_i hm
      cases h
      exact ⟨tbl, bytes, b, ht, hb, he, hm, rfl⟩
  · rintro ⟨tbl, bytes, b, ht, hb, he, hm, rfl⟩
    exact ⟨tbl, ht, bytes, hb, b, he, by rw [if_neg hm]; rfl⟩

/-- TBLD of a mapping without a positive count (R146). -/
theorem bodyTbld_of_empty {counts : List Nat} (hr : readFreq s = .ok counts) (h : presentSymbols counts = []) :
    bodyTbld s = .error (.raise .emptyInput 0) := by
  simp [bodyTbld, bind, Except.bind, hr, h]

/-- BPACK of a stream whose codes do not fit OUT (R179). -/
theorem bodyBpack_of_overflow {tbl : List BitString} {bytes : List Byte} {b : BitString} (ht : loadCode s = .ok tbl)
    (hi : readIn s = .ok bytes) (hb : encodeSymbols tbl 0 bytes = .ok b)
    (hc : s.cfg.maxOut < 1 + (b.length + padLength b.length) / 8) :
    bodyBpack s = .error (.raise .capacity 1) := by
  simp [bodyBpack, bind, Except.bind, ht, hi, hb, hc]

theorem bodyBunpk_ok_iff : bodyBunpk s = .ok u ↔ s.inLen ≠ 0 ∧ ∃ bytes pb, readIn s = .ok bytes ∧
    unpackBuffer bytes = .ok pb ∧
    u = { s with
      pbits := Memory.from 0 (pbitsBytes pb (Config.freeByte s.freeCtr))
      pbLen := BitVec.ofNat 32 pb.length
      freeCtr := s.freeCtr + 1 } := by
  unfold bodyBunpk
  split
  · rename_i h0
    simp [h0]
  · rename_i h0
    simp only [bind_ok_iff, pure, Except.pure, Except.ok.injEq]
    constructor
    · rintro ⟨bytes, hb, pb, hp, h⟩
      exact ⟨h0, bytes, pb, hb, hp, h.symm⟩
    · rintro ⟨-, bytes, pb, hb, hp, h⟩
      exact ⟨bytes, hb, pb, hp, h.symm⟩

theorem bodyHdecT_ok_iff : bodyHdecT s = .ok u ↔ ∃ tbl bits syms, loadCode s = .ok tbl ∧ readBits s = .ok bits ∧
    decodeByTable tbl s.cfg.maxOut bits = .ok syms ∧ u = deliver s syms := by
  simp only [bodyHdecT, bind_ok_iff, pure, Except.pure, Except.ok.injEq]
  constructor
  · rintro ⟨tbl, ht, bits, hb, syms, hd, h⟩
    exact ⟨tbl, bits, syms, ht, hb, hd, h.symm⟩
  · rintro ⟨tbl, bits, syms, ht, hb, hd, h⟩
    exact ⟨tbl, ht, bits, hb, syms, hd, h.symm⟩

theorem bodyHdecR_ok_iff : bodyHdecR s = .ok u ↔ ∃ links bits syms, loadTree s = .ok links ∧ readBits s = .ok bits ∧
    decodeByTree links s.root.toNat s.cfg.maxOut bits = .ok syms ∧ u = deliver s syms := by
  simp only [bodyHdecR, bind_ok_iff, pure, Except.pure, Except.ok.injEq]
  constructor
  · rintro ⟨l, hl, bits, hb, syms, hd, h⟩
    exact ⟨l, bits, syms, hl, hb, hd, h.symm⟩
  · rintro ⟨l, bits, syms, hl, hb, hd, h⟩
    exact ⟨l, hl, bits, hb, syms, hd, h.symm⟩

theorem bodyHdcmpT_ok_iff : bodyHdcmpT s = .ok u ↔ ∃ tbl s1, loadCode s = .ok tbl ∧ bodyBunpk s = .ok s1 ∧
    bodyHdecT s1 = .ok u := by
  simp only [bodyHdcmpT, bind_ok_iff]
  constructor
  · rintro ⟨tbl, ht, s1, h1, h⟩
    exact ⟨tbl, s1, ht, h1, h⟩
  · rintro ⟨tbl, s1, ht, h1, h⟩
    exact ⟨tbl, ht, s1, h1, h⟩

theorem bodyHdcmpR_ok_iff : bodyHdcmpR s = .ok u ↔ ∃ links s1, loadTree s = .ok links ∧ bodyBunpk s = .ok s1 ∧
    bodyHdecR s1 = .ok u := by
  simp only [bodyHdcmpR, bind_ok_iff]
  constructor
  · rintro ⟨l, hl, s1, h1, h⟩
    exact ⟨l, s1, hl, h1, h⟩
  · rintro ⟨l, s1, hl, h1, h⟩
    exact ⟨l, hl, s1, h1, h⟩

/-- HENC when its TBLD stage fails (R231). -/
theorem bodyHenc_of_tbld_error {e : Stop} (h : bodyFcnt s = .ok u) (ht : bodyTbld u = .error e) :
    bodyHenc s = .error e := by
  simp [bodyHenc, bind, Except.bind, h, ht]

theorem bodyHenc_ok_iff : bodyHenc s = .ok u ↔ ∃ s1 s2 s3, bodyFcnt s = .ok s1 ∧ bodyTbld s1 = .ok s2 ∧
    bodyCgen s2 = .ok s3 ∧ bodyBpack s3 = .ok u := by
  simp only [bodyHenc, bind_ok_iff]
  constructor
  · rintro ⟨s1, h1, s2, h2, s3, h3, h⟩
    exact ⟨s1, s2, s3, h1, h2, h3, h⟩
  · rintro ⟨s1, s2, s3, h1, h2, h3, h⟩
    exact ⟨s1, h1, s2, h2, s3, h3, h⟩

/-- `u` is `s` but for the contents and registers of the stores in `ds`, and the free value counter if PBITS is
one of them: all that a body may write (R251). -/
structure BodyFrame (ds : List DerivedStore) (s u : State) : Prop where
  cfg : u.cfg = s.cfg
  inp : u.inp = s.inp
  valid : u.valid = s.valid
  state : u.state = s.state
  ecode : u.ecode = s.ecode
  sticky : u.sticky = s.sticky
  lastop : u.lastop = s.lastop
  errinfo : u.errinfo = s.errinfo
  inLen : u.inLen = s.inLen
  pending : u.pending = s.pending
  readData : u.readData = s.readData
  freq : .freq ∉ ds → u.freq = s.freq
  tree : .tree ∉ ds → u.tree = s.tree ∧ u.root = s.root ∧ u.nnodes = s.nnodes
  code : .code ∉ ds → u.code = s.code
  pbits : .pbits ∉ ds → u.pbits = s.pbits ∧ u.pbLen = s.pbLen ∧ u.freeCtr = s.freeCtr
  out : .out ∉ ds → u.out = s.out ∧ u.outLen = s.outLen

theorem BodyFrame.refl (ds : List DerivedStore) (s : State) : BodyFrame ds s s :=
  ⟨rfl, rfl, rfl, rfl, rfl, rfl, rfl, rfl, rfl, rfl, rfl, fun _ => rfl, fun _ => ⟨rfl, rfl, rfl⟩, fun _ => rfl,
    fun _ => ⟨rfl, rfl, rfl⟩, fun _ => ⟨rfl, rfl⟩⟩

/-- Two stages write at most what both may write. -/
theorem BodyFrame.trans {ds es : List DerivedStore} (h : BodyFrame ds s u) (k : BodyFrame es u t) :
    BodyFrame (ds ++ es) s t where
  cfg := k.cfg.trans h.cfg
  inp := k.inp.trans h.inp
  valid := k.valid.trans h.valid
  state := k.state.trans h.state
  ecode := k.ecode.trans h.ecode
  sticky := k.sticky.trans h.sticky
  lastop := k.lastop.trans h.lastop
  errinfo := k.errinfo.trans h.errinfo
  inLen := k.inLen.trans h.inLen
  pending := k.pending.trans h.pending
  readData := k.readData.trans h.readData
  freq hn := by
    simp only [List.mem_append, not_or] at hn
    exact (k.freq hn.2).trans (h.freq hn.1)
  tree hn := by
    simp only [List.mem_append, not_or] at hn
    obtain ⟨a, b, c⟩ := k.tree hn.2
    obtain ⟨a', b', c'⟩ := h.tree hn.1
    exact ⟨a.trans a', b.trans b', c.trans c'⟩
  code hn := by
    simp only [List.mem_append, not_or] at hn
    exact (k.code hn.2).trans (h.code hn.1)
  pbits hn := by
    simp only [List.mem_append, not_or] at hn
    obtain ⟨a, b, c⟩ := k.pbits hn.2
    obtain ⟨a', b', c'⟩ := h.pbits hn.1
    exact ⟨a.trans a', b.trans b', c.trans c'⟩
  out hn := by
    simp only [List.mem_append, not_or] at hn
    obtain ⟨a, b⟩ := k.out hn.2
    obtain ⟨a', b'⟩ := h.out hn.1
    exact ⟨a.trans a', b.trans b'⟩

/-- Writing one store's contents and registers stays within that store's frame. -/
theorem frame_freq (s : State) (m : Memory 32) : BodyFrame [.freq] s { s with freq := m } := by
  constructor <;> simp

theorem frame_tree (s : State) (m : Memory 32) (r n : Word) :
    BodyFrame [.tree] s { s with tree := m, root := r, nnodes := n } := by constructor <;> simp

theorem frame_code (s : State) (m : Memory 32) : BodyFrame [.code] s { s with code := m } := by
  constructor <;> simp

theorem frame_pbits (s : State) (m : Memory 8) (n : Word) (c : Nat) :
    BodyFrame [.pbits] s { s with pbits := m, pbLen := n, freeCtr := c } := by constructor <;> simp

theorem frame_out (s : State) (m : Memory 8) (n : Word) : BodyFrame [.out] s { s with out := m, outLen := n } := by
  constructor <;> simp

theorem bodyFcnt_frame (h : bodyFcnt s = .ok u) : BodyFrame [.freq] s u := by
  obtain ⟨_, -, rfl⟩ := bodyFcnt_ok_iff.1 h
  exact frame_freq s _

theorem bodyTbld_frame (h : bodyTbld s = .ok u) : BodyFrame [.tree] s u := by
  obtain ⟨_, -, -, rfl⟩ := bodyTbld_ok_iff.1 h
  exact frame_tree s _ _ _

theorem bodyCgen_frame (h : bodyCgen s = .ok u) : BodyFrame [.code] s u := by
  obtain ⟨_, -, rfl⟩ := bodyCgen_ok_iff.1 h
  exact frame_code s _

theorem bodyBpack_frame (h : bodyBpack s = .ok u) : BodyFrame [.out] s u := by
  obtain ⟨_, _, _, -, -, -, -, rfl⟩ := bodyBpack_ok_iff.1 h
  exact frame_out s _ _

theorem bodyBunpk_frame (h : bodyBunpk s = .ok u) : BodyFrame [.pbits] s u := by
  obtain ⟨-, _, _, -, -, rfl⟩ := bodyBunpk_ok_iff.1 h
  exact frame_pbits s _ _ _

theorem bodyHdecT_frame (h : bodyHdecT s = .ok u) : BodyFrame [.out] s u := by
  obtain ⟨_, _, _, -, -, -, rfl⟩ := bodyHdecT_ok_iff.1 h
  exact frame_out s _ _

theorem bodyHdecR_frame (h : bodyHdecR s = .ok u) : BodyFrame [.out] s u := by
  obtain ⟨_, _, _, -, -, -, rfl⟩ := bodyHdecR_ok_iff.1 h
  exact frame_out s _ _

theorem bodyHdcmpT_frame (h : bodyHdcmpT s = .ok u) : BodyFrame [.pbits, .out] s u := by
  obtain ⟨_, _, -, h1, h2⟩ := bodyHdcmpT_ok_iff.1 h
  exact (bodyBunpk_frame h1).trans (bodyHdecT_frame h2)

theorem bodyHdcmpR_frame (h : bodyHdcmpR s = .ok u) : BodyFrame [.pbits, .out] s u := by
  obtain ⟨_, _, -, h1, h2⟩ := bodyHdcmpR_ok_iff.1 h
  exact (bodyBunpk_frame h1).trans (bodyHdecR_frame h2)

theorem bodyHenc_frame (h : bodyHenc s = .ok u) : BodyFrame [.freq, .tree, .code, .out] s u := by
  obtain ⟨_, _, _, h1, h2, h3, h4⟩ := bodyHenc_ok_iff.1 h
  exact (bodyFcnt_frame h1).trans ((bodyTbld_frame h2).trans ((bodyCgen_frame h3).trans (bodyBpack_frame h4)))

/-- The body of each command that has one; HCLR has none. -/
def bodyOf : Instr → Option (State → Except Stop State)
  | .hnop => some fun t => .ok t
  | .hclr => none
  | .fcnt => some bodyFcnt
  | .tbld => some bodyTbld
  | .cgen => some bodyCgen
  | .bpack => some bodyBpack
  | .bunpk => some bodyBunpk
  | .hdecT => some bodyHdecT
  | .hdecR => some bodyHdecR
  | .henc => some bodyHenc
  | .hdcmpT => some bodyHdcmpT
  | .hdcmpR => some bodyHdcmpR

theorem bodyOf_frame {i : Instr} {body : State → Except Stop State} (hb : bodyOf i = some body)
    (h : body s = .ok u) : BodyFrame (dests i) s u := by
  cases i <;> cases hb
  · cases h; exact .refl _ _
  · exact bodyFcnt_frame h
  · exact bodyTbld_frame h
  · exact bodyCgen_frame h
  · exact bodyBpack_frame h
  · exact bodyBunpk_frame h
  · exact bodyHdecT_frame h
  · exact bodyHdecR_frame h
  · exact bodyHenc_frame h
  · exact bodyHdcmpT_frame h
  · exact bodyHdcmpR_frame h

theorem exec_eq_runCommand {i : Instr} {body : State → Except Stop State} (hb : bodyOf i = some body) :
    exec i s = runCommand i body s := by
  cases i <;> cases hb <;> rfl

/-- HCLR in full (R254). -/
theorem exec_hclr_eq : exec .hclr s = .next { s with
    freq := [], tree := [], code := [], pbits := [], out := [], valid := ⟨false, false, false, false, false⟩,
    outLen := 0, pbLen := 0, root := 0, nnodes := 0, sticky := 0, ecode := none, errinfo := 0, state := .idle,
    lastop := 0x01 } := rfl

/-- Every command that answers a next state is HCLR, or failed, or succeeded with a body that wrote its
destinations only. -/
theorem exec_cases {i : Instr} (h : exec i s = .next t) :
    i = .hclr ∨ (∃ e info, t = fail (dests i) e info { s with lastop := i.opcode }) ∨
    (precheck i { s with lastop := i.opcode } = none ∧
      ∃ u, BodyFrame (dests i) { s with lastop := i.opcode } u ∧ t = succeed (dests i) u) := by
  cases hb : bodyOf i with
  | none => cases i <;> first | exact .inl rfl | cases hb
  | some body =>
    rw [exec_eq_runCommand hb] at h
    obtain ⟨e, info, -, rfl⟩ | ⟨-, e, info, -, rfl⟩ | ⟨hp, u, hu, rfl⟩ := runCommand_cases h
    · exact .inr (.inl ⟨e, info, rfl⟩)
    · exact .inr (.inl ⟨e, info, rfl⟩)
    · exact .inr (.inr ⟨hp, u, bodyOf_frame hb hu, rfl⟩)

end Sys2Proof.Machine
end

