-- ==== Sys2Proof/Laws/Operands.lean ====
section
/-! SUPPORT. What the readers of the stores answer, against the layouts of R100 to R103 as Safety states them. -/

namespace Sys2Proof.Machine

variable {s : State}

/-- IN is read exactly when it holds the bytes. -/
theorem readIn_ok_iff {bytes : List Byte} : readIn s = .ok bytes ↔ InHolds s bytes := by
  unfold readIn
  rw [Memory.readFrom_ok_iff]
  constructor
  · rintro ⟨h, g⟩
    exact ⟨h.symm, fun i hi => by simpa using g i (h ▸ hi)⟩
  · rintro ⟨h, g⟩
    exact ⟨h.symm, fun i hi => by simpa using g i (h ▸ hi)⟩

/-- FREQ is read exactly when it holds the counts. -/
theorem readFreq_ok_iff {counts : List Nat} : readFreq s = .ok counts ↔ FreqHolds s counts := by
  simp only [readFreq, bind_ok_iff, pure, Except.pure, Except.ok.injEq, Memory.readFrom_ok_iff]
  constructor
  · rintro ⟨ws, ⟨hl, hg⟩, rfl⟩
    refine ⟨by simpa using hl, fun k hk => ?_⟩
    have := hg k hk
    simp only [Nat.zero_add] at this
    simp [this]
  · rintro ⟨hl, hg⟩
    refine ⟨counts.map (BitVec.ofNat 32), ⟨by simpa using hl, fun k hk => ?_⟩, ?_⟩
    · have := hg k hk
      rw [Nat.zero_add]
      cases hm : s.freq.get k with
      | none => rw [hm] at this; simp [List.getElem?_eq_getElem (hl ▸ hk)] at this
      | some v =>
        rw [hm] at this
        simp only [Option.map_some] at this
        simp [← this]
    · apply List.ext_getElem?
      intro k
      by_cases hk : k < 256
      · have := hg k hk
        cases hm : s.freq.get k with
        | none => rw [hm] at this; simp [List.getElem?_eq_getElem (hl ▸ hk)] at this
        | some v =>
          rw [hm] at this
          simp only [Option.map_some] at this
          simp [← this]
      · rw [List.getElem?_eq_none (by simp; omega), List.getElem?_eq_none (by omega)]

/-- PBITS is read exactly when it holds the bit string. -/
theorem readBits_ok_iff {bits : BitString} : readBits s = .ok bits ↔ PbHolds s bits := by
  simp only [readBits, bind_ok_iff, pure, Except.pure, Except.ok.injEq, Memory.readFrom_ok_iff]
  constructor
  · rintro ⟨bytes, ⟨hl, hg⟩, rfl⟩
    have hlen : ((bitsOf bytes).take s.pbLen.toNat).length = s.pbLen.toNat := by
      rw [List.length_take, bitsOf_length, hl]; omega
    refine ⟨hlen.symm, fun j hj => ?_⟩
    rw [hlen] at hj
    have h1 := hg (j / 8) (by omega)
    rw [Nat.zero_add] at h1
    rw [h1, List.getElem?_take_of_lt hj, bitsOf_getElem?]
  · rintro ⟨hl, hg⟩
    have hbyte : ∀ i < (s.pbLen.toNat + 7) / 8, ∃ v, s.pbits.get i = some v := by
      intro i hi
      have h1 := hg (8 * i) (by omega)
      rw [show 8 * i / 8 = i by omega, List.getElem?_eq_getElem (by omega)] at h1
      cases hm : s.pbits.get i with
      | none => rw [hm] at h1; simp at h1
      | some v => exact ⟨v, rfl⟩
    refine ⟨(List.range ((s.pbLen.toNat + 7) / 8)).map fun i => (s.pbits.get i).getD 0,
      ⟨by simp, fun i hi => ?_⟩, ?_⟩
    · obtain ⟨v, hv⟩ := hbyte i hi
      simp [hi, hv]
    · apply List.ext_getElem?
      intro j
      by_cases hj : j < bits.length
      · have h1 := hg j hj
        have h2 : j / 8 < (s.pbLen.toNat + 7) / 8 := by omega
        obtain ⟨v, hv⟩ := hbyte _ h2
        rw [List.getElem?_take_of_lt (by omega), bitsOf_getElem?, ← h1, hv]
        simp [h2, hv]
      · rw [List.getElem?_eq_none (by rw [List.length_take]; omega), List.getElem?_eq_none (by omega)]

theorem readLink_ok_iff {m : Memory 32} {k : Nat} {l : Link} : readLink m k = .ok l ↔ linkHolds m k l = true := by
  simp only [readLink, bind_ok_iff, Memory.read_ok_iff]
  constructor
  · rintro ⟨w0, h0, h⟩
    by_cases ht : w0.getLsbD 0 = true
    · rw [if_pos ht] at h
      simp only [bind_ok_iff, Memory.read_ok_iff, pure, Except.pure, Except.ok.injEq] at h
      obtain ⟨w3, h3, rfl⟩ := h
      simp [linkHolds, h0, h3, ht]
    · rw [if_neg ht] at h
      simp only [pure, Except.pure, Except.ok.injEq] at h
      subst h
      simpa [linkHolds, h0] using ht
  · intro h
    cases l with
    | leaf sym =>
      simp only [linkHolds, beq_iff_eq, Option.map_eq_some_iff, Prod.mk.injEq] at h
      obtain ⟨w0, h0, ht, hs⟩ := h
      exact ⟨w0, h0, by rw [if_neg (by rw [ht]; exact Bool.false_ne_true), hs]; rfl⟩
    | branch a b =>
      simp only [linkHolds, Bool.and_eq_true, beq_iff_eq, Option.map_eq_some_iff, Prod.mk.injEq] at h
      obtain ⟨⟨w0, h0, ht⟩, w3, h3, ha, hb⟩ := h
      refine ⟨w0, h0, ?_⟩
      rw [if_pos ht]
      simp [bind, Except.bind, Memory.read_ok_iff.2 h3, pure, Except.pure, ha, hb]

theorem readLinks_ok_iff {m : Memory 32} {base n : Nat} {links : List Link} :
    readLinks m base n = .ok links ↔
      links.length = n ∧ ∀ k < links.length, (links[k]?.map (linkHolds m (base + k))) = some true := by
  induction n generalizing base links with
  | zero =>
    simp only [readLinks, Except.ok.injEq]
    constructor
    · rintro rfl; simp
    · rintro ⟨h, -⟩; exact (List.length_eq_zero_iff.1 h).symm
  | succ n ih =>
    simp only [readLinks, bind_ok_iff, pure, Except.pure, Except.ok.injEq, readLink_ok_iff, ih]
    constructor
    · rintro ⟨l, hl, ls, ⟨hn, hls⟩, rfl⟩
      refine ⟨by simp [hn], fun k hk => ?_⟩
      cases k with
      | zero => simpa using hl
      | succ k =>
        have := hls k (by simpa using hk)
        rw [show base + (k + 1) = base + 1 + k by omega]
        simpa using this
    · rintro ⟨hn, hls⟩
      cases links with
      | nil => simp at hn
      | cons l ls =>
        refine ⟨l, by simpa using hls 0 (by simp), ls, ⟨by simpa using hn, fun k hk => ?_⟩, rfl⟩
        have := hls (k + 1) (by simpa using hk)
        rw [show base + (k + 1) = base + 1 + k by omega] at this
        simpa using this

/-- TREE is loaded exactly when it holds a tree of legal size and shape (R24 items 1 to 5). -/
theorem loadTree_ok_iff {links : List Link} :
    loadTree s = .ok links ↔ TreeHolds s links ∧ treeShape links s.root.toNat = true := by
  unfold loadTree
  constructor
  · intro h
    split at h
    · cases h
    · rw [bind_ok_iff] at h
      obtain ⟨ls, h1, h2⟩ := h
      split at h2
      · rename_i hs
        cases h2
        obtain ⟨hn, hk⟩ := readLinks_ok_iff.1 h1
        exact ⟨⟨hn.symm, fun k hk2 => by simpa using hk k hk2⟩, hs⟩
      · cases h2
  · rintro ⟨⟨hn, hk⟩, hs⟩
    have hsz : 1 ≤ links.length ∧ links.length ≤ Config.maxNodes := by
      unfold treeShape at hs
      simp only [Bool.and_eq_true, decide_eq_true_eq] at hs
      exact ⟨hs.1.1.1.1.1.1.1, hs.1.1.1.1.1.1.2⟩
    rw [if_neg (by omega), bind_ok_iff]
    refine ⟨links, readLinks_ok_iff.2 ⟨hn.symm, fun k hk2 => by simpa using hk k hk2⟩, ?_⟩
    simp [hs, pure, Except.pure]

/-- A count of records out of range is refused whatever TREE holds (R40, U1; log 2). -/
theorem loadTree_of_count (h : s.nnodes.toNat = 0 ∨ Config.maxNodes < s.nnodes.toNat) :
    loadTree s = .error (.refuse .treeNotWellFormed) := by
  rw [loadTree, if_pos h]

theorem flatMap_wordBits_getElem? (ws : List Word) (i : Nat) :
    (ws.flatMap wordBits)[i]? = (ws[i / 32]?).map fun w => w.getLsbD (31 - i % 32) := by
  induction ws generalizing i with
  | nil => simp
  | cons w ws ih =>
    rw [List.flatMap_cons]
    by_cases h : i < 32
    · rw [List.getElem?_append_left (by simpa using h), wordBits_getElem? w h]
      simp [Nat.div_eq_of_lt h, Nat.mod_eq_of_lt h]
    · rw [List.getElem?_append_right (by simp; omega), wordBits_length, ih]
      have h1 : i / 32 = (i - 32) / 32 + 1 := by omega
      have h2 : i % 32 = (i - 32) % 32 := by omega
      rw [h1, h2]
      simp

theorem flatMap_wordBits_length (ws : List Word) : (ws.flatMap wordBits).length = 32 * ws.length := by
  induction ws with
  | nil => rfl
  | cons w ws ih => simp [ih]; omega

/-- A code record is read exactly when it holds the code. -/
theorem readCode_ok_iff {m : Memory 32} {sym : Nat} {bits : BitString} :
    readCode m sym = .ok bits ↔ CodeRecordHolds m sym bits := by
  simp only [readCode, bind_ok_iff, Memory.read_ok_iff, Memory.readFrom_ok_iff, pure, Except.pure,
    Except.ok.injEq]
  constructor
  · rintro ⟨w0, h0, ws, ⟨hl, hg⟩, rfl⟩
    have hlen : ((ws.flatMap wordBits).take (w0.extractLsb' 0 8).toNat).length = (w0.extractLsb' 0 8).toNat := by
      rw [List.length_take, flatMap_wordBits_length, hl]; omega
    refine ⟨by simp only [h0, Option.map_some, hlen], fun i hi => ?_⟩
    rw [hlen] at hi
    have h1 := hg (i / 32) (by omega)
    rw [show 16 * sym + 1 + i / 32 = 16 * sym + (1 + i / 32) by omega] at h1
    rw [h1, List.getElem?_take_of_lt hi, flatMap_wordBits_getElem?]
  · rintro ⟨h0, hg⟩
    obtain ⟨w0, hw0, hlen⟩ := Option.map_eq_some_iff.1 h0
    refine ⟨w0, hw0, ?_⟩
    rw [hlen]
    have hword : ∀ j < (bits.length + 31) / 32, ∃ w, m.get (16 * sym + 1 + j) = some w := by
      intro j hj
      have h1 := hg (32 * j) (by omega)
      rw [show 16 * sym + (1 + 32 * j / 32) = 16 * sym + 1 + j by omega,
        List.getElem?_eq_getElem (by omega)] at h1
      cases hm : m.get (16 * sym + 1 + j) with
      | none => rw [hm] at h1; simp at h1
      | some w => exact ⟨w, rfl⟩
    refine ⟨(List.range ((bits.length + 31) / 32)).map fun j => (m.get (16 * sym + 1 + j)).getD 0,
      ⟨by simp, fun j hj => ?_⟩, ?_⟩
    · obtain ⟨w, hw⟩ := hword j hj
      simp [hj, hw]
    · apply List.ext_getElem?
      intro i
      by_cases hi : i < bits.length
      · have h1 := hg i hi
        have h2 : i / 32 < (bits.length + 31) / 32 := by omega
        obtain ⟨w, hw⟩ := hword _ h2
        rw [show 16 * sym + (1 + i / 32) = 16 * sym + 1 + i / 32 by omega] at h1
        rw [List.getElem?_take_of_lt hi, flatMap_wordBits_getElem?, ← h1, hw]
        simp [h2, hw]
      · rw [List.getElem?_eq_none (by rw [List.length_take]; omega), List.getElem?_eq_none (by omega)]

theorem readCodes_ok_iff {m : Memory 32} {base n : Nat} {tbl : List BitString} :
    readCodes m base n = .ok tbl ↔
      tbl.length = n ∧ ∀ k < n, CodeRecordHolds m (base + k) (tbl.getD k []) := by
  induction n generalizing base tbl with
  | zero =>
    simp only [readCodes, Except.ok.injEq]
    constructor
    · rintro rfl; simp
    · rintro ⟨h, -⟩; exact (List.length_eq_zero_iff.1 h).symm
  | succ n ih =>
    simp only [readCodes, bind_ok_iff, pure, Except.pure, Except.ok.injEq, readCode_ok_iff, ih]
    constructor
    · rintro ⟨c, hc, cs, ⟨hn, hcs⟩, rfl⟩
      refine ⟨by simp [hn], fun k hk => ?_⟩
      cases k with
      | zero => simpa using hc
      | succ k =>
        have := hcs k (by omega)
        rw [show base + (k + 1) = base + 1 + k by omega]
        simpa using this
    · rintro ⟨hn, hcs⟩
      cases tbl with
      | nil => simp at hn
      | cons c cs =>
        refine ⟨c, by simpa using hcs 0 (by omega), cs, ⟨by simpa using hn, fun k hk => ?_⟩, rfl⟩
        have := hcs (k + 1) (by omega)
        rw [show base + (k + 1) = base + 1 + k by omega] at this
        simpa using this

/-- CODE is loaded exactly when it holds a well-formed table. -/
theorem loadCode_ok_iff {tbl : List BitString} : loadCode s = .ok tbl ↔ CodeHolds s tbl ∧ codeShape tbl = true := by
  unfold loadCode
  rw [bind_ok_iff]
  constructor
  · rintro ⟨t, h1, h2⟩
    split at h2
    · rename_i hs
      cases h2
      obtain ⟨hn, hk⟩ := readCodes_ok_iff.1 h1
      exact ⟨⟨hn, fun k hk2 => by simpa using hk k hk2⟩, hs⟩
    · cases h2
  · rintro ⟨⟨hn, hk⟩, hs⟩
    exact ⟨tbl, readCodes_ok_iff.2 ⟨hn, fun k hk2 => by simpa using hk k hk2⟩, by rw [if_pos hs]; rfl⟩

/-! ## The records as the block writes them -/

/-- A node's record, weight aside. -/
def nodeLink : Node → Link
  | .leaf sym _ => .leaf sym
  | .internal _ left right => .branch left.toNat right.toNat

/-- A node's weight. -/
def nodeWeight : Node → Nat
  | .leaf _ w => w.toNat
  | .internal w _ _ => w.toNat

@[simp] theorem nodeWords_length (n : Node) : (Node.words n).length = 4 := by cases n <;> rfl

theorem flatMap_words_length (nodes : List Node) : (nodes.flatMap Node.words).length = 4 * nodes.length := by
  induction nodes with
  | nil => rfl
  | cons n ns ih => simp [ih]; omega

/-- Word j of record k among consecutive records. -/
theorem flatMap_words_getElem? (nodes : List Node) (k : Nat) {j : Nat} (hj : j < 4) :
    (nodes.flatMap Node.words)[4 * k + j]? = (nodes[k]?).bind fun n => (Node.words n)[j]? := by
  induction nodes generalizing k with
  | nil => simp
  | cons n ns ih =>
    rw [List.flatMap_cons]
    cases k with
    | zero => rw [List.getElem?_append_left (by simp; omega)]; simp
    | succ k =>
      rw [List.getElem?_append_right (by simp; omega), nodeWords_length,
        show 4 * (k + 1) + j - 4 = 4 * k + j by omega, ih]
      simp

theorem overwrite_words_get (m : Memory 32) {nodes : List Node} {k j : Nat} (hj : j < 4) (hk : k < nodes.length) :
    (m.overwrite (nodes.flatMap Node.words)).get (4 * k + j) = (Node.words nodes[k])[j]? := by
  rw [Memory.get_overwrite, flatMap_words_length, if_pos (by omega), flatMap_words_getElem? _ _ hj]
  simp [hk]

theorem tag_of_leaf (sym : Byte) :
    ((0 : BitVec 16) ++ sym ++ (0 : BitVec 8)).getLsbD 0 = false ∧
      ((0 : BitVec 16) ++ sym ++ (0 : BitVec 8)).extractLsb' 8 8 = sym := by
  revert sym; decide

theorem children_of_word (left right : BitVec 9) :
    ((0 : BitVec 7) ++ right ++ (0 : BitVec 7) ++ left).extractLsb' 0 9 = left ∧
      ((0 : BitVec 7) ++ right ++ (0 : BitVec 7) ++ left).extractLsb' 16 9 = right := by
  constructor
  · apply BitVec.eq_of_getLsbD_eq
    intro i hi
    simp only [BitVec.getLsbD_extractLsb', BitVec.getLsbD_append]
    simp [hi]
  · apply BitVec.eq_of_getLsbD_eq
    intro i hi
    simp only [BitVec.getLsbD_extractLsb', BitVec.getLsbD_append]
    have h1 : ¬ 16 + i < 9 := by omega
    have h2 : ¬ 16 + i - 9 < 7 := by omega
    have h3 : 16 + i - 9 - 7 = i := by omega
    simp [h1, h2, h3, hi]

/-- The records TBLD writes hold their nodes (R100). -/
theorem linkHolds_overwrite (m : Memory 32) {nodes : List Node} {k : Nat} (hk : k < nodes.length) :
    linkHolds (m.overwrite (nodes.flatMap Node.words)) k (nodeLink nodes[k]) = true := by
  have h0 := overwrite_words_get m (j := 0) (by omega) hk
  have h3 := overwrite_words_get m (j := 3) (by omega) hk
  rw [Nat.add_zero] at h0
  cases hn : nodes[k] with
  | leaf sym w =>
    rw [hn] at h0
    simp only [nodeLink, linkHolds, h0, Node.words, List.getElem?_cons_zero, Option.map_some]
    rw [(tag_of_leaf sym).1, (tag_of_leaf sym).2]
    exact beq_self_eq_true _
  | internal w left right =>
    rw [hn] at h0 h3
    have := children_of_word left right
    simp only [nodeLink, linkHolds, h0, h3, Node.words, List.getElem?_cons_zero, Option.map_some,
      List.getElem?_cons_succ, this.1, this.2]
    rw [show BitVec.getLsbD (1 : Word) 0 = true by decide, beq_self_eq_true, beq_self_eq_true]
    rfl

/-- The records TBLD writes hold their weights (R100). -/
theorem weightAt_overwrite (m : Memory 32) {nodes : List Node} {k : Nat} (hk : k < nodes.length) :
    weightAt (m.overwrite (nodes.flatMap Node.words)) k = some (nodeWeight nodes[k]) := by
  have h1 := overwrite_words_get m (j := 1) (by omega) hk
  have h2 := overwrite_words_get m (j := 2) (by omega) hk
  have hw : ∀ w : Weight,
      ((w.extractLsb' 32 8).setWidth 32 |>.extractLsb' 0 8).toNat * 2 ^ 32 + (w.extractLsb' 0 32).toNat = w.toNat := by
    intro w
    have := w.isLt
    simp only [BitVec.extractLsb'_toNat, BitVec.toNat_setWidth, Nat.shiftRight_eq_div_pow]
    omega
  cases hn : nodes[k] with
  | leaf sym w =>
    rw [hn] at h1 h2
    simp only [weightAt, h1, h2, Node.words, List.getElem?_cons_zero, List.getElem?_cons_succ, nodeWeight]
    rw [hw]
  | internal w left right =>
    rw [hn] at h1 h2
    simp only [weightAt, h1, h2, Node.words, List.getElem?_cons_zero, List.getElem?_cons_succ, nodeWeight]
    rw [hw]

@[simp] theorem codeRecord_length (bits : BitString) : (codeRecord bits).length = 9 := by simp [codeRecord]

/-- Word j of record `sym` among the cells CGEN writes. -/
theorem codeCells_get (tbl : List BitString) {sym j : Nat} (hs : sym < 256) (hj : j < 16) :
    (codeCells tbl).get (16 * sym + j) = (codeRecord (tbl.getD sym []))[j]? := by
  have key : ∀ n base, base ≤ sym → sym < base + n →
      Memory.get ((List.range' base n).flatMap fun s => Memory.from (16 * s) (codeRecord (tbl.getD s [])))
        (16 * sym + j) = (codeRecord (tbl.getD sym []))[j]? := by
    intro n
    induction n with
    | zero => intro base h1 h2; omega
    | succ n ih =>
      intro base h1 h2
      rw [List.range'_succ, List.flatMap_cons, Memory.get_append, Memory.get_from, if_pos (by omega)]
      by_cases he : base = sym
      · subst he
        rw [Nat.add_sub_cancel_left]
        cases hc : (codeRecord (tbl.getD base []))[j]? with
        | some w => simp
        | none =>
          simp only [Option.none_or]
          have hj9 : 9 ≤ j := by
            have := List.getElem?_eq_none_iff.1 hc
            simpa using this
          have : ∀ n b, base < b → Memory.get ((List.range' b n).flatMap fun s =>
              Memory.from (16 * s) (codeRecord (tbl.getD s []))) (16 * base + j) = none := by
            intro n
            induction n with
            | zero => intro b _; simp
            | succ n ihn =>
              intro b hb
              rw [List.range'_succ, List.flatMap_cons, Memory.get_append, Memory.get_from, if_neg (by omega)]
              simpa using ihn (b + 1) (by omega)
          exact this n (base + 1) (by omega)
      · have hn : (codeRecord (tbl.getD base []))[16 * sym + j - 16 * base]? = none := by
          apply List.getElem?_eq_none
          rw [codeRecord_length]; omega
        rw [hn, Option.none_or]
        exact ih (base + 1) (by omega) (by omega)
  have := key 256 0 (by omega) (by omega)
  simpa [codeCells, List.range_eq_range'] using this

/-- The records CGEN writes hold their codes (R101). -/
theorem codeCells_holds {tbl : List BitString} {sym : Nat} (hs : sym < 256) (hl : (tbl.getD sym []).length ≤ 255) :
    CodeRecordHolds (codeCells tbl) sym (tbl.getD sym []) := by
  have hg := fun j (hj : j < 16) => codeCells_get tbl hs hj
  generalize tbl.getD sym [] = bits at hl hg
  refine ⟨?_, fun i hi => ?_⟩
  · have h0 := hg 0 (by omega)
    rw [Nat.add_zero] at h0
    rw [h0]
    simp only [codeRecord, List.getElem?_cons_zero, Option.map_some, BitVec.extractLsb'_toNat, BitVec.toNat_ofNat]
    congr 1
    omega
  · rw [hg (1 + i / 32) (by omega), Nat.add_comm 1]
    have hj : i / 32 < 8 := by omega
    simp only [codeRecord, List.getElem?_cons_succ, List.getElem?_map, List.getElem?_range hj, Option.map_some]
    have hc : ((bits.drop (32 * (i / 32))).take 32).length ≤ 32 := by simp
    have hi2 : i % 32 < ((bits.drop (32 * (i / 32))).take 32).length := by simp; omega
    rw [wordOfBits_getLsbD hc hi2, List.getElem?_eq_getElem hi]
    simp only [List.getElem_take, List.getElem_drop]
    congr 2
    omega

end Sys2Proof.Machine
end

