-- ==== Sys2Proof/Laws/Packing.lean ====
section
/-! SUPPORT. Laws of counting, packing and unpacking: what countSymbols, encodeSymbols, packBuffer, unpackBuffer and
pbitsBytes do, said once. -/

namespace Sys2Proof.Machine

/-! ## Counting -/

theorem foldl_modify_length (bytes : List Byte) (cs : List Nat) :
    (bytes.foldl (fun cs b => cs.modify b.toNat (· + 1)) cs).length = cs.length := by
  induction bytes generalizing cs with
  | nil => rfl
  | cons b bytes ih => simp [ih]

theorem foldl_modify_getElem? (bytes : List Byte) (cs : List Nat) (k : Byte) :
    (bytes.foldl (fun cs b => cs.modify b.toNat (· + 1)) cs)[k.toNat]? = cs[k.toNat]?.map (· + bytes.count k) := by
  induction bytes generalizing cs with
  | nil => simp
  | cons b bytes ih =>
    rw [List.foldl_cons, ih, List.getElem?_modify]
    by_cases h : b = k
    · subst h
      cases cs[b.toNat]? <;> simp [Nat.add_assoc, Nat.add_comm]
    · have hk : b.toNat ≠ k.toNat := fun e => h (BitVec.eq_of_toNat_eq e)
      simp [hk, h]

@[simp] theorem countSymbols_length (bytes : List Byte) : (countSymbols bytes).length = 256 := by
  rw [countSymbols, foldl_modify_length, List.length_replicate]; rfl

/-- The count of each symbol is the number of its occurrences (R130). -/
theorem countSymbols_eq (bytes : List Byte) :
    countSymbols bytes = (List.range 256).map fun k => bytes.count (BitVec.ofNat 8 k) := by
  apply List.ext_getElem?
  intro k
  by_cases hk : k < 256
  · have h := foldl_modify_getElem? bytes (List.replicate Config.alpha 0) (BitVec.ofNat 8 k)
    rw [show (BitVec.ofNat 8 k).toNat = k from by simpa using Nat.mod_eq_of_lt hk] at h
    rw [countSymbols, h, List.getElem?_replicate, if_pos (show k < Config.alpha from hk)]
    simp [hk]
  · rw [List.getElem?_eq_none (by simpa using hk), List.getElem?_eq_none (by simpa using hk)]

theorem sum_modify (cs : List Nat) (k : Nat) (h : k < cs.length) : (cs.modify k (· + 1)).sum = cs.sum + 1 := by
  induction cs generalizing k with
  | nil => simp at h
  | cons c cs ih =>
    cases k with
    | zero => simp; omega
    | succ k => simp only [List.length_cons] at h; simp [ih k (by omega)]; omega

/-- The counts add up to the length of the input (R131). -/
theorem countSymbols_sum (bytes : List Byte) : (countSymbols bytes).sum = bytes.length := by
  have key : ∀ (bs : List Byte) (cs : List Nat), cs.length = 256 →
      (bs.foldl (fun cs b => cs.modify b.toNat (· + 1)) cs).sum = cs.sum + bs.length := by
    intro bs
    induction bs with
    | nil => simp
    | cons b bs ih =>
      intro cs h
      rw [List.foldl_cons, ih _ (by simpa using h), sum_modify _ _ (by rw [h]; exact b.isLt), List.length_cons]
      omega
  rw [countSymbols, key _ _ (by rw [List.length_replicate]; rfl), List.sum_replicate]
  simp

/-! ## Encoding and packing -/

@[simp] theorem encoded_nil (tbl : List BitString) : encoded tbl [] = [] := rfl

@[simp] theorem encoded_cons (tbl : List BitString) (x : Byte) (xs : List Byte) :
    encoded tbl (x :: xs) = codeOf tbl x ++ encoded tbl xs := by simp [encoded]

theorem encoded_append (tbl : List BitString) (xs ys : List Byte) :
    encoded tbl (xs ++ ys) = encoded tbl xs ++ encoded tbl ys := by simp [encoded]

/-- The symbol scan succeeds exactly when every symbol has a code (R175). -/
theorem encodeSymbols_ok_iff {tbl : List BitString} {i : Nat} {bytes : List Byte} {b : BitString} :
    encodeSymbols tbl i bytes = .ok b ↔ AllCoded tbl bytes ∧ b = encoded tbl bytes := by
  induction bytes generalizing i b with
  | nil =>
    simp only [encodeSymbols, Except.ok.injEq, encoded_nil]
    exact ⟨fun h => ⟨nofun, h.symm⟩, fun h => h.2.symm⟩
  | cons x xs ih =>
    unfold encodeSymbols
    by_cases h : codeOf tbl x = []
    · simp [h]
    · simp only [h, if_false, bind_ok_iff, ih, pure, Except.pure, Except.ok.injEq, AllCoded, List.forall_mem_cons,
        encoded_cons]
      constructor
      · rintro ⟨c, ⟨hc, rfl⟩, rfl⟩; exact ⟨⟨by simpa using h, hc⟩, rfl⟩
      · rintro ⟨⟨-, hc⟩, rfl⟩; exact ⟨_, ⟨hc, rfl⟩, rfl⟩

/-- The symbol scan stops at the first symbol without a code (R178). -/
theorem encodeSymbols_error {tbl : List BitString} {i j : Nat} {bytes : List Byte} {x : Byte}
    (ha : AllCoded tbl (bytes.take j)) (hx : bytes[j]? = some x) (h : codeOf tbl x = []) :
    encodeSymbols tbl i bytes = .error (.raise .unknownSymbol (BitVec.ofNat 32 (i + j))) := by
  induction bytes generalizing i j with
  | nil => simp at hx
  | cons y ys ih =>
    unfold encodeSymbols
    cases j with
    | zero => simp at hx; subst hx; simp [h]
    | succ j =>
      simp only [AllCoded, List.take_succ_cons, List.forall_mem_cons] at ha
      rw [if_neg ha.1, ih (i := i + 1) ha.2 (by simpa using hx)]
      simp only [bind, Except.bind, Nat.add_assoc, Nat.add_comm 1 j]

@[simp] theorem packBuffer_length (b : BitString) : (packBuffer b).length = 2 + b.length / 8 := by
  simp [packBuffer, padded_bytes]; omega

/-- The buffer BPACK writes, as bits (R181). -/
theorem bitsOf_packBuffer (b : BitString) : bitsOf (packBuffer b) =
    bits8 (BitVec.ofNat 8 (padLength b.length)) ++ b ++ List.replicate (padLength b.length) false := by
  rw [packBuffer, bitsOf_cons, bitsOf_packBytes (by simpa using padLength_aligns b.length), List.append_assoc]

/-! ## Unpacking -/

/-- The unpacking of a buffer of at least one byte (R190, R191). -/
theorem unpackBuffer_cons (h : Byte) (rest : List Byte) : unpackBuffer (h :: rest) =
    if h.toNat < 1 ∨ 8 < h.toNat ∨ 8 * rest.length < h.toNat then
      .error (.raise .corruptPadding (h.setWidth 32))
    else .ok ((bitsOf rest).take (8 * rest.length - h.toNat)) := by
  have h1 : (bits8 h ++ bitsOf rest).take 8 = bits8 h := List.take_left' (bits8_length h)
  have h2 : (bits8 h ++ bitsOf rest).drop 8 = bitsOf rest := List.drop_left' (bits8_length h)
  have h3 : BitVec.ofNat 32 h.toNat = h.setWidth 32 := by simp
  simp only [unpackBuffer, bitsOf_cons, h1, h2, byte8_bits8, bitsOf_length, h3]
  split_ifs <;> first | rfl | omega

theorem unpacksTo_iff {bytes : List Byte} {bits : BitString} (hne : bytes ≠ []) :
    UnpacksTo bytes bits ↔ unpackBuffer bytes = .ok bits := by
  cases bytes with
  | nil => exact absurd rfl hne
  | cons h rest =>
    rw [unpackBuffer_cons]
    simp only [UnpacksTo, List.headD_cons, List.tail_cons, List.length_cons, Nat.add_sub_cancel]
    split_ifs with hc
    · simp only [iff_false]; omega
    · simp only [Except.ok.injEq]
      constructor
      · rintro ⟨-, -, -, rfl⟩; rfl
      · rintro rfl; exact ⟨by omega, by omega, by omega, rfl⟩

/-- Unpacking what packing wrote (R196). -/
theorem unpackBuffer_packBuffer (b : BitString) : unpackBuffer (packBuffer b) = .ok b := by
  have hp := padLength_pos b.length
  have hl := padLength_le b.length
  have ha := padLength_aligns b.length
  have ht : (BitVec.ofNat 8 (padLength b.length)).toNat = padLength b.length := by
    rw [BitVec.toNat_ofNat, Nat.mod_eq_of_lt (Nat.lt_of_le_of_lt hl (by decide))]
  have hb : (packBytes (b ++ List.replicate (padLength b.length) false)).length = (b.length + padLength b.length) / 8 := by
    simp
  rw [packBuffer, unpackBuffer_cons, ht, bitsOf_packBytes (by simpa using ha), hb, if_neg]
  · have he : 8 * ((b.length + padLength b.length) / 8) - padLength b.length = b.length := by omega
    rw [he, List.take_left]
  · omega

/-- The bytes BUNPK stores hold the bit string, whatever the free bits are (R103). -/
theorem pbitsBytes_length (b : BitString) (free : Byte) : (pbitsBytes b free).length = (b.length + 7) / 8 := by
  simp [pbitsBytes]; omega

theorem take_bitsOf_pbitsBytes (b : BitString) (free : Byte) : (bitsOf (pbitsBytes b free)).take b.length = b := by
  rw [pbitsBytes, bitsOf_packBytes (by simp; omega)]
  exact List.take_left

end Sys2Proof.Machine
end

