-- ==== Sys2Proof/Laws/Codes.lean ====
section
/-! SUPPORT. Laws of code tables: WF_CODE as a statement about symbols, the inverse mapping, decoding by the table. -/

namespace Sys2Proof.Machine

variable {tbl : List BitString} {x y : Byte} {c : BitString}

theorem codeOf_eq_getElem? (h : codeOf tbl x ≠ []) : tbl[x.toNat]? = some (codeOf tbl x) := by
  unfold codeOf at h ⊢
  rw [List.getD_eq_getElem?_getD] at h ⊢
  cases hx : tbl[x.toNat]? with
  | none => simp [hx] at h
  | some c => simp

theorem not_prefix_of_lt (hs : codeShape tbl = true) {i j : Nat} (hij : i < j) {a b : BitString} (ha : tbl[i]? = some a)
    (hb : tbl[j]? = some b) (ha0 : a ≠ []) (hb0 : b ≠ []) : ¬ a <+: b ∧ ¬ b <+: a := by
  unfold codeShape at hs
  simp only [Bool.and_eq_true, decide_eq_true_eq, List.pairwise_filter, isPrefix, List.isPrefixOf_iff_prefix] at hs
  obtain ⟨hi, rfl⟩ := List.getElem?_eq_some_iff.1 ha
  obtain ⟨hj, rfl⟩ := List.getElem?_eq_some_iff.1 hb
  exact List.pairwise_iff_getElem.1 hs.2 i j hi hj hij (by simpa using ha0) (by simpa using hb0)

/-- WF_CODE (R27): no code is a prefix of the code of another symbol. -/
theorem codeShape_prefix_free (hs : codeShape tbl = true) (hxy : x ≠ y) (hx : codeOf tbl x ≠ []) (hy : codeOf tbl y ≠ []) :
    ¬ codeOf tbl x <+: codeOf tbl y := by
  have hne : x.toNat ≠ y.toNat := fun h => hxy (BitVec.eq_of_toNat_eq h)
  rcases Nat.lt_or_gt_of_ne hne with h | h
  · exact (not_prefix_of_lt hs h (codeOf_eq_getElem? hx) (codeOf_eq_getElem? hy) hx hy).1
  · exact (not_prefix_of_lt hs h (codeOf_eq_getElem? hy) (codeOf_eq_getElem? hx) hy hx).2

/-- Two symbols of which one's code begins the other's are the same symbol. -/
theorem eq_of_code_prefix (hs : codeShape tbl = true) (hx : codeOf tbl x ≠ []) (hy : codeOf tbl y ≠ [])
    (h : codeOf tbl x <+: codeOf tbl y) : x = y := by
  by_contra hxy
  exact codeShape_prefix_free hs hxy hx hy h

/-- A table whose non-empty codes are prefix-free and not all missing meets WF_CODE. -/
theorem codeShape_of_prefix_free (hn : tbl.length = 256) (hx : codeOf tbl x ≠ [])
    (h : ∀ a b : Byte, a ≠ b → codeOf tbl a ≠ [] → codeOf tbl b ≠ [] → ¬ codeOf tbl a <+: codeOf tbl b) :
    codeShape tbl = true := by
  have hget : ∀ k (hk : k < tbl.length), tbl[k] = codeOf tbl (BitVec.ofNat 8 k) := by
    intro k hk
    have : (BitVec.ofNat 8 k).toNat = k := by simp; omega
    rw [codeOf, this, List.getD_eq_getElem?_getD, List.getElem?_eq_getElem hk, Option.getD_some]
  unfold codeShape
  simp only [Bool.and_eq_true, decide_eq_true_eq, List.pairwise_filter, isPrefix, List.isPrefixOf_iff_prefix]
  refine ⟨?_, List.pairwise_iff_getElem.2 fun i j hi hj hij hi0 hj0 => ?_⟩
  · have hm : codeOf tbl x ∈ tbl.filter fun c => !c.isEmpty :=
      List.mem_filter.2 ⟨List.mem_of_getElem? (codeOf_eq_getElem? hx), by simpa using hx⟩
    cases hf : tbl.filter fun c => !c.isEmpty with
    | nil => rw [hf] at hm; cases hm
    | cons => rfl
  · have hne : BitVec.ofNat 8 i ≠ BitVec.ofNat 8 j := by
      intro e
      have := congrArg BitVec.toNat e
      simp at this
      omega
    rw [hget i hi, hget j hj] at *
    simp only [Bool.not_eq_eq_eq_not, Bool.not_true, List.isEmpty_eq_false_iff] at hi0 hj0
    exact ⟨h _ _ hne hi0 hj0, h _ _ hne.symm hj0 hi0⟩

/-! ## INV (R26) -/

theorem inv_some (hx : inv tbl c = some x) : c ≠ [] ∧ codeOf tbl x = c := by
  unfold inv at hx
  split at hx
  · cases hx
  · rename_i hc
    refine ⟨hc, ?_⟩
    obtain ⟨k, hk, rfl⟩ := Option.map_eq_some_iff.1 hx
    have h1 := List.find?_some hk
    have h2 := List.mem_range.1 (List.mem_of_find?_eq_some hk)
    have : (BitVec.ofNat 8 k).toNat = k := by simp; omega
    rw [codeOf, this]
    simpa using h1

theorem inv_none (hx : inv tbl c = none) : codeOf tbl x = c → c = [] := by
  intro h
  by_contra hc
  unfold inv at hx
  rw [if_neg hc, Option.map_eq_none_iff, List.find?_eq_none] at hx
  have := hx x.toNat (List.mem_range.2 x.isLt)
  rw [← codeOf, h] at this
  simp at this

/-- INV is the inverse of a well-formed table (R26). -/
theorem inv_eq_some_iff (hs : codeShape tbl = true) : inv tbl c = some x ↔ c ≠ [] ∧ codeOf tbl x = c := by
  constructor
  · exact inv_some
  · rintro ⟨hc, h⟩
    cases hi : inv tbl c with
    | none => exact absurd (inv_none hi h) hc
    | some y =>
      obtain ⟨-, hy⟩ := inv_some hi
      rw [eq_of_code_prefix hs (x := y) (y := x) (hy.trans_ne hc) (h.trans_ne hc) (by rw [h, hy])]

/-- No proper prefix of a code is a code. -/
theorem inv_of_proper_prefix (hs : codeShape tbl = true) {p q : BitString} (hq : q ≠ []) (hx : codeOf tbl x = p ++ q) :
    inv tbl p = none := by
  by_contra hne
  obtain ⟨y, hy⟩ := Option.ne_none_iff_exists'.1 hne
  obtain ⟨hp, hy⟩ := inv_some hy
  have hx0 : codeOf tbl x ≠ [] := by rw [hx]; simp [hq]
  have := eq_of_code_prefix hs (x := y) (y := x) (hy.trans_ne hp) hx0 (by rw [hx, hy]; exact List.prefix_append _ _)
  subst this
  rw [hy] at hx
  exact hq (by simpa using hx)

/-! ## Decoding by the table (R205) -/

/-- One codeword: the loop reads the rest of it and emits its symbol. -/
theorem decodeTableLoop_code (hs : codeShape tbl = true) {m j : Nat} {p q bs : BitString} {out : List Byte} (hq : q ≠ [])
    (hx : codeOf tbl x = p ++ q) : decodeTableLoop tbl m j p out (q ++ bs) =
      if out.length = m then .error (.raise .capacity 1)
      else decodeTableLoop tbl m (j + q.length) [] (out ++ [x]) bs := by
  induction q generalizing p j with
  | nil => exact absurd rfl hq
  | cons b q ih =>
    rw [List.cons_append, decodeTableLoop]
    cases q with
    | nil => rw [(inv_eq_some_iff hs).2 ⟨by simp, hx⟩]; rfl
    | cons b' q =>
      rw [inv_of_proper_prefix hs (x := x) (q := b' :: q) (by simp) (by simpa using hx)]
      simp only
      rw [ih (by simp) (by simpa using hx), List.length_cons, Nat.add_assoc, Nat.add_comm 1]
      rfl

/-- A concatenation of codes, as far as OUT has room. -/
theorem decodeTableLoop_encoded (hs : codeShape tbl = true) {m j : Nat} {syms out : List Byte} {bs : BitString}
    (ha : AllCoded tbl syms) (hm : out.length + syms.length ≤ m) :
    decodeTableLoop tbl m j [] out (encoded tbl syms ++ bs) =
      decodeTableLoop tbl m (j + (encoded tbl syms).length) [] (out ++ syms) bs := by
  induction syms generalizing j out with
  | nil => simp
  | cons x xs ih =>
    simp only [AllCoded, List.forall_mem_cons] at ha
    rw [List.length_cons] at hm
    rw [encoded_cons, List.append_assoc, decodeTableLoop_code hs (x := x) (p := []) ha.1 rfl, if_neg (by omega),
      ih ha.2 (by simp; omega)]
    simp [Nat.add_assoc]

/-- Bits that start with no code are collected to the end. -/
theorem decodeTableLoop_rest {m j : Nat} {p bs : BitString} {out : List Byte}
    (h : ∀ x, codeOf tbl x ≠ [] → ¬ codeOf tbl x <+: p ++ bs) : decodeTableLoop tbl m j p out bs =
      if p ++ bs = [] then .ok out else .error (.raise .invalidCode (BitVec.ofNat 32 (j - p.length))) := by
  induction bs generalizing p j with
  | nil => simp [decodeTableLoop]
  | cons b bs ih =>
    have hn : inv tbl (p ++ [b]) = none := by
      by_contra hne
      obtain ⟨y, hy⟩ := Option.ne_none_iff_exists'.1 hne
      obtain ⟨hp, hy⟩ := inv_some hy
      exact h y (by rw [hy]; exact hp) (by rw [hy]; exact ⟨bs, by simp⟩)
    rw [decodeTableLoop, hn]
    simp only
    rw [ih (by simpa using h)]
    simp

/-- Decoding by the table (R205, R209): the symbols of the codes, if nothing is left over. -/
theorem decodeByTable_encoded (hs : codeShape tbl = true) {m : Nat} {syms : List Byte} {rest : BitString}
    (ha : AllCoded tbl syms) (hm : syms.length ≤ m) (hr : ∀ x, codeOf tbl x ≠ [] → ¬ codeOf tbl x <+: rest) :
    decodeByTable tbl m (encoded tbl syms ++ rest) =
      if rest = [] then .ok syms
      else .error (.raise .invalidCode (BitVec.ofNat 32 (encoded tbl syms).length)) := by
  rw [decodeByTable, decodeTableLoop_encoded hs ha (by simpa using hm), decodeTableLoop_rest (by simpa using hr)]
  simp

/-- A symbol too many (R210). -/
theorem decodeByTable_overflow (hs : codeShape tbl = true) {m : Nat} {syms : List Byte} {bs : BitString}
    (ha : AllCoded tbl syms) (hm : syms.length = m + 1) :
    decodeByTable tbl m (encoded tbl syms ++ bs) = .error (.raise .capacity 1) := by
  obtain ⟨xs, y, rfl⟩ : ∃ xs y, syms = xs ++ [y] := by
    have : syms ≠ [] := by rintro rfl; simp at hm
    exact ⟨_, _, (List.dropLast_append_getLast this).symm⟩
  have hxs : xs.length = m := by simpa using hm
  have ha1 : AllCoded tbl xs := fun z hz => ha z (by simp [hz])
  have ha2 : codeOf tbl y ≠ [] := ha y (by simp)
  rw [decodeByTable, encoded_append, encoded_cons, encoded_nil, List.append_nil, List.append_assoc,
    decodeTableLoop_encoded hs ha1 (by simp [hxs]), List.nil_append, decodeTableLoop_code hs (x := y) (p := []) ha2 rfl,
    if_pos hxs]

end Sys2Proof.Machine
end

