-- ==== Sys2Proof/Laws/Trees.lean ====
section
/-! SUPPORT. Laws of well-formed trees: paths from the root, the codes CGEN derives, Kraft's sum. -/

namespace Sys2Proof.Machine

variable {links : List Link} {root : Nat}

/-! ## Child numbers -/

theorem childOf_mem {k a b : Nat} (h : links[k]? = some (Link.branch a b)) (bit : Bool) :
    childOf a b bit ∈ childNums links := by
  simp only [childNums, List.mem_flatMap]
  exact ⟨.branch a b, List.mem_of_getElem? h, by cases bit <;> simp [childOf]⟩

theorem mem_childNums {c : Nat} (h : c ∈ childNums links) :
    ∃ k a b : Nat, links[k]? = some (Link.branch a b) ∧ (c = a ∨ c = b) := by
  simp only [childNums, List.mem_flatMap] at h
  obtain ⟨l, hl, hc⟩ := h
  obtain ⟨k, hk⟩ := List.mem_iff_getElem?.1 hl
  cases l with
  | leaf => simp at hc
  | branch a b => exact ⟨k, a, b, hk, by simpa using hc⟩

/-! ## WF_TREE, items 1 to 5 (R24), as a record -/

/-- What treeShape checks, item by item, but for reachability from the root. -/
structure TreeCore (links : List Link) (root : Nat) : Prop where
  pos : 1 ≤ links.length
  small : links.length ≤ 511
  odd : links.length % 2 = 1
  leaf_count : (leafSyms links).length = (links.length + 1) / 2
  root_lt : root < links.length
  in_range : ∀ k a b : Nat, links[k]? = some (Link.branch a b) → a < links.length ∧ b < links.length ∧ a ≠ b
  parents : ∀ k < links.length, (childNums links).count k = if k = root then 0 else 1
  syms_nodup : (leafSyms links).Nodup

/-- What treeShape checks, item by item. -/
structure GoodTree (links : List Link) (root : Nat) : Prop extends TreeCore links root where
  reached : ∀ k < links.length, (reach links links.length root).count k = 1

theorem treeShape_iff : treeShape links root = true ↔ GoodTree links root := by
  have hall : links.all (linkInRange links.length) = true ↔
      ∀ k a b : Nat, links[k]? = some (Link.branch a b) → a < links.length ∧ b < links.length ∧ a ≠ b := by
    rw [List.all_eq_true]
    constructor
    · intro h k a b hk
      have := h _ (List.mem_of_getElem? hk)
      simpa [linkInRange, and_assoc] using this
    · intro h l hl
      obtain ⟨k, hk⟩ := List.mem_iff_getElem?.1 hl
      cases l with
      | leaf => rfl
      | branch a b => simpa [linkInRange, and_assoc] using h k a b hk
  unfold treeShape
  simp only [Bool.and_eq_true, decide_eq_true_eq, beq_iff_eq, hall, List.all_eq_true, List.mem_range]
  constructor
  · rintro ⟨⟨⟨⟨⟨⟨⟨h1, h2⟩, h3⟩, h4⟩, h5, h6⟩, h7⟩, h8⟩, h9⟩
    exact ⟨⟨h1, h2, h3, h4, h5, h6, h7, h9⟩, h8⟩
  · rintro ⟨⟨h1, h2, h3, h4, h5, h6, h7, h9⟩, h8⟩
    exact ⟨⟨⟨⟨⟨⟨⟨h1, h2⟩, h3⟩, h4⟩, h5, h6⟩, h7⟩, h8⟩, h9⟩

/-! ## Walks -/

@[simp] theorem walk_nil (links : List Link) (v : Nat) : walk links v [] = some v := rfl

theorem walk_append (links : List Link) (v : Nat) (p q : BitString) :
    walk links v (p ++ q) = (walk links v p).bind fun u => walk links u q := by
  induction p generalizing v with
  | nil => rfl
  | cons b p ih =>
    rw [List.cons_append, walk, walk]
    cases links[v]? with
    | none => rfl
    | some l => cases l with
      | leaf => rfl
      | branch a b => exact ih _

/-- The last step of a walk. -/
theorem walk_snoc {v c : Nat} {p : BitString} {bit : Bool} : walk links v (p ++ [bit]) = some c ↔
    ∃ u a b : Nat, walk links v p = some u ∧ links[u]? = some (Link.branch a b) ∧ c = childOf a b bit := by
  rw [walk_append, Option.bind_eq_some_iff]
  constructor
  · rintro ⟨u, hu, h⟩
    rw [walk] at h
    cases hl : links[u]? with
    | none => simp [hl] at h
    | some l => cases l with
      | leaf => simp [hl] at h
      | branch a b =>
        simp only [hl, walk, Option.some.injEq] at h
        exact ⟨u, a, b, hu, hl, h.symm⟩
  · rintro ⟨u, a, b, hu, hl, rfl⟩
    exact ⟨u, hu, by simp [walk, hl, childOf]⟩

theorem walk_leaf {v : Nat} {sym : Byte} (h : links[v]? = some (Link.leaf sym)) {p : BitString} (hp : p ≠ []) :
    walk links v p = none := by
  cases p with
  | nil => exact absurd rfl hp
  | cons b p => rw [walk, h]

namespace TreeCore

variable (g : TreeCore links root)

include g

theorem child_lt {k a b : Nat} (h : links[k]? = some (Link.branch a b)) (bit : Bool) : childOf a b bit < links.length := by
  obtain ⟨h1, h2, -⟩ := g.in_range k a b h
  cases bit <;> assumption

theorem walk_lt {p : BitString} {v : Nat} (h : walk links root p = some v) : v < links.length := by
  induction p using List.reverseRecOn with
  | nil => cases h; exact g.root_lt
  | append_singleton p bit _ =>
    obtain ⟨u, a, b, -, hl, rfl⟩ := walk_snoc.1 h
    exact g.child_lt hl bit

theorem childNums_nodup : (childNums links).Nodup := by
  rw [List.nodup_iff_count_le_one]
  intro c
  by_cases hc : c ∈ childNums links
  · obtain ⟨k, a, b, hk, h⟩ := mem_childNums hc
    obtain ⟨h1, h2, -⟩ := g.in_range k a b hk
    have := g.parents c (by rcases h with rfl | rfl <;> assumption)
    split at this <;> omega
  · rw [List.count_eq_zero_of_not_mem hc]; omega

theorem root_not_child {k a b : Nat} (h : links[k]? = some (Link.branch a b)) (bit : Bool) : childOf a b bit ≠ root := by
  intro e
  have h1 := g.parents root g.root_lt
  rw [if_pos rfl, List.count_eq_zero] at h1
  exact h1 (e ▸ childOf_mem h bit)

/-- A node has one parent and is its left or its right child. -/
theorem parent_unique {k k' a b a' b' : Nat} {bit bit' : Bool} (h : links[k]? = some (Link.branch a b))
    (h' : links[k']? = some (Link.branch a' b')) (e : childOf a b bit = childOf a' b' bit') : k = k' ∧ bit = bit' := by
  have hk : k = k' := by
    by_contra hne
    have hn := g.childNums_nodup
    unfold childNums at hn
    rw [List.nodup_flatMap] at hn
    obtain ⟨hi, hl⟩ := List.getElem?_eq_some_iff.1 h
    obtain ⟨hi', hl'⟩ := List.getElem?_eq_some_iff.1 h'
    have hd := fun (i j : Nat) (hi : i < links.length) (hj : j < links.length) (hij : i < j) =>
      List.pairwise_iff_getElem.1 hn.2 i j hi hj hij
    have m1 : childOf a b bit ∈ [a, b] := by cases bit <;> simp [childOf]
    have m2 : childOf a b bit ∈ [a', b'] := by rw [e]; cases bit' <;> simp [childOf]
    rcases Nat.lt_or_gt_of_ne hne with hlt | hlt
    · have := hd k k' hi hi' hlt
      simp only [Function.onFun, hl, hl'] at this
      exact this m1 m2
    · have := hd k' k hi' hi hlt
      simp only [Function.onFun, hl, hl'] at this
      exact this m2 m1
  subst hk
  rw [h] at h'
  cases h'
  obtain ⟨-, -, hab⟩ := g.in_range k a b h
  refine ⟨rfl, ?_⟩
  cases bit <;> cases bit' <;> simp_all [childOf]

/-- Two strings that lead from the root to one node are the same. -/
theorem walk_inj {p q : BitString} {v : Nat} (hp : walk links root p = some v) (hq : walk links root q = some v) :
    p = q := by
  induction p using List.reverseRecOn generalizing q v with
  | nil =>
    cases hp
    induction q using List.reverseRecOn with
    | nil => rfl
    | append_singleton q bit _ =>
      obtain ⟨u, a, b, -, hl, e⟩ := walk_snoc.1 hq
      exact absurd e.symm (g.root_not_child hl bit)
  | append_singleton p bit ih =>
    obtain ⟨u, a, b, hu, hl, rfl⟩ := walk_snoc.1 hp
    induction q using List.reverseRecOn with
    | nil => cases hq; exact absurd rfl (g.root_not_child hl bit)
    | append_singleton q bit' _ =>
      obtain ⟨u', a', b', hu', hl', e⟩ := walk_snoc.1 hq
      obtain ⟨rfl, rfl⟩ := g.parent_unique hl hl' e
      rw [ih hu hu']

/-! ## Leaves -/

theorem leaf_unique {k k' : Nat} {sym : Byte} (h : links[k]? = some (Link.leaf sym)) (h' : links[k']? = some (Link.leaf sym)) :
    k = k' := by
  by_contra hne
  have hn := g.syms_nodup
  unfold leafSyms List.Nodup at hn
  rw [List.pairwise_filterMap] at hn
  obtain ⟨hi, hl⟩ := List.getElem?_eq_some_iff.1 h
  obtain ⟨hi', hl'⟩ := List.getElem?_eq_some_iff.1 h'
  rcases Nat.lt_or_gt_of_ne hne with hlt | hlt
  · have := List.pairwise_iff_getElem.1 hn k k' hi hi' hlt
    rw [hl, hl'] at this
    exact this sym rfl sym rfl rfl
  · have := List.pairwise_iff_getElem.1 hn k' k hi' hi hlt
    rw [hl, hl'] at this
    exact this sym rfl sym rfl rfl

end TreeCore

theorem mem_leafSyms {sym : Byte} : sym ∈ leafSyms links ↔ ∃ k : Nat, links[k]? = some (Link.leaf sym) := by
  simp only [leafSyms, List.mem_filterMap]
  constructor
  · rintro ⟨l, hl, h⟩
    obtain ⟨k, hk⟩ := List.mem_iff_getElem?.1 hl
    cases l with
    | leaf s => cases h; exact ⟨k, hk⟩
    | branch a b => cases h
  · rintro ⟨k, hk⟩
    exact ⟨_, List.mem_of_getElem? hk, rfl⟩

theorem leafAt_eq_some_iff {v : Nat} {c : BitString} {sym : Byte} :
    leafAt links v c = some sym ↔ ∃ k : Nat, walk links v c = some k ∧ links[k]? = some (Link.leaf sym) := by
  unfold leafAt
  cases hw : walk links v c with
  | none => simp
  | some k =>
    simp only [Option.bind_some, Option.some.injEq, exists_eq_left']
    cases links[k]? with
    | none => simp
    | some l => cases l <;> simp

theorem mem_reach {fuel v k : Nat} : k ∈ reach links fuel v ↔ ∃ p : BitString, p.length < fuel ∧ walk links v p = some k := by
  induction fuel generalizing v with
  | zero => simp [reach]
  | succ fuel ih =>
    rw [reach]
    cases hl : links[v]? with
    | none =>
      simp only [List.mem_singleton]
      constructor
      · rintro rfl; exact ⟨[], by simp, rfl⟩
      · rintro ⟨p, -, h⟩
        cases p with
        | nil => simpa using h.symm
        | cons b p => simp [walk, hl] at h
    | some l => cases l with
      | leaf s =>
        simp only [List.mem_singleton]
        constructor
        · rintro rfl; exact ⟨[], by simp, rfl⟩
        · rintro ⟨p, -, h⟩
          cases p with
          | nil => simpa using h.symm
          | cons b p => simp [walk, hl] at h
      | branch a b =>
        simp only [List.mem_cons, List.mem_append, ih]
        constructor
        · rintro (rfl | ⟨p, hp, h⟩ | ⟨p, hp, h⟩)
          · exact ⟨[], by simp, rfl⟩
          · exact ⟨false :: p, by simpa using hp, by simpa [walk, hl] using h⟩
          · exact ⟨true :: p, by simpa using hp, by simpa [walk, hl] using h⟩
        · rintro ⟨p, hp, h⟩
          cases p with
          | nil => left; simpa using h.symm
          | cons bit p =>
            right
            rw [List.length_cons] at hp
            cases bit
            · left; exact ⟨p, by omega, by simpa [walk, hl] using h⟩
            · right; exact ⟨p, by omega, by simpa [walk, hl] using h⟩

/-- The leaves leafPaths meets, each with its path (R160). -/
theorem mem_leafPaths {fuel v : Nat} {pre path : BitString} {sym : Byte} :
    (sym, path) ∈ leafPaths links fuel v pre ↔
      ∃ c : BitString, path = pre ++ c ∧ c.length < fuel ∧ leafAt links v c = some sym := by
  induction fuel generalizing v pre with
  | zero => simp [leafPaths]
  | succ fuel ih =>
    rw [leafPaths]
    cases hl : links[v]? with
    | none =>
      simp only [List.not_mem_nil, false_iff, not_exists, not_and]
      rintro c - - h
      obtain ⟨k, hk, h⟩ := leafAt_eq_some_iff.1 h
      cases c with
      | nil => cases hk; rw [hl] at h; cases h
      | cons b c => simp [walk, hl] at hk
    | some l => cases l with
      | leaf s =>
        simp only [List.mem_singleton, Prod.mk.injEq]
        constructor
        · rintro ⟨rfl, rfl⟩
          exact ⟨[], by simp, by simp, leafAt_eq_some_iff.2 ⟨v, rfl, hl⟩⟩
        · rintro ⟨c, rfl, -, h⟩
          obtain ⟨k, hk, h⟩ := leafAt_eq_some_iff.1 h
          cases c with
          | nil => cases hk; rw [hl] at h; cases h; simp
          | cons b c => simp [walk, hl] at hk
      | branch a b =>
        simp only [List.mem_append, ih]
        constructor
        · rintro (⟨c, rfl, hc, h⟩ | ⟨c, rfl, hc, h⟩)
          · refine ⟨false :: c, by simp, by simpa using hc, ?_⟩
            simpa [leafAt, walk, hl] using h
          · refine ⟨true :: c, by simp, by simpa using hc, ?_⟩
            simpa [leafAt, walk, hl] using h
        · rintro ⟨c, rfl, hc, h⟩
          cases c with
          | nil => simp [leafAt, hl] at h
          | cons bit c =>
            rw [List.length_cons] at hc
            cases bit
            · left; exact ⟨c, by simp, by omega, by simpa [leafAt, walk, hl] using h⟩
            · right; exact ⟨c, by simp, by omega, by simpa [leafAt, walk, hl] using h⟩

end Sys2Proof.Machine
end

