-- ==== Sys2Proof/Laws/TreeCodes.lean ====
section
/-! SUPPORT. Laws of the table CGEN derives from a well-formed tree: codes are leaf paths, prefix-free, short, and their
Kraft sum is that of a complete tree (R160 to R165). -/

namespace Sys2Proof.Machine

variable {links : List Link} {root : Nat}

/-! ## Depth -/

theorem leafSyms_length (ls : List Link) : (leafSyms ls).length + ls.countP (fun l => match l with
    | .leaf _ => false | .branch _ _ => true) = ls.length := by
  induction ls with
  | nil => rfl
  | cons l ls ih =>
    cases l <;> simp only [leafSyms, List.filterMap_cons, List.countP_cons, List.length_cons] at ih ⊢ <;> simp <;> omega

/-- Whether a node is internal. -/
def isBranchAt (links : List Link) (k : Nat) : Bool :=
  match links[k]? with
  | some (.branch _ _) => true
  | some (.leaf _) => false
  | none => false

theorem branch_count : ((List.range links.length).filter (isBranchAt links)).length + (leafSyms links).length =
    links.length := by
  rw [← List.countP_eq_length_filter, Nat.add_comm]
  conv_rhs => rw [← leafSyms_length links]
  congr 1
  have : links.countP (fun l => match l with | .leaf _ => false | .branch _ _ => true) =
      ((List.range links.length).map fun k => links[k]?).countP (fun o => match o with
        | some (.branch _ _) => true | some (.leaf _) => false | none => false) := by
    rw [show ((List.range links.length).map fun k => links[k]?) = links.map some from by
      apply List.ext_getElem?
      intro k
      by_cases hk : k < links.length
      · simp [hk]
      · simp [hk]]
    rw [List.countP_map]
    congr 1
    funext l
    cases l <;> rfl
  rw [this, List.countP_map]
  rfl

namespace TreeCore

variable (g : TreeCore links root)

include g

/-- A path from the root has at most as many bits as there are internal nodes. -/
theorem walk_length {p : BitString} {v : Nat} (h : walk links root p = some v) :
    p.length + 1 ≤ (leafSyms links).length := by
  have hinj : ((List.range p.length).map fun i => (walk links root (p.take i)).getD 0).Nodup := by
    rw [List.nodup_map_iff_inj_on List.nodup_range]
    intro i hi j hj e
    rw [List.mem_range] at hi hj
    have hw : ∀ i, ∃ u, walk links root (p.take i) = some u := by
      intro i
      rw [← List.take_append_drop i p, walk_append, Option.bind_eq_some_iff] at h
      obtain ⟨u, hu, -⟩ := h
      exact ⟨u, hu⟩
    obtain ⟨u, hu⟩ := hw i
    obtain ⟨u', hu'⟩ := hw j
    simp only [hu, hu', Option.getD_some] at e
    subst e
    have := congrArg List.length (g.walk_inj hu hu')
    simp at this
    omega
  have hsub : ((List.range p.length).map fun i => (walk links root (p.take i)).getD 0) ⊆
      (List.range links.length).filter (isBranchAt links) := by
    intro k hk
    obtain ⟨i, hi, rfl⟩ := List.mem_map.1 hk
    rw [List.mem_range] at hi
    rw [← List.take_append_drop i p, walk_append, Option.bind_eq_some_iff] at h
    obtain ⟨u, hu, hd⟩ := h
    rw [hu, Option.getD_some, List.mem_filter, List.mem_range]
    refine ⟨g.walk_lt hu, ?_⟩
    rw [List.drop_eq_getElem_cons hi, walk] at hd
    unfold isBranchAt
    cases hl : links[u]? with
    | none => simp [hl] at hd
    | some l => cases l with
      | leaf => simp [hl] at hd
      | branch => rfl
  have hle := (List.subperm_of_subset hinj hsub).length_le
  have hb := branch_count (links := links)
  have := g.leaf_count
  have := g.odd
  rw [List.length_map, List.length_range] at hle
  omega

theorem walk_length_lt {p : BitString} {v : Nat} (h : walk links root p = some v) : p.length < links.length := by
  have := g.walk_length h
  have := g.leaf_count
  omega

end TreeCore

namespace GoodTree

variable (g : GoodTree links root)

include g

theorem leaves_le : (leafSyms links).length ≤ 256 := by
  have := g.leaf_count
  have := g.small
  omega

/-! ## The codes of the table -/

/-- The pairs CGEN's walk makes are the codes of the tree (R160, R161). -/
theorem mem_treeCodes {sym : Byte} {c : BitString} : (sym, c) ∈ treeCodes links root ↔ isTreeCode links root c sym := by
  unfold treeCodes isTreeCode
  cases hl : links[root]? with
  | none => simp
  | some l => cases l with
    | leaf r => simp [and_comm]
    | branch a b =>
      simp only [mem_leafPaths]
      constructor
      · rintro ⟨c', hc, -, h⟩
        rw [List.nil_append] at hc
        subst hc
        refine ⟨?_, h⟩
        rintro rfl
        simp [leafAt, hl] at h
      · rintro ⟨-, h⟩
        obtain ⟨k, hk, -⟩ := leafAt_eq_some_iff.1 h
        exact ⟨c, rfl, g.walk_length_lt hk, h⟩

omit g in
theorem treeCode_ne_nil {sym : Byte} {c : BitString} (h : isTreeCode links root c sym) : c ≠ [] := by
  unfold isTreeCode at h
  split at h
  · rw [h.1]; simp
  · exact h.1
  · exact h.elim

/-- A symbol has one code. -/
theorem treeCode_unique {sym : Byte} {c c' : BitString} (h : isTreeCode links root c sym)
    (h' : isTreeCode links root c' sym) : c = c' := by
  unfold isTreeCode at h h'
  split at h
  · rename_i hl
    simp only [hl] at h'
    rw [h.1, h'.1]
  · rename_i hl
    simp only [hl] at h'
    obtain ⟨k, hk, hs⟩ := leafAt_eq_some_iff.1 h.2
    obtain ⟨k', hk', hs'⟩ := leafAt_eq_some_iff.1 h'.2
    rw [g.leaf_unique hs hs'] at hk
    exact g.walk_inj hk hk'
  · exact h.elim

omit g in
/-- A code that begins another code belongs to the same symbol. -/
theorem treeCode_prefix {x y : Byte} {c d : BitString} (hx : isTreeCode links root c x)
    (hy : isTreeCode links root (c ++ d) y) : x = y ∧ d = [] := by
  unfold isTreeCode at hx hy
  split at hx
  · rename_i hl
    simp only [hl] at hy
    obtain ⟨rfl, rfl⟩ := hx
    exact ⟨hy.2.symm, by simpa using hy.1⟩
  · rename_i hl
    simp only [hl] at hy
    obtain ⟨k, hk, hs⟩ := leafAt_eq_some_iff.1 hx.2
    obtain ⟨k', hk', hs'⟩ := leafAt_eq_some_iff.1 hy.2
    rw [walk_append, hk, Option.bind_some] at hk'
    by_cases hd : d = []
    · subst hd
      cases hk'
      rw [hs] at hs'
      cases hs'
      exact ⟨rfl, rfl⟩
    · rw [walk_leaf hs hd] at hk'
      cases hk'
  · exact hx.elim

omit g in
theorem lookup_of_mem {l : List (Byte × BitString)} {sym : Byte} {c : BitString} (h : (sym, c) ∈ l)
    (hu : ∀ c', (sym, c') ∈ l → c' = c) : l.lookup sym = some c := by
  induction l with
  | nil => cases h
  | cons q l ih =>
    obtain ⟨s, d⟩ := q
    rw [List.lookup_cons]
    by_cases hs : sym = s
    · subst hs
      simp only [beq_self_eq_true]
      rw [hu d (by simp)]
    · have : (sym == s) = false := by simpa using hs
      rw [this]
      refine ih ?_ fun c' hc' => hu c' (List.mem_cons_of_mem _ hc')
      rcases List.mem_cons.1 h with h | h
      · cases h; exact absurd rfl hs
      · exact h

omit g in
theorem mem_of_lookup {l : List (Byte × BitString)} {sym : Byte} {c : BitString} (h : l.lookup sym = some c) :
    (sym, c) ∈ l := by
  induction l with
  | nil => cases h
  | cons q l ih =>
    obtain ⟨s, d⟩ := q
    rw [List.lookup_cons] at h
    by_cases hs : sym = s
    · subst hs
      simp only [beq_self_eq_true, Option.some.injEq] at h
      subst h
      simp
    · have : (sym == s) = false := by simpa using hs
      rw [this] at h
      exact List.mem_cons_of_mem _ (ih h)

omit g in
theorem codeTable_length : (codeTable links root).length = 256 := by simp [codeTable, Config.alpha]

omit g in
theorem codeOf_codeTable (sym : Byte) :
    codeOf (codeTable links root) sym = ((treeCodes links root).lookup sym).getD [] := by
  have h : sym.toNat < Config.alpha := sym.isLt
  rw [codeOf, List.getD_eq_getElem?_getD, codeTable, List.getElem?_map, List.getElem?_range h]
  simp

/-- The code of a symbol is the path to its leaf (R160, R161). -/
theorem codeOf_codeTable_iff {sym : Byte} {c : BitString} (hc : c ≠ []) :
    codeOf (codeTable links root) sym = c ↔ isTreeCode links root c sym := by
  rw [codeOf_codeTable]
  constructor
  · intro h
    cases hl : (treeCodes links root).lookup sym with
    | none => rw [hl] at h; exact absurd h.symm hc
    | some d =>
      rw [hl, Option.getD_some] at h
      subst h
      exact g.mem_treeCodes.1 (mem_of_lookup hl)
  · intro h
    rw [lookup_of_mem (g.mem_treeCodes.2 h) fun c' hc' => g.treeCode_unique (g.mem_treeCodes.1 hc') h, Option.getD_some]

theorem isTreeCode_codeOf {sym : Byte} (h : codeOf (codeTable links root) sym ≠ []) :
    isTreeCode links root (codeOf (codeTable links root) sym) sym := (g.codeOf_codeTable_iff h).1 rfl

theorem codeTable_prefix_free {x y : Byte} (hxy : x ≠ y) (hx : codeOf (codeTable links root) x ≠ [])
    (hy : codeOf (codeTable links root) y ≠ []) : ¬ codeOf (codeTable links root) x <+: codeOf (codeTable links root) y := by
  rintro ⟨d, hd⟩
  exact hxy (treeCode_prefix (g.isTreeCode_codeOf hx) (hd ▸ g.isTreeCode_codeOf hy)).1

/-- Every node is at the end of a path from the root. -/
theorem exists_walk {k : Nat} (hk : k < links.length) : ∃ p, walk links root p = some k := by
  have h := g.reached k hk
  obtain ⟨p, -, hp⟩ := mem_reach.1 (List.count_pos_iff.1 (by omega : 0 < (reach links links.length root).count k))
  exact ⟨p, hp⟩

/-- The symbols with a code are the leaf symbols (R162). -/
theorem codeOf_ne_nil_iff {sym : Byte} : codeOf (codeTable links root) sym ≠ [] ↔ sym ∈ leafSyms links := by
  constructor
  · intro h
    have hc := g.isTreeCode_codeOf h
    rw [mem_leafSyms]
    unfold isTreeCode at hc
    split at hc
    · rename_i r hl
      rw [hc.2]; exact ⟨root, hl⟩
    · obtain ⟨k, -, hk⟩ := leafAt_eq_some_iff.1 hc.2
      exact ⟨k, hk⟩
    · exact hc.elim
  · intro h
    obtain ⟨k, hk⟩ := mem_leafSyms.1 h
    obtain ⟨p, hp⟩ := g.exists_walk (List.getElem?_eq_some_iff.1 hk).1
    have hex : ∃ c, isTreeCode links root c sym := by
      unfold isTreeCode
      cases hl : links[root]? with
      | none => rw [List.getElem?_eq_none_iff] at hl; have := g.root_lt; omega
      | some l => cases l with
        | leaf r =>
          refine ⟨[false], rfl, ?_⟩
          by_cases hp0 : p = []
          · subst hp0
            cases hp
            rw [hl] at hk
            cases hk
            rfl
          · rw [walk_leaf hl hp0] at hp
            cases hp
        | branch a b =>
          refine ⟨p, ?_, leafAt_eq_some_iff.2 ⟨k, hp, hk⟩⟩
          rintro rfl
          cases hp
          rw [hl] at hk
          cases hk
    obtain ⟨c, hc⟩ := hex
    rw [(g.codeOf_codeTable_iff (treeCode_ne_nil hc)).2 hc]
    exact treeCode_ne_nil hc

/-- The table of a tree meets WF_CODE (R162). -/
theorem codeTable_shape : codeShape (codeTable links root) = true := by
  have h := g.leaf_count
  have := g.pos
  obtain ⟨sym, hsym⟩ := List.exists_mem_of_length_pos (show 0 < (leafSyms links).length by omega)
  exact codeShape_of_prefix_free codeTable_length (g.codeOf_ne_nil_iff.2 hsym) fun a b hab ha hb =>
    g.codeTable_prefix_free hab ha hb

/-- No code is longer than the number of leaves less one, unless the only leaf is the root (R165). -/
theorem codeOf_length (sym : Byte) : (codeOf (codeTable links root) sym).length ≤ 255 ∧
    (2 ≤ (leafSyms links).length → (codeOf (codeTable links root) sym).length ≤ (leafSyms links).length - 1) := by
  by_cases h : codeOf (codeTable links root) sym = []
  · rw [h]; simp
  · have hc := g.isTreeCode_codeOf h
    have hl := g.leaves_le
    unfold isTreeCode at hc
    split at hc
    · rw [hc.1, List.length_singleton]; omega
    · obtain ⟨k, hk, -⟩ := leafAt_eq_some_iff.1 hc.2
      have := g.walk_length hk
      omega
    · exact hc.elim

end GoodTree

end Sys2Proof.Machine
end

