-- ==== Sys2Proof/Laws/Merge.lean ====
section
/-! SUPPORT. Laws of TBLD's build: the queue, the merge loop's invariant, and what the finished tree is (R140 to R149). -/

namespace Sys2Proof.Machine

variable {links : List Link} {root : Nat}

/-! ## Reachability of a tree whose children have lower numbers than their parents -/

theorem TreeCore.reach_nodup (g : TreeCore links root) (fuel : Nat) {v : Nat} {pre : BitString}
    (hv : walk links root pre = some v) : (reach links fuel v).Nodup := by
  induction fuel generalizing v pre with
  | zero => simp [reach]
  | succ fuel ih =>
    rw [reach]
    cases hl : links[v]? with
    | none => simp
    | some l => cases l with
      | leaf => simp
      | branch a b =>
        have ha : walk links root (pre ++ [false]) = some a := walk_snoc.2 ⟨v, a, b, hv, hl, rfl⟩
        have hb : walk links root (pre ++ [true]) = some b := walk_snoc.2 ⟨v, a, b, hv, hl, rfl⟩
        have hext : ∀ {x k : Nat} {q : BitString}, walk links root q = some x → k ∈ reach links fuel x →
            ∃ p, walk links root (q ++ p) = some k := by
          intro x k q hq hk
          obtain ⟨p, -, hp⟩ := mem_reach.1 hk
          exact ⟨p, by rw [walk_append, hq, Option.bind_some, hp]⟩
        rw [List.nodup_cons, List.nodup_append']
        refine ⟨?_, ih ha, ih hb, ?_⟩
        · intro h
          rcases List.mem_append.1 h with h | h
          · obtain ⟨p, hp⟩ := hext ha h
            have := congrArg List.length (g.walk_inj hp hv)
            simp at this
          · obtain ⟨p, hp⟩ := hext hb h
            have := congrArg List.length (g.walk_inj hp hv)
            simp at this
        · intro k h1 h2
          obtain ⟨p, hp⟩ := hext ha h1
          obtain ⟨q, hq⟩ := hext hb h2
          have := g.walk_inj hp hq
          simp at this

theorem TreeCore.good (g : TreeCore links root)
    (hlt : ∀ k a b : Nat, links[k]? = some (.branch a b) → a < k ∧ b < k) : GoodTree links root := by
  refine ⟨g, fun k hk => ?_⟩
  have hex : ∀ d k, k < links.length → links.length - k ≤ d → ∃ p, walk links root p = some k := by
    intro d
    induction d with
    | zero => intro k hk h; omega
    | succ d ih =>
      intro k hk hd
      by_cases hr : k = root
      · exact ⟨[], by rw [hr]; rfl⟩
      · have hc := g.parents k hk
        rw [if_neg hr] at hc
        obtain ⟨k', a, b, hk', h⟩ := mem_childNums (List.count_pos_iff.1 (by omega : 0 < (childNums links).count k))
        obtain ⟨h1, h2⟩ := hlt k' a b hk'
        have hk2 := (List.getElem?_eq_some_iff.1 hk').1
        obtain ⟨p, hp⟩ := ih k' hk2 (by rcases h with rfl | rfl <;> omega)
        rcases h with rfl | rfl
        · exact ⟨p ++ [false], walk_snoc.2 ⟨k', k, b, hp, hk', rfl⟩⟩
        · exact ⟨p ++ [true], walk_snoc.2 ⟨k', a, k, hp, hk', rfl⟩⟩
  obtain ⟨p, hp⟩ := hex _ k hk (Nat.le_refl _)
  exact List.count_eq_one_of_mem (g.reach_nodup _ (walk_nil links root)) (mem_reach.2 ⟨p, g.walk_length_lt hp, hp⟩)

/-! ## The queue (R142) -/

theorem keyLt_iff {p q : Key} : keyLt p q = true ↔ p.1 < q.1 ∨ (p.1 = q.1 ∧ p.2 < q.2) := by simp [keyLt]

theorem keyLt_connex {p q : Key} (h : ¬ keyLt p q = true) : q = p ∨ keyLt q p = true := by
  rw [keyLt_iff] at h ⊢
  obtain ⟨a, b⟩ := p
  obtain ⟨c, d⟩ := q
  simp only [Prod.mk.injEq] at *
  omega

theorem keyLt_trans {p q r : Key} (h : keyLt p q = true) (h' : keyLt q r = true) : keyLt p r = true := by
  rw [keyLt_iff] at *
  omega

/-- leastKey is a least element of the queue. -/
theorem leastKey_spec (q : Key) (qs : List Key) : leastKey q qs ∈ q :: qs ∧
    ∀ x ∈ q :: qs, x = leastKey q qs ∨ keyLt (leastKey q qs) x = true := by
  unfold leastKey
  induction qs generalizing q with
  | nil => simp
  | cons y ys ih =>
    rw [List.foldl_cons]
    obtain ⟨hm, hl⟩ := ih (if keyLt y q then y else q)
    generalize hr : List.foldl (fun m x => if keyLt x m then x else m) (if keyLt y q then y else q) ys = r at hm hl ⊢
    have hall : ∀ x ∈ ys, x = r ∨ keyLt r x = true := fun x hx => hl x (List.mem_cons_of_mem _ hx)
    have hfirst := hl _ (List.mem_cons_self)
    by_cases h : keyLt y q = true
    · rw [if_pos h] at hm hfirst
      refine ⟨List.mem_cons_of_mem _ hm, fun x hx => ?_⟩
      rcases List.mem_cons.1 hx with rfl | hx
      · right
        rcases hfirst with rfl | hf
        · exact h
        · exact keyLt_trans hf h
      · rcases List.mem_cons.1 hx with rfl | hx
        · exact hfirst
        · exact hall x hx
    · rw [if_neg h] at hm hfirst
      refine ⟨?_, fun x hx => ?_⟩
      · rcases List.mem_cons.1 hm with rfl | hm
        · simp
        · simp [hm]
      · rcases List.mem_cons.1 hx with rfl | hx
        · exact hfirst
        · rcases List.mem_cons.1 hx with rfl | hx
          · rcases keyLt_connex h with rfl | hq
            · exact hfirst
            · right
              rcases hfirst with rfl | hf
              · exact hq
              · exact keyLt_trans hf hq
          · exact hall x hx

theorem extractMin_some {qs rest : List Key} {a : Key} (h : extractMin qs = some (a, rest)) :
    List.Perm qs (a :: rest) ∧ ∀ x ∈ rest, x = a ∨ keyLt a x = true := by
  cases qs with
  | nil => cases h
  | cons q qs =>
    obtain ⟨hm, hl⟩ := leastKey_spec q qs
    simp only [extractMin, Option.some.injEq, Prod.mk.injEq] at h
    obtain ⟨rfl, rfl⟩ := h
    exact ⟨List.perm_cons_erase hm, fun x hx => hl x (List.mem_of_mem_erase hx)⟩

theorem extractMin_none {qs : List Key} (h : extractMin qs = none) : qs = [] := by
  cases qs with
  | nil => rfl
  | cons => cases h

/-! ## One merge, as R140 to R143 say it -/

/-- What GreedyMerge says of node `k`. -/
def MergeAt (links : List Link) (weights : List Nat) (k : Nat) : Prop := ∃ a b,
  links[k]? = some (.branch a b) ∧ weights[k]? = some (weights.getD a 0 + weights.getD b 0) ∧
    a ∈ queueAt links k ∧ b ∈ queueAt links k ∧ keyBefore weights a b ∧
    ∀ q ∈ queueAt links k, q = a ∨ q = b ∨ keyBefore weights b q

theorem mem_queueAt {k q : Nat} : q ∈ queueAt links k ↔ q < k ∧ q ∉ childNums (links.take k) := by
  simp [queueAt]

theorem queueAt_append {l : List Link} {k : Nat} (hk : k ≤ links.length) : queueAt (links ++ l) k = queueAt links k := by
  unfold queueAt
  rw [List.take_append_of_le_length hk]

theorem getD_append {ws l : List Nat} {k : Nat} (hk : k < ws.length) : (ws ++ l).getD k 0 = ws.getD k 0 := by
  rw [List.getD_append _ _ _ _ hk]

theorem MergeAt.append {weights ws : List Nat} {l : List Link} {k : Nat} (h : MergeAt links weights k)
    (hk : k < links.length) (hw : weights.length = links.length) : MergeAt (links ++ l) (weights ++ ws) k := by
  obtain ⟨a, b, h1, h2, ha, hb, hab, hq⟩ := h
  have hlt : ∀ q ∈ queueAt links k, q < weights.length := fun q hq => by
    have := (mem_queueAt.1 hq).1
    omega
  refine ⟨a, b, ?_, ?_, ?_, ?_, ?_, ?_⟩
  · rw [List.getElem?_append_left hk]; exact h1
  · rw [List.getElem?_append_left (by omega), getD_append (hlt a ha), getD_append (hlt b hb)]; exact h2
  · rw [queueAt_append (by omega)]; exact ha
  · rw [queueAt_append (by omega)]; exact hb
  · simp only [keyBefore, getD_append (hlt a ha), getD_append (hlt b hb)]; exact hab
  · intro q h
    rw [queueAt_append (by omega)] at h
    rcases hq q h with h' | h' | h'
    · exact .inl h'
    · exact .inr (.inl h')
    · right; right
      simp only [keyBefore, getD_append (hlt q h), getD_append (hlt b hb)]; exact h'

/-! ## The loop's invariant -/

/-- The queue and the nodes before a round of R140, `L0` being the leaves. -/
structure MergeInv (L0 : List Node) (total : Nat) (qs : List Key) (nodes : List Node) : Prop where
  leaves : nodes.take L0.length = L0
  len : nodes.length + qs.length = 2 * L0.length
  ge : L0.length ≤ nodes.length
  weights : ∀ q ∈ qs, nodes[q.2]?.map nodeWeight = some q.1
  sum : (qs.map Prod.fst).sum = total
  parents : ∀ k < nodes.length, (childNums (nodes.map nodeLink)).count k + (qs.map Prod.snd).count k = 1
  child_lt : ∀ k a b : Nat, (nodes.map nodeLink)[k]? = some (.branch a b) → a < k ∧ b < k ∧ a ≠ b
  last : nodes.length - 1 ∈ qs.map Prod.snd
  merges : ∀ k, L0.length ≤ k → k < nodes.length → MergeAt (nodes.map nodeLink) (nodes.map nodeWeight) k
  mono : ∀ j k, L0.length ≤ j → j ≤ k → k < nodes.length →
    (nodes.map nodeWeight).getD j 0 ≤ (nodes.map nodeWeight).getD k 0
  next : L0.length < nodes.length → qs.Pairwise fun p q => (nodes.map nodeWeight).getD (nodes.length - 1) 0 ≤ p.1 + q.1

namespace MergeInv

variable {L0 : List Node} {total : Nat} {qs qs1 qs2 : List Key} {nodes : List Node} {a b : Key}

theorem num_lt (h : MergeInv L0 total qs nodes) {q : Key} (hq : q ∈ qs) : q.2 < nodes.length := by
  have := h.weights q hq
  rw [Option.map_eq_some_iff] at this
  obtain ⟨n, hn, -⟩ := this
  exact (List.getElem?_eq_some_iff.1 hn).1

theorem weight_getD (h : MergeInv L0 total qs nodes) {q : Key} (hq : q ∈ qs) :
    (nodes.map nodeWeight).getD q.2 0 = q.1 := by
  rw [List.getD_eq_getElem?_getD, List.getElem?_map, h.weights q hq, Option.getD_some]

theorem nums_nodup (h : MergeInv L0 total qs nodes) : (qs.map Prod.snd).Nodup := by
  rw [List.nodup_iff_count_le_one]
  intro k
  by_cases hk : k < nodes.length
  · have := h.parents k hk; omega
  · rw [List.count_eq_zero_of_not_mem]
    · omega
    · intro hm
      obtain ⟨q, hq, rfl⟩ := List.mem_map.1 hm
      exact hk (h.num_lt hq)

/-- The queue's node numbers are the nodes that are no child yet. -/
theorem mem_queue_iff (h : MergeInv L0 total qs nodes) {k : Nat} (hk : k < nodes.length) :
    k ∈ qs.map Prod.snd ↔ k ∉ childNums (nodes.map nodeLink) := by
  have := h.parents k hk
  rw [← List.count_pos_iff, ← List.count_eq_zero]
  omega

/-- The node a round makes. -/
theorem new_node (h : MergeInv L0 total qs nodes) (ha : a ∈ qs) (hb : b ∈ qs) (hsum : a.1 + b.1 ≤ total)
    (hn : L0.length ≤ 256) (ht : total < 2 ^ 40) :
    nodeLink (.internal (BitVec.ofNat 40 (a.1 + b.1)) (BitVec.ofNat 9 a.2) (BitVec.ofNat 9 b.2)) = .branch a.2 b.2 ∧
    nodeWeight (.internal (BitVec.ofNat 40 (a.1 + b.1)) (BitVec.ofNat 9 a.2) (BitVec.ofNat 9 b.2)) = a.1 + b.1 := by
  have h1 := h.num_lt ha
  have h2 := h.num_lt hb
  have h3 := h.len
  have hq : 0 < qs.length := List.length_pos_of_mem ha
  constructor
  · simp only [nodeLink, BitVec.toNat_ofNat]
    rw [Nat.mod_eq_of_lt (by omega), Nat.mod_eq_of_lt (by omega)]
  · simp only [nodeWeight, BitVec.toNat_ofNat]
    rw [Nat.mod_eq_of_lt (by omega)]

theorem childNums_snoc (ls : List Link) (x y : Nat) : childNums (ls ++ [.branch x y]) = childNums ls ++ [x, y] := by
  simp [childNums]

/-- One round of R140 keeps the invariant. -/
theorem step (h : MergeInv L0 total qs nodes) (h1 : extractMin qs = some (a, qs1)) (h2 : extractMin qs1 = some (b, qs2))
    (hn : L0.length ≤ 256) (ht : total < 2 ^ 40) :
    MergeInv L0 total (qs2 ++ [(a.1 + b.1, nodes.length)])
      (nodes ++ [.internal (BitVec.ofNat 40 (a.1 + b.1)) (BitVec.ofNat 9 a.2) (BitVec.ofNat 9 b.2)]) := by
  obtain ⟨p1, m1⟩ := extractMin_some h1
  obtain ⟨p2, m2⟩ := extractMin_some h2
  have hp : List.Perm qs (a :: b :: qs2) := p1.trans (List.Perm.cons _ p2)
  have ha : a ∈ qs := hp.mem_iff.2 (by simp)
  have hb : b ∈ qs := hp.mem_iff.2 (by simp)
  have hin : ∀ q ∈ qs2, q ∈ qs := fun q hq => hp.mem_iff.2 (by simp [hq])
  have hsum0 : a.1 + (b.1 + (qs2.map Prod.fst).sum) = total := by
    have := (hp.map Prod.fst).sum_eq
    rw [h.sum] at this
    simpa using this.symm
  have hnd : (a.2 :: b.2 :: qs2.map Prod.snd).Nodup := by
    have := (hp.map Prod.snd).nodup_iff.1 h.nums_nodup
    simpa using this
  have hab2 : a.2 ≠ b.2 := by
    intro e; rw [List.nodup_cons] at hnd; exact hnd.1 (by simp [e])
  have hab : keyLt a b = true := by
    rcases m1 b (p2.mem_iff.2 (by simp)) with rfl | hlt
    · exact absurd rfl hab2
    · exact hlt
  have hbq : ∀ q ∈ qs2, keyLt b q = true := by
    intro q hq
    rcases m2 q hq with rfl | hlt
    · rw [List.nodup_cons, List.nodup_cons] at hnd
      exact absurd (List.mem_map.2 ⟨q, hq, rfl⟩) hnd.2.1
    · exact hlt
  have hle : a.1 ≤ b.1 := by rw [keyLt_iff] at hab; omega
  have hbq1 : ∀ q ∈ qs2, b.1 ≤ q.1 := fun q hq => by have := keyLt_iff.1 (hbq q hq); omega
  obtain ⟨hlink, hweight⟩ := h.new_node ha hb (by omega) hn ht
  generalize Node.internal (BitVec.ofNat 40 (a.1 + b.1)) (BitVec.ofNat 9 a.2) (BitVec.ofNat 9 b.2) = x at hlink hweight
  have hlen := h.len
  have hge := h.ge
  have hql : qs.length = qs2.length + 2 := by simpa using hp.length_eq
  have halt := h.num_lt ha
  have hblt := h.num_lt hb
  have hwlen : (nodes.map nodeWeight).length = nodes.length := by simp
  have hlenl : (nodes.map nodeLink).length = nodes.length := by simp
  have hML : (nodes ++ [x]).map nodeLink = nodes.map nodeLink ++ [.branch a.2 b.2] := by simp [hlink]
  have hMW : (nodes ++ [x]).map nodeWeight = nodes.map nodeWeight ++ [a.1 + b.1] := by simp [hweight]
  have hchild_lt : ∀ k ∈ childNums (nodes.map nodeLink), k < nodes.length := by
    intro k hk
    obtain ⟨j, c, d, hj, hk⟩ := mem_childNums hk
    have hj' := (List.getElem?_eq_some_iff.1 hj).1
    have := h.child_lt j c d hj
    rw [hlenl] at hj'
    rcases hk with rfl | rfl <;> omega
  refine ⟨?_, ?_, ?_, ?_, ?_, ?_, ?_, ?_, ?_, ?_, ?_⟩
  · rw [List.take_append_of_le_length hge]; exact h.leaves
  · simp; omega
  · simp; omega
  · intro q hq
    rcases List.mem_append.1 hq with hq | hq
    · rw [List.getElem?_append_left (h.num_lt (hin q hq))]; exact h.weights q (hin q hq)
    · rw [List.mem_singleton] at hq; subst hq; simp [hweight]
  · simp only [List.map_append, List.map_cons, List.map_nil, List.sum_append, List.sum_cons, List.sum_nil]; omega
  · intro k hk
    rw [hML, childNums_snoc, List.map_append, List.count_append, List.count_append]
    simp only [List.map_cons, List.map_nil]
    rw [List.length_append, List.length_singleton] at hk
    by_cases hkl : k = nodes.length
    · subst hkl
      have c1 : (childNums (nodes.map nodeLink)).count nodes.length = 0 :=
        List.count_eq_zero_of_not_mem fun hm => Nat.lt_irrefl _ (hchild_lt _ hm)
      have c2 : (qs2.map Prod.snd).count nodes.length = 0 := by
        refine List.count_eq_zero_of_not_mem fun hm => ?_
        obtain ⟨q, hq, he⟩ := List.mem_map.1 hm
        have := h.num_lt (hin q hq)
        omega
      have c3 : [a.2, b.2].count nodes.length = 0 := by
        refine List.count_eq_zero_of_not_mem fun hm => ?_
        simp at hm
        omega
      have c4 : [nodes.length].count nodes.length = 1 := by simp
      omega
    · have := h.parents k (by omega)
      have c1 := (hp.map Prod.snd).count_eq k
      have c2 : (a.2 :: b.2 :: qs2.map Prod.snd).count k = [a.2, b.2].count k + (qs2.map Prod.snd).count k := by
        rw [← List.count_append]; rfl
      have c4 : [nodes.length].count k = 0 := List.count_eq_zero_of_not_mem (by simpa using hkl)
      simp only [List.map_cons] at c1
      omega
  · intro k c d hk
    rw [hML] at hk
    by_cases hkl : k < (nodes.map nodeLink).length
    · rw [List.getElem?_append_left hkl] at hk; exact h.child_lt k c d hk
    · have hk2 := (List.getElem?_eq_some_iff.1 hk).1
      rw [List.length_append, List.length_singleton] at hk2
      have : k = (nodes.map nodeLink).length := by omega
      subst this
      rw [List.getElem?_concat_length] at hk
      cases hk
      rw [hlenl]
      exact ⟨halt, hblt, hab2⟩
  · simp
  · intro k hk1 hk2
    rw [List.length_append, List.length_singleton] at hk2
    rw [hML, hMW]
    by_cases hkl : k < nodes.length
    · exact (h.merges k hk1 hkl).append (by rw [hlenl]; exact hkl) (by rw [hwlen, hlenl])
    · have hke : k = nodes.length := by omega
      subst hke
      have hq : ∀ k, k ∈ queueAt (nodes.map nodeLink ++ [.branch a.2 b.2]) nodes.length ↔ ∃ q ∈ qs, q.2 = k := by
        intro k
        rw [queueAt_append (by rw [hlenl]), mem_queueAt, List.take_of_length_le (by rw [hlenl])]
        constructor
        · rintro ⟨hk, hk'⟩
          obtain ⟨q, hq, rfl⟩ := List.mem_map.1 ((h.mem_queue_iff hk).2 hk')
          exact ⟨q, hq, rfl⟩
        · rintro ⟨q, hq, rfl⟩
          exact ⟨h.num_lt hq, (h.mem_queue_iff (h.num_lt hq)).1 (List.mem_map.2 ⟨q, hq, rfl⟩)⟩
      have hgd : ∀ q ∈ qs, (nodes.map nodeWeight ++ [a.1 + b.1]).getD q.2 0 = q.1 := by
        intro q hq
        rw [getD_append (by rw [hwlen]; exact h.num_lt hq)]
        exact h.weight_getD hq
      refine ⟨a.2, b.2, ?_, ?_, (hq _).2 ⟨a, ha, rfl⟩, (hq _).2 ⟨b, hb, rfl⟩, ?_, ?_⟩
      · rw [← hlenl, List.getElem?_concat_length]
      · rw [hgd a ha, hgd b hb, ← hwlen, List.getElem?_concat_length]
      · rw [keyBefore, hgd a ha, hgd b hb]; exact keyLt_iff.1 hab
      · intro k hk
        obtain ⟨q, hq', rfl⟩ := (hq k).1 hk
        rcases List.mem_cons.1 (hp.mem_iff.1 hq') with rfl | hq'
        · exact .inl rfl
        · rcases List.mem_cons.1 hq' with rfl | hq2
          · exact .inr (.inl rfl)
          · right; right
            rw [keyBefore, hgd b hb, hgd q (hin q hq2)]; exact keyLt_iff.1 (hbq q hq2)
  · intro j k hj hjk hk
    rw [List.length_append, List.length_singleton] at hk
    rw [hMW]
    by_cases hkl : k < nodes.length
    · rw [getD_append (by omega), getD_append (by omega)]; exact h.mono j k hj hjk hkl
    · have hke : k = nodes.length := by omega
      subst hke
      by_cases hjl : j = nodes.length
      · subst hjl; exact Nat.le_refl _
      · have hnew : (nodes.map nodeWeight ++ [a.1 + b.1]).getD nodes.length 0 = a.1 + b.1 := by
          rw [List.getD_eq_getElem?_getD, ← hwlen, List.getElem?_concat_length, Option.getD_some]
        rw [hnew, getD_append (by omega)]
        refine Nat.le_trans (h.mono j (nodes.length - 1) hj (by omega) (by omega)) ?_
        have hpw := h.next (by omega)
        have hsym : ∀ {x y : Key}, (nodes.map nodeWeight).getD (nodes.length - 1) 0 ≤ x.1 + y.1 →
            (nodes.map nodeWeight).getD (nodes.length - 1) 0 ≤ y.1 + x.1 := by intro x y hxy; omega
        have := (hp.pairwise_iff hsym).1 hpw
        rw [List.pairwise_cons] at this
        exact this.1 b (by simp)
  · intro _
    rw [hMW]
    have hnew : (nodes.map nodeWeight ++ [a.1 + b.1]).getD ((nodes ++ [x]).length - 1) 0 = a.1 + b.1 := by
      rw [List.length_append, List.length_singleton, Nat.add_sub_cancel, List.getD_eq_getElem?_getD, ← hwlen,
        List.getElem?_concat_length, Option.getD_some]
    rw [hnew]
    have hall : ∀ q ∈ qs2 ++ [(a.1 + b.1, nodes.length)], b.1 ≤ q.1 := by
      intro q hq
      rcases List.mem_append.1 hq with hq | hq
      · exact hbq1 q hq
      · rw [List.mem_singleton] at hq; subst hq; simp
    exact List.pairwise_of_forall_mem_list fun p hp q hq => by
      have := hall p hp
      have := hall q hq
      omega

/-- The loop from a state that meets the invariant: it ends with one key, that of the last node made (R144). -/
theorem loop (h : MergeInv L0 total qs nodes) (hq : 1 ≤ qs.length) (hn : L0.length ≤ 256) (ht : total < 2 ^ 40)
    {fuel : Nat} (hf : qs.length ≤ fuel) : ∃ out, mergeLoop fuel qs nodes = (out, out.length - 1) ∧
      out.length = 2 * L0.length - 1 ∧ MergeInv L0 total [(total, out.length - 1)] out := by
  induction fuel generalizing qs nodes with
  | zero => omega
  | succ fuel ih =>
    rw [mergeLoop]
    cases h1 : extractMin qs with
    | none => rw [extractMin_none h1] at hq; simp at hq
    | some r =>
      obtain ⟨a, qs1⟩ := r
      simp only
      cases h2 : extractMin qs1 with
      | none =>
        simp only
        have hqs : qs = [a] := by
          have hp := (extractMin_some h1).1
          rw [extractMin_none h2] at hp
          exact List.perm_singleton.1 hp
        subst hqs
        have hl := h.last
        have hs := h.sum
        simp at hl hs
        have hlen := h.len
        simp at hlen
        have he : a = (total, nodes.length - 1) := by rw [← hs, hl]
        subst he
        exact ⟨nodes, rfl, by omega, h⟩
      | some r =>
        obtain ⟨b, qs2⟩ := r
        simp only
        have hp1 := (extractMin_some h1).1.length_eq
        have hp2 := (extractMin_some h2).1.length_eq
        simp at hp1 hp2
        exact ih (h.step h1 h2 hn ht) (by simp) (by simp; omega)

end MergeInv

end Sys2Proof.Machine
end

