-- ==== Sys2Proof/Laws/BuildTree.lean ====
section
/-! SUPPORT. Laws of TBLD's build, continued: the queue it starts with, and what its nodes are when the loop ends. -/

namespace Sys2Proof.Machine

variable {counts : List Nat}

/-! ## The leaves and the first queue (R141, R142) -/

/-- The leaves of a build. -/
abbrev leavesOf (counts : List Nat) : List Node :=
  (presentSymbols counts).map fun s => .leaf (BitVec.ofNat 8 s) (BitVec.ofNat 40 (counts.getD s 0))

/-- The queue of a build before its first merge. -/
abbrev firstQueue (counts : List Nat) : List Key :=
  (presentSymbols counts).zipIdx.map fun p => (counts.getD p.1 0, p.2)

theorem mem_presentSymbols {s : Nat} : s ∈ presentSymbols counts ↔ s < 256 ∧ 0 < counts.getD s 0 := by
  simp [presentSymbols]

theorem presentSymbols_pairwise (counts : List Nat) : (presentSymbols counts).Pairwise (· < ·) :=
  List.pairwise_lt_range.filter _

theorem presentSymbols_length_le (counts : List Nat) : (presentSymbols counts).length ≤ 256 := by
  have := List.length_filter_le (fun s => decide (0 < counts.getD s 0)) (List.range 256)
  rwa [List.length_range] at this

theorem sum_filter_pos (l : List Nat) (f : Nat → Nat) :
    ((l.filter fun s => decide (0 < f s)).map f).sum = (l.map f).sum := by
  induction l with
  | nil => rfl
  | cons x l ih =>
    rw [List.filter_cons]
    by_cases h : 0 < f x
    · simp [h, ih]
    · simp [h, ih]; omega

/-- The weights of the leaves add up to all the counts. -/
theorem presentSymbols_sum (hl : counts.length = 256) :
    ((presentSymbols counts).map fun s => counts.getD s 0).sum = counts.sum := by
  rw [presentSymbols, sum_filter_pos]
  congr 1
  refine List.ext_getElem? fun i => ?_
  rw [List.getElem?_map]
  by_cases h : i < 256
  · rw [List.getElem?_range h, Option.map_some, List.getD_eq_getElem?_getD,
      List.getElem?_eq_getElem (by omega : i < counts.length)]
    rfl
  · rw [List.getElem?_eq_none (by simp; omega), List.getElem?_eq_none (by omega)]
    rfl

theorem sum_le_of_lt {b : Nat} (l : List Nat) (h : ∀ n ∈ l, n < b) : l.sum ≤ l.length * b := by
  induction l with
  | nil => simp
  | cons x l ih =>
    have h1 := h x (by simp)
    have h2 := ih fun n hn => h n (by simp [hn])
    rw [List.sum_cons, List.length_cons, Nat.succ_mul]
    omega

/-- Nine bits over 32 hold the sum of 256 counts (R149). -/
theorem sum_counts_lt (hl : counts.length = 256) (hb : ∀ n ∈ counts, n < 2 ^ 32) : counts.sum < 2 ^ 40 := by
  cases counts with
  | nil => simp
  | cons x l =>
    have h1 := hb x (by simp)
    have h2 := sum_le_of_lt l fun n hn => hb n (by simp [hn])
    simp only [List.length_cons, List.sum_cons] at *
    have : l.length = 255 := by omega
    rw [this] at h2
    omega

theorem getD_lt (hb : ∀ n ∈ counts, n < 2 ^ 32) (s : Nat) : counts.getD s 0 < 2 ^ 32 := by
  rw [List.getD_eq_getElem?_getD]
  cases h : counts[s]? with
  | none => simp
  | some n => exact hb n (List.mem_of_getElem? h)

theorem leaf_link {i s : Nat} (h : (presentSymbols counts)[i]? = some s) :
    ((leavesOf counts).map nodeLink)[i]? = some (.leaf (BitVec.ofNat 8 s)) := by
  simp [h, nodeLink]

theorem leaf_weight (hb : ∀ n ∈ counts, n < 2 ^ 32) {i s : Nat} (h : (presentSymbols counts)[i]? = some s) :
    ((leavesOf counts).map nodeWeight)[i]? = some (counts.getD s 0) := by
  have := getD_lt hb s
  simp only [List.map_map, List.getElem?_map, h, Option.map_some, Function.comp_apply, nodeWeight,
    BitVec.toNat_ofNat]
  rw [Nat.mod_eq_of_lt (by omega)]

theorem firstQueue_nums (counts : List Nat) :
    (firstQueue counts).map Prod.snd = List.range (presentSymbols counts).length := by
  rw [firstQueue, List.map_map]
  have : (Prod.snd ∘ fun p : Nat × Nat => (counts.getD p.1 0, p.2)) = Prod.snd := rfl
  rw [this, List.zipIdx_map_snd, List.range_eq_range']

theorem firstQueue_weights (counts : List Nat) :
    (firstQueue counts).map Prod.fst = (presentSymbols counts).map fun s => counts.getD s 0 := by
  rw [firstQueue, List.map_map]
  have : (Prod.fst ∘ fun p : Nat × Nat => (counts.getD p.1 0, p.2)) = (fun s => counts.getD s 0) ∘ Prod.fst := rfl
  rw [this, ← List.map_map, List.zipIdx_map_fst]

theorem childNums_leaves (counts : List Nat) : childNums ((leavesOf counts).map nodeLink) = [] := by
  simp [childNums, nodeLink]

/-- The invariant of the merge loop holds where the build starts it. -/
theorem first_mergeInv (hl : counts.length = 256) (hb : ∀ n ∈ counts, n < 2 ^ 32) (hp : presentSymbols counts ≠ []) :
    MergeInv (leavesOf counts) counts.sum (firstQueue counts) (leavesOf counts) := by
  have hpos : 0 < (presentSymbols counts).length := List.length_pos_of_ne_nil hp
  have hlen : (leavesOf counts).length = (presentSymbols counts).length := List.length_map _
  refine ⟨List.take_length, ?_, Nat.le_refl _, ?_, ?_, ?_, ?_, ?_, ?_, ?_, ?_⟩
  · simp; omega
  · intro q hq
    obtain ⟨⟨s, i⟩, hm, rfl⟩ := List.mem_map.1 hq
    rw [List.mem_zipIdx_iff_getElem?] at hm
    rw [← List.getElem?_map]
    exact leaf_weight hb hm
  · rw [firstQueue_weights, presentSymbols_sum hl]
  · intro k hk
    rw [childNums_leaves, firstQueue_nums, List.count_nil, Nat.zero_add]
    exact List.count_eq_one_of_mem List.nodup_range (List.mem_range.2 (by omega))
  · intro k a b h
    have := List.mem_of_getElem? h
    simp [nodeLink] at this
  · rw [firstQueue_nums, hlen]; exact List.mem_range.2 (by omega)
  · intro k h1 h2; omega
  · intro j k h1 h2 h3; omega
  · intro h; omega

/-! ## The finished build -/

/-- What the loop's invariant leaves when one key is in the queue. -/
theorem buildTree_inv (hl : counts.length = 256) (hb : ∀ n ∈ counts, n < 2 ^ 32) (hp : presentSymbols counts ≠ []) :
    (buildTree counts).2 = (buildTree counts).1.length - 1 ∧
    (buildTree counts).1.length = 2 * (presentSymbols counts).length - 1 ∧
    MergeInv (leavesOf counts) counts.sum [(counts.sum, (buildTree counts).1.length - 1)] (buildTree counts).1 := by
  have hpos : 0 < (presentSymbols counts).length := List.length_pos_of_ne_nil hp
  have hlen : (leavesOf counts).length = (presentSymbols counts).length := List.length_map _
  obtain ⟨out, ho, h1, h2⟩ := (first_mergeInv hl hb hp).loop (by simp; omega)
    (by rw [hlen]; exact presentSymbols_length_le counts) (sum_counts_lt hl hb)
    (fuel := (presentSymbols counts).length) (by simp)
  have : buildTree counts = (out, out.length - 1) := ho
  rw [this]
  rw [hlen] at h1
  exact ⟨rfl, h1, h2⟩

theorem leafSyms_of_branches {ls : List Link} (h : ∀ l ∈ ls, ∃ a b, l = .branch a b) : leafSyms ls = [] := by
  rw [leafSyms, List.filterMap_eq_nil_iff]
  intro l hl
  obtain ⟨a, b, rfl⟩ := h l hl
  rfl

/-- A build's leaves come first, one for each symbol of positive count in ascending order, and all further nodes are
internal (R141, R149). -/
theorem buildTree_leafSyms (hl : counts.length = 256) (hb : ∀ n ∈ counts, n < 2 ^ 32) (hp : presentSymbols counts ≠ []) :
    leafSyms ((buildTree counts).1.map nodeLink) = (presentSymbols counts).map (BitVec.ofNat 8) ∧
    leafSyms (((buildTree counts).1.map nodeLink).take (presentSymbols counts).length) =
      (presentSymbols counts).map (BitVec.ofNat 8) := by
  obtain ⟨-, -, h⟩ := buildTree_inv hl hb hp
  generalize (buildTree counts).1 = nodes at h
  have hlen : (leavesOf counts).length = (presentSymbols counts).length := List.length_map _
  have ht : (nodes.map nodeLink).take (presentSymbols counts).length = (leavesOf counts).map nodeLink := by
    rw [← List.map_take, ← hlen, h.leaves]
  have hleaf : leafSyms ((leavesOf counts).map nodeLink) = (presentSymbols counts).map (BitVec.ofNat 8) := by
    rw [leafSyms, leavesOf, List.map_map, List.filterMap_map]
    exact congrFun (List.filterMap_eq_map (f := BitVec.ofNat 8)) _
  refine ⟨?_, by rw [ht, hleaf]⟩
  rw [← List.take_append_drop (presentSymbols counts).length (nodes.map nodeLink)]
  have hd : leafSyms ((nodes.map nodeLink).drop (presentSymbols counts).length) = [] := by
    refine leafSyms_of_branches fun l hm => ?_
    obtain ⟨i, hi⟩ := List.mem_iff_getElem?.1 hm
    rw [List.getElem?_drop] at hi
    have hlt := (List.getElem?_eq_some_iff.1 hi).1
    rw [List.length_map] at hlt
    obtain ⟨a, b, hab, -⟩ := h.merges _ (by rw [hlen]; exact Nat.le_add_right _ i) hlt
    rw [hi] at hab
    exact ⟨a, b, Option.some.inj hab⟩
  have : ∀ x y : List Link, leafSyms (x ++ y) = leafSyms x ++ leafSyms y := fun x y => List.filterMap_append
  rw [this, hd, List.append_nil, ht, hleaf]

theorem presentSymbols_bytes (counts : List Nat) :
    ((presentSymbols counts).map (BitVec.ofNat 8)).map BitVec.toNat = presentSymbols counts := by
  rw [List.map_map]
  conv => rhs; rw [← List.map_id (presentSymbols counts)]
  refine List.map_congr_left fun s hs => ?_
  have := (mem_presentSymbols.1 hs).1
  simp only [Function.comp_apply, BitVec.toNat_ofNat, id]
  omega

/-- A build's links are a well-formed tree (R24, R148). -/
theorem buildTree_good (hl : counts.length = 256) (hb : ∀ n ∈ counts, n < 2 ^ 32) (hp : presentSymbols counts ≠ []) :
    GoodTree ((buildTree counts).1.map nodeLink) (buildTree counts).2 := by
  obtain ⟨hroot, hlen, h⟩ := buildTree_inv hl hb hp
  obtain ⟨hs, -⟩ := buildTree_leafSyms hl hb hp
  have hpos : 0 < (presentSymbols counts).length := List.length_pos_of_ne_nil hp
  have hle := presentSymbols_length_le counts
  have hbytes := presentSymbols_bytes counts
  generalize (buildTree counts).2 = root at *
  generalize (buildTree counts).1 = nodes at *
  subst hroot
  refine TreeCore.good ⟨?_, ?_, ?_, ?_, ?_, ?_, ?_, ?_⟩ fun k a b hk => ⟨(h.child_lt k a b hk).1, (h.child_lt k a b hk).2.1⟩
  · rw [List.length_map]; omega
  · rw [List.length_map]; omega
  · rw [List.length_map]; omega
  · rw [hs, List.length_map, List.length_map]; omega
  · rw [List.length_map]; omega
  · intro k a b hk
    have h1 := h.child_lt k a b hk
    have h2 := (List.getElem?_eq_some_iff.1 hk).1
    omega
  · intro k hk
    rw [List.length_map] at hk
    have := h.parents k hk
    by_cases he : k = nodes.length - 1
    · subst he
      simp at this
      simp [this]
    · have hz : [nodes.length - 1].count k = 0 := List.count_eq_zero_of_not_mem (by simpa using he)
      simp only [List.map_cons, List.map_nil] at this
      rw [if_neg he]
      omega
  · rw [hs]
    have : (((presentSymbols counts).map (BitVec.ofNat 8)).map BitVec.toNat).Nodup := by
      rw [hbytes]
      exact (presentSymbols_pairwise counts).imp Nat.ne_of_lt
    exact List.Nodup.of_map _ this

/-- A build's weights: item 6 of R24, the merges of R140 to R144, their order and their sum (R149). -/
theorem buildTree_weights (hl : counts.length = 256) (hb : ∀ n ∈ counts, n < 2 ^ 32) (hp : presentSymbols counts ≠ []) :
    weightsAddUp ((buildTree counts).1.map nodeLink) ((buildTree counts).1.map nodeWeight) = true ∧
    ((buildTree counts).1.map nodeWeight).getD (buildTree counts).2 0 = counts.sum ∧
    ∀ j k, (presentSymbols counts).length ≤ j → j ≤ k → k < (buildTree counts).1.length →
      ((buildTree counts).1.map nodeWeight).getD j 0 ≤ ((buildTree counts).1.map nodeWeight).getD k 0 := by
  obtain ⟨hroot, -, h⟩ := buildTree_inv hl hb hp
  have hlen : (leavesOf counts).length = (presentSymbols counts).length := List.length_map _
  generalize (buildTree counts).2 = root at *
  generalize (buildTree counts).1 = nodes at *
  subst hroot
  refine ⟨?_, h.weight_getD (List.mem_singleton.2 rfl), fun j k hj => h.mono j k (by rw [hlen]; exact hj)⟩
  rw [weightsAddUp, List.all_eq_true]
  intro k hk
  rw [List.mem_range, List.length_map] at hk
  by_cases hkl : (leavesOf counts).length ≤ k
  · obtain ⟨a, b, hab, hw, -⟩ := h.merges k hkl hk
    rw [hab]
    have hg : (nodes.map nodeWeight).getD k 0 =
        (nodes.map nodeWeight).getD a 0 + (nodes.map nodeWeight).getD b 0 := by
      rw [List.getD_eq_getElem?_getD, hw, Option.getD_some]
    simpa using hg
  · have hk' : k < (presentSymbols counts).length := by omega
    have : (nodes.map nodeLink)[k]? = ((leavesOf counts).map nodeLink)[k]? := by
      rw [← h.leaves, List.map_take, List.getElem?_take, if_pos (by omega)]
    rw [this, leaf_link (List.getElem?_eq_getElem hk')]

/-- The leaves of a build with their weights. -/
theorem buildTree_leaf (hl : counts.length = 256) (hb : ∀ n ∈ counts, n < 2 ^ 32) (hp : presentSymbols counts ≠ [])
    {i s : Nat} (h : (presentSymbols counts)[i]? = some s) :
    ((buildTree counts).1.map nodeLink)[i]? = some (.leaf (BitVec.ofNat 8 s)) ∧
    ((buildTree counts).1.map nodeWeight)[i]? = counts[s]? := by
  obtain ⟨-, -, hm⟩ := buildTree_inv hl hb hp
  have hlen : (leavesOf counts).length = (presentSymbols counts).length := List.length_map _
  have hi := (List.getElem?_eq_some_iff.1 h).1
  have hs := (mem_presentSymbols.1 (List.mem_of_getElem? h)).1
  generalize (buildTree counts).1 = nodes at *
  have hn : nodes[i]? = (leavesOf counts)[i]? := by
    conv => rhs; rw [← hm.leaves, List.getElem?_take, if_pos (by omega : i < (leavesOf counts).length)]
  constructor
  · rw [List.getElem?_map, hn, ← List.getElem?_map]; exact leaf_link h
  · rw [List.getElem?_map, hn, ← List.getElem?_map, leaf_weight hb h, List.getD_eq_getElem?_getD,
      List.getElem?_eq_getElem (by omega : s < counts.length)]
    rfl

end Sys2Proof.Machine
end

