-- ==== Sys2Proof/Laws/HostPort.lean ====
section
/-! SUPPORT. What a host access and a step can do, said once. -/

namespace Sys2Proof.Machine

variable {s t : State}

/-- A step answers by waiting or by doing the host's next action. -/
theorem step_cases (h : step s = .next t) :
    (s.pending = [] ∧ t = s) ∨
      ∃ a rest, s.pending = a :: rest ∧ perform a { s with pending := rest } = .next t := by
  unfold step at h
  split at h
  · rename_i hp
    cases h
    exact .inl ⟨hp, rfl⟩
  · rename_i a rest hp
    exact .inr ⟨a, rest, hp, h⟩

theorem step_of_pending {a : HostAction} {rest : List HostAction} (hp : s.pending = a :: rest) :
    step s = perform a { s with pending := rest } := by
  unfold step
  rw [hp]

/-- A host read that answers is a defined access to an element with a value, and changes nothing else. -/
theorem memRead_cases {sp : Space} {idx n : Nat} (h : memRead s sp idx n = .next t) :
    n = sp.width ∧ sp.inRange s.cfg idx = true ∧ ∃ e, spaceRead s sp idx = some e ∧
      t = { s with readData := some e } := by
  unfold memRead at h
  split_ifs at h with h1 h2
  rw [not_or, not_not, not_not] at h2
  split at h
  · rename_i e he
    cases h
    exact ⟨h2.1, h2.2, e, he, rfl⟩
  · cases h

/-- A host write that answers is a defined access while no command runs. -/
theorem memWrite_cases {sp : Space} {idx n : Nat} {v : BitVec n} (h : memWrite s sp idx n v = .next t) :
    s.state ≠ .busy ∧ n = sp.width ∧ sp.inRange s.cfg idx = true ∧ spaceWrite s sp idx (v.setWidth 32) = .next t := by
  unfold memWrite at h
  split_ifs at h with h1 h2
  rw [not_or, not_not, not_not] at h2
  exact ⟨h1, h2.1, h2.2, h⟩

theorem memWrite_eq {sp : Space} {idx n : Nat} {v : BitVec n} (hb : s.state ≠ .busy) (hn : n = sp.width)
    (hr : sp.inRange s.cfg idx = true) : memWrite s sp idx n v = spaceWrite s sp idx (v.setWidth 32) := by
  unfold memWrite
  rw [if_neg hb, if_neg (by simp [hn, hr])]

/-- A write to a register other than CMD changes lengths, root registers and valid bits only. -/
theorem regWrite_cases {v : Word} {k : Nat} (h : regWrite s v k = .next t) :
    (k = 0 ∧ issueCommand v s = .next t) ∨
    ∃ (valid : Valid) (l p r n : Word), valid.out = (s.valid.out && (k != 9 || !v.getLsbD 12)) ∧
      t = { s with valid := valid, inLen := l, pbLen := p, root := r, nnodes := n } := by
  unfold regWrite at h
  split at h
  · exact .inl ⟨rfl, h⟩
  · cases h; exact .inr ⟨s.valid, v, s.pbLen, s.root, s.nnodes, by simp, rfl⟩
  · cases h; exact .inr ⟨s.valid.set .pbits false, s.inLen, v, s.root, s.nnodes, by simp [Valid.set], rfl⟩
  · cases h; exact .inr ⟨s.valid.set .tree false, s.inLen, s.pbLen, v, s.nnodes, by simp [Valid.set], rfl⟩
  · cases h; exact .inr ⟨s.valid.set .tree false, s.inLen, s.pbLen, s.root, v, by simp [Valid.set], rfl⟩
  · cases h; exact .inr ⟨s.valid.vset v, s.inLen, s.pbLen, s.root, s.nnodes, by simp [Valid.vset], rfl⟩
  · cases h
    exact .inr ⟨s.valid.vclr v, s.inLen, s.pbLen, s.root, s.nnodes,
      by simp [Valid.vclr, vclrBit, Valid.get, statusBit], rfl⟩
  · rename_i h9 h8 h7 h6 h5 h3 h0
    cases h
    have : k ≠ 9 := fun he => by simp_all
    exact .inr ⟨s.valid, s.inLen, s.pbLen, s.root, s.nnodes, by simp [this], rfl⟩

/-- A word written to CMD is a command or fails as an illegal one. -/
theorem issueCommand_cases {w : Word} (h : issueCommand w s = .next t) :
    (∃ i, decode w = .ok i ∧ exec i s = .next t) ∨ ((∃ e, decode w = .error e) ∧ t = illegalCommand w s) := by
  unfold issueCommand at h
  split at h
  · rename_i i hd
    exact .inl ⟨i, hd, h⟩
  · rename_i e hd
    cases h
    exact .inr ⟨⟨e, hd⟩, rfl⟩

end Sys2Proof.Machine
end

