-- ==== Sys2Proof/Laws/Kraft.lean ====
section
/-! SUPPORT. Kraft's sum of the table CGEN derives from a well-formed tree (R162). -/

namespace Sys2Proof.Machine

variable {links : List Link} {root : Nat}

/-- What one code adds to Kraft's sum, times 2^255. -/
def kraftTerm (c : BitString) : Nat := if c = [] then 0 else 2 ^ (255 - c.length)

theorem kraftSum_eq (tbl : List BitString) : kraftSum tbl = (tbl.map kraftTerm).sum := by
  unfold kraftSum
  induction tbl with
  | nil => rfl
  | cons c tbl ih =>
    by_cases h : c = []
    · subst h; simpa [kraftTerm] using ih
    · have hc : (!c.isEmpty) = true := by simpa using h
      rw [List.filter_cons_of_pos (p := fun c : BitString => !c.isEmpty) hc, List.map_cons, List.sum_cons, ih, List.map_cons, List.sum_cons, kraftTerm, if_neg h]

/-- The codes below one node weigh what the node's path weighs. -/
theorem GoodTree.leafPaths_kraft (g : GoodTree links root) {fuel v : Nat} {pre : BitString}
    (hv : walk links root pre = some v) (hf : (leafSyms links).length ≤ pre.length + fuel) :
    ((leafPaths links fuel v pre).map fun q => 2 ^ (255 - q.2.length)).sum = 2 ^ (255 - pre.length) := by
  induction fuel generalizing v pre with
  | zero => have := g.walk_length hv; omega
  | succ fuel ih =>
    have hlt := g.walk_lt hv
    rw [leafPaths]
    cases hl : links[v]? with
    | none => rw [List.getElem?_eq_none_iff] at hl; omega
    | some l => cases l with
      | leaf s => simp
      | branch a b =>
        have ha : walk links root (pre ++ [false]) = some a := walk_snoc.2 ⟨v, a, b, hv, hl, rfl⟩
        have hb : walk links root (pre ++ [true]) = some b := walk_snoc.2 ⟨v, a, b, hv, hl, rfl⟩
        have h1 := g.walk_length ha
        have h2 := g.leaves_le
        rw [List.length_append, List.length_singleton] at h1
        simp only [List.map_append, List.sum_append]
        rw [ih ha (by simp; omega), ih hb (by simp; omega)]
        simp only [List.length_append, List.length_singleton]
        rw [show 255 - pre.length = (255 - (pre.length + 1)) + 1 by omega, Nat.pow_succ]
        omega

theorem leafPaths_paths_differ (fuel v : Nat) (pre : BitString) :
    (leafPaths links fuel v pre).Pairwise fun p q => p.2 ≠ q.2 := by
  induction fuel generalizing v pre with
  | zero => simp [leafPaths]
  | succ fuel ih =>
    rw [leafPaths]
    cases links[v]? with
    | none => simp
    | some l => cases l with
      | leaf s => simp
      | branch a b =>
        rw [List.pairwise_append]
        refine ⟨ih _ _, ih _ _, ?_⟩
        rintro ⟨s, p⟩ hp ⟨t, q⟩ hq
        obtain ⟨c, rfl, -⟩ := mem_leafPaths.1 hp
        obtain ⟨d, rfl, -⟩ := mem_leafPaths.1 hq
        simp

/-- CGEN's walk meets every symbol once. -/
theorem GoodTree.treeCodes_keys (g : GoodTree links root) : ((treeCodes links root).map Prod.fst).Nodup := by
  rw [List.Nodup, List.pairwise_map]
  have h : (treeCodes links root).Pairwise fun p q => p.2 ≠ q.2 := by
    unfold treeCodes
    cases links[root]? with
    | none => simp
    | some l => cases l with
      | leaf s => simp
      | branch a b => exact leafPaths_paths_differ ..
  refine h.imp_of_mem ?_
  rintro ⟨s, c⟩ ⟨t, d⟩ hp hq hcd hst
  cases hst
  exact hcd (g.treeCode_unique (g.mem_treeCodes.1 hp) (g.mem_treeCodes.1 hq))

theorem sum_range_single (n m c : Nat) : ((List.range n).map fun k => if k = m then c else 0).sum = if m < n then c else 0 := by
  induction n with
  | zero => simp
  | succ n ih =>
    rw [List.range_succ, List.map_append, List.sum_append, ih]
    by_cases h1 : m < n
    · have : n ≠ m := by omega
      simp [h1, this, Nat.lt_succ_of_lt h1]
    · by_cases h2 : n = m
      · subst h2; simp
      · have : ¬ m < n + 1 := by omega
        simp [h1, h2, this]

theorem sum_map_add (l : List Nat) (f h : Nat → Nat) : (l.map fun k => f k + h k).sum = (l.map f).sum + (l.map h).sum := by
  induction l with
  | nil => rfl
  | cons a l ih => simp only [List.map_cons, List.sum_cons, ih]; omega

/-- Summing over the 256 symbols is summing over the pairs of the list. -/
theorem sum_lookup {l : List (Byte × BitString)} (hk : (l.map Prod.fst).Nodup) (f : BitString → Nat) (h0 : f [] = 0) :
    ((List.range 256).map fun k => f ((l.lookup (BitVec.ofNat 8 k)).getD [])).sum = (l.map fun q => f q.2).sum := by
  induction l with
  | nil =>
    have : ((List.range 256).map fun _ => f []).sum = 0 := by
      rw [h0, List.map_const', List.sum_replicate, smul_zero]
    exact this
  | cons q l ih =>
    obtain ⟨s, d⟩ := q
    rw [List.map_cons, List.nodup_cons] at hk
    have hnone : l.lookup s = none := by
      cases h : l.lookup s with
      | none => rfl
      | some c => exact absurd (List.mem_map.2 ⟨_, GoodTree.mem_of_lookup h, rfl⟩) hk.1
    have hsplit : ∀ k ∈ List.range 256, f ((((s, d) :: l).lookup (BitVec.ofNat 8 k)).getD []) =
        (if k = s.toNat then f d else 0) + f ((l.lookup (BitVec.ofNat 8 k)).getD []) := by
      intro k hk
      rw [List.mem_range] at hk
      rw [List.lookup_cons]
      by_cases h : k = s.toNat
      · subst h
        simp [hnone, h0]
      · have : (BitVec.ofNat 8 k == s) = false := by
          rw [beq_eq_false_iff_ne]
          rintro rfl
          simp at h
          omega
        simp [this, h]
    rw [List.map_congr_left hsplit, sum_map_add, sum_range_single, ih hk.2, if_pos s.isLt]
    simp

/-- Kraft's sum is 1 for a tree of two or more leaves, and 1/2 for a tree of one (R162). -/
theorem GoodTree.kraft (g : GoodTree links root) :
    kraftSum (codeTable links root) = if (leafSyms links).length = 1 then 2 ^ 254 else 2 ^ 255 := by
  rw [kraftSum_eq, codeTable, List.map_map]
  have h := sum_lookup g.treeCodes_keys kraftTerm (by simp [kraftTerm])
  have hc : (fun k => kraftTerm (((treeCodes links root).lookup (BitVec.ofNat 8 k)).getD [])) =
      kraftTerm ∘ fun s => ((treeCodes links root).lookup (BitVec.ofNat 8 s)).getD [] := rfl
  rw [hc] at h
  refine h.trans ?_
  have hterm : ((treeCodes links root).map fun q => kraftTerm q.2) = (treeCodes links root).map fun q => 2 ^ (255 - q.2.length) := by
    refine List.map_congr_left fun q hq => ?_
    rw [kraftTerm, if_neg (GoodTree.treeCode_ne_nil (g.mem_treeCodes.1 (show (q.1, q.2) ∈ _ from hq)))]
  rw [hterm]
  have hcount := g.leaf_count
  unfold treeCodes
  cases hl : links[root]? with
  | none => rw [List.getElem?_eq_none_iff] at hl; have := g.root_lt; omega
  | some l => cases l with
    | leaf s =>
      have hone : links.length = 1 := by
        have hr : ∀ k < links.length, k = root := by
          intro k hk
          obtain ⟨p, hp⟩ := g.exists_walk hk
          by_cases hp0 : p = []
          · subst hp0; cases hp; rfl
          · rw [walk_leaf hl hp0] at hp; cases hp
        have := g.pos
        have h0 := hr 0 (by omega)
        by_contra hne
        have h1 := hr 1 (by omega)
        omega
      rw [if_pos (by omega)]
      simp
    | branch a b =>
      have h1 := g.walk_length (show walk links root ([] ++ [false]) = some a from walk_snoc.2 ⟨root, a, b, rfl, hl, rfl⟩)
      have hL : (leafSyms links).length ≠ 1 := by simp at h1; omega
      rw [if_neg hL]
      exact g.leafPaths_kraft (walk_nil links root) (by simp; omega)

end Sys2Proof.Machine
end

