-- ==== Sys2Proof/Laws/PerInstr.lean ====
section
/-! SUPPORT. Statements per command: the fields of its word (R90, R91). -/

namespace Sys2Proof.Laws.EncodedFields

/-- The word of a command has the command's fields, they are legal (R93), and its low byte is the OPC that LASTOP
takes (R34). -/
def Statement (i : Instr) : Prop :=
  wordFields (encode i) = i.fields ∧ i.wf = true ∧ (encode i).extractLsb' 0 8 = i.opcode

theorem hnop : Statement .hnop := by unfold Statement; decide
theorem hclr : Statement .hclr := by unfold Statement; decide
theorem fcnt : Statement .fcnt := by unfold Statement; decide
theorem tbld : Statement .tbld := by unfold Statement; decide
theorem cgen : Statement .cgen := by unfold Statement; decide
theorem bpack : Statement .bpack := by unfold Statement; decide
theorem bunpk : Statement .bunpk := by unfold Statement; decide
theorem hdecT : Statement .hdecT := by unfold Statement; decide
theorem hdecR : Statement .hdecR := by unfold Statement; decide
theorem henc : Statement .henc := by unfold Statement; decide
theorem hdcmpT : Statement .hdcmpT := by unfold Statement; decide
theorem hdcmpR : Statement .hdcmpR := by unfold Statement; decide

end Sys2Proof.Laws.EncodedFields
end

