-- ==== Sys2Proof/Laws/Reserved.lean ====
section
/-! SUPPORT. What the commands write keeps the stores canonical and their reserved bits clear (R60, R68, R100, R101). -/

namespace Sys2Proof.Machine

variable {s u : State}

/-! ## Masks -/

/-- A word has no bit from `n` on exactly when it is below 2^n. -/
theorem and_not_mask_iff {w n : Nat} (x : BitVec w) :
    x &&& ~~~ (BitVec.ofNat w (2 ^ n - 1)) = 0 ↔ x.toNat < 2 ^ n := by
  constructor
  · intro h
    refine Nat.lt_pow_two_of_testBit _ fun i hi => ?_
    by_cases hw : i < w
    · have := congrArg (fun y => y.getLsbD i) h
      simp only [BitVec.getLsbD_and, BitVec.getLsbD_not, BitVec.getLsbD_ofNat, Nat.testBit_two_pow_sub_one, hw,
        decide_true, Bool.true_and, show ¬ i < n by omega, decide_false, Bool.not_false,
        Bool.and_true] at this
      exact this.trans BitVec.getLsbD_zero
    · exact BitVec.getLsbD_of_ge x i (by omega)
  · intro h
    refine BitVec.eq_of_getLsbD_eq fun i hi => ?_
    simp only [BitVec.getLsbD_and, BitVec.getLsbD_not, BitVec.getLsbD_ofNat, Nat.testBit_two_pow_sub_one, hi,
      decide_true, Bool.true_and]
    by_cases hin : i < n
    · simp [hin]
    · have : x.getLsbD i = false := Nat.testBit_lt_two_pow (Nat.lt_of_lt_of_le h (Nat.pow_le_pow_right (by omega) (by omega)))
      simp [this]

theorem and_and_not {w : Nat} (x m : BitVec w) : (x &&& m) &&& ~~~ m = 0 := by
  refine BitVec.eq_of_getLsbD_eq fun i hi => ?_
  simp only [BitVec.getLsbD_and, BitVec.getLsbD_not, hi, decide_true, Bool.true_and]
  cases m.getLsbD i <;> simp

theorem leaf_word_mask (sym : Byte) : ((0 : BitVec 16) ++ sym ++ (0 : BitVec 8)) &&& ~~~ (0x0000FF01 : Word) = 0 := by
  revert sym; decide

theorem children_word_mask (left right : BitVec 9) :
    ((0 : BitVec 7) ++ right ++ (0 : BitVec 7) ++ left) &&& ~~~ (0x01FF01FF : Word) = 0 := by
  refine BitVec.eq_of_getLsbD_eq fun i hi => ?_
  simp only [BitVec.getLsbD_and, BitVec.getLsbD_append]
  interval_cases i <;> simp

theorem weight_words_mask {c : Config} {x : Weight} (h : x &&& ~~~ weightMask c = 0) :
    x.extractLsb' 0 32 &&& ~~~ treeMask c 1 = 0 ∧ (x.extractLsb' 32 8).setWidth 32 &&& ~~~ treeMask c 2 = 0 := by
  have hb : ∀ i, i < 40 → (x.getLsbD i && !(weightMask c).getLsbD i) = false := by
    intro i hi
    have := congrArg (fun y => y.getLsbD i) h
    simpa [hi] using this
  constructor
  · refine BitVec.eq_of_getLsbD_eq fun i hi => ?_
    have := hb i (by omega)
    simpa [treeMask, hi] using this
  · refine BitVec.eq_of_getLsbD_eq fun i hi => ?_
    by_cases h8 : i < 8
    · have := hb (32 + i) (by omega)
      simpa [treeMask, hi, h8] using this
    · simp [h8]

/-! ## Elements of a store -/

theorem Memory.mem_get {w n : Nat} {m : Memory w} (h : m.wf n) {c : Nat × BitVec w} : c ∈ m ↔ m.get c.1 = some c.2 := by
  obtain ⟨hp, -⟩ := h
  induction m with
  | nil => simp
  | cons d m ih =>
    obtain ⟨k, v⟩ := c
    rw [List.map_cons, List.pairwise_cons] at hp
    have ih := ih hp.2
    rw [Memory.get_cons, List.mem_cons]
    by_cases hk : d.1 = k
    · rw [if_pos hk]
      constructor
      · rintro (h | h)
        · rw [← h]
        · have := hp.1 k (List.mem_map.2 ⟨(k, v), h, rfl⟩)
          omega
      · intro h
        left
        obtain ⟨a, x⟩ := d
        simp only [Option.some.injEq] at h hk
        rw [hk, h]
    · rw [if_neg hk, ← ih]
      constructor
      · rintro (h | h)
        · rw [← h] at hk; exact absurd rfl hk
        · exact h
      · exact .inr

theorem Memory.mem_overwrite {w : Nat} {m : Memory w} {vs : List (BitVec w)} {c : Nat × BitVec w}
    (h : c ∈ m.overwrite vs) : (c.1 < vs.length ∧ vs[c.1]? = some c.2) ∨ c ∈ m := by
  rcases List.mem_append.1 h with h | h
  · left
    have hw : (Memory.from 0 vs).wf vs.length := Memory.wf_from (by omega)
    have h1 := Memory.mem_from h
    have h2 := (Memory.mem_get hw).1 h
    rw [Memory.get_from, if_pos (by omega), Nat.sub_zero] at h2
    exact ⟨by omega, h2⟩
  · exact .inr (List.mem_filter.1 h).1

/-! ## CODE as CGEN writes it -/

theorem codeCells_wf (tbl : List BitString) : (codeCells tbl).wf 4096 := by
  constructor
  · rw [codeCells, List.map_flatMap]
    simp only [Memory.from_keys, codeRecord_length]
    rw [List.pairwise_flatMap]
    refine ⟨fun a _ => List.pairwise_lt_range', List.pairwise_lt_range.imp fun {a b} hab x hx y hy => ?_⟩
    rw [List.mem_range'_1] at hx hy
    omega
  · intro c hc
    obtain ⟨a, ha, hc⟩ := List.mem_flatMap.1 hc
    have h1 := Memory.mem_from hc
    rw [List.mem_range] at ha
    rw [codeRecord_length] at h1
    omega

theorem codeCells_reserved {tbl : List BitString} (hl : ∀ a < 256, (tbl.getD a []).length ≤ 255)
    {c : Nat × Word} (hc : c ∈ codeCells tbl) : codeReserved c.1 = false ∧ c.2 &&& ~~~ codeMask (c.1 % 16) = 0 := by
  obtain ⟨a, ha, hm⟩ := List.mem_flatMap.1 hc
  have h1 := Memory.mem_from hm
  rw [List.mem_range] at ha
  rw [codeRecord_length] at h1
  have hg := (Memory.mem_get (codeCells_wf tbl)).1 hc
  obtain ⟨k, v⟩ := c
  simp only at *
  have hk : k = 16 * a + (k - 16 * a) := by omega
  rw [hk, codeCells_get tbl ha (by omega)] at hg
  constructor
  · simp only [codeReserved, decide_eq_false_iff_not]; omega
  · by_cases h0 : k - 16 * a = 0
    · rw [h0] at hg
      simp only [codeRecord, List.getElem?_cons_zero, Option.some.injEq] at hg
      have : k % 16 = 0 := by omega
      rw [this, ← hg]
      have := hl a ha
      exact (and_not_mask_iff (n := 8) _).2 (by rw [BitVec.toNat_ofNat]; omega)
    · have : codeMask (k % 16) = 0xFFFFFFFF := by
        have hne : k % 16 ≠ 0 := by omega
        unfold codeMask
        split
        · exact absurd ‹_› hne
        · rfl
      rw [this]
      exact BitVec.and_zero

/-! ## TREE as TBLD writes it -/

theorem node_words_reserved {c : Config} {n : Node} (h : nodeWeight n < 2 ^ (c.cntW + 8))
    {j : Nat} {v : Word} (hj : (Node.words n)[j]? = some v) : v &&& ~~~ treeMask c j = 0 := by
  have hw : ∀ x : Weight, x.toNat < 2 ^ (c.cntW + 8) → x &&& ~~~ weightMask c = 0 := fun x hx =>
    (and_not_mask_iff x).2 hx
  have h4 := (List.getElem?_eq_some_iff.1 hj).1
  rw [nodeWords_length] at h4
  cases n with
  | leaf sym w =>
    obtain ⟨h1, h2⟩ := weight_words_mask (hw w h)
    match j, h4 with
    | 0, _ => cases hj; exact leaf_word_mask sym
    | 1, _ => cases hj; exact h1
    | 2, _ => cases hj; exact h2
    | 3, _ => cases hj; exact BitVec.zero_and
  | internal w left right =>
    obtain ⟨h1, h2⟩ := weight_words_mask (hw w h)
    match j, h4 with
    | 0, _ => cases hj; exact (by decide : (1 : Word) &&& ~~~ (0x0000FF01 : Word) = 0)
    | 1, _ => cases hj; exact h1
    | 2, _ => cases hj; exact h2
    | 3, _ => cases hj; exact children_word_mask left right

/-- No node of a build weighs more than all the counts (R149). -/
theorem buildTree_weight_le {counts : List Nat} (hl : counts.length = 256) (hb : ∀ n ∈ counts, n < 2 ^ 32)
    (hp : presentSymbols counts ≠ []) {k : Nat} {n : Node} (hk : (buildTree counts).1[k]? = some n) :
    nodeWeight n ≤ counts.sum := by
  obtain ⟨hroot, hlen, hm⟩ := buildTree_inv hl hb hp
  obtain ⟨-, hsum, hmono⟩ := buildTree_weights hl hb hp
  have hk' := (List.getElem?_eq_some_iff.1 hk).1
  have hpos : 0 < (presentSymbols counts).length := List.length_pos_of_ne_nil hp
  have hw : ((buildTree counts).1.map nodeWeight).getD k 0 = nodeWeight n := by
    rw [List.getD_eq_getElem?_getD, List.getElem?_map, hk]; rfl
  by_cases hkl : (presentSymbols counts).length ≤ k
  · rw [← hw, ← hsum]
    exact hmono k _ hkl (by omega) (by omega)
  · have hi := List.getElem?_eq_getElem (show k < (presentSymbols counts).length by omega)
    have := (buildTree_leaf hl hb hp hi).2
    rw [List.getElem?_map, hk, Option.map_some] at this
    exact List.single_le_sum (fun _ _ => Nat.zero_le _) _ (List.mem_of_getElem? this.symm)

/-! ## What every body keeps -/

/-- The stores of a state are legal: parameters, canonical forms, reserved bits. -/
abbrev State.storesLegal (s : State) : Prop := s.cfg.wf ∧ s.storesCanonical ∧ s.reservedClear

theorem bodyFcnt_legal (h : s.storesLegal) (hin : s.inLen.toNat ≤ s.cfg.maxIn) (hb : bodyFcnt s = .ok u) :
    u.storesLegal := by
  obtain ⟨bytes, hr, rfl⟩ := bodyFcnt_ok_iff.1 hb
  obtain ⟨hc, ⟨h1, h2, h3, h4, h5, h6⟩, r1, r2, r3⟩ := h
  have hlen : bytes.length ≤ s.cfg.maxIn := by
    rw [← (readIn_ok_iff.1 hr).1]; exact hin
  refine ⟨hc, ⟨h1, Memory.wf_from (by simp), h3, h4, h5, h6⟩, fun c hm => ?_, r2, r3⟩
  obtain ⟨n, hn, hv⟩ := List.mem_map.1 (Memory.mem_from hm).2.2
  have : n ≤ (countSymbols bytes).sum := List.single_le_sum (fun _ _ => Nat.zero_le _) _ hn
  rw [countSymbols_sum] at this
  rw [← hv]
  refine (and_not_mask_iff _).2 ?_
  rw [BitVec.toNat_ofNat]
  have h9 := hc.1
  show n % 2 ^ 32 < 2 ^ s.cfg.cntW
  have : n % 2 ^ 32 ≤ n := Nat.mod_le _ _
  omega

theorem bodyTbld_legal (h : s.storesLegal) (hb : bodyTbld s = .ok u) : u.storesLegal := by
  obtain ⟨counts, hr, hp, rfl⟩ := bodyTbld_ok_iff.1 hb
  obtain ⟨hc, ⟨h1, h2, h3, h4, h5, h6⟩, r1, r2, r3⟩ := h
  obtain ⟨hl, hk⟩ := readFreq_ok_iff.1 hr
  have hsmall : ∀ n ∈ counts, n < 2 ^ s.cfg.cntW := by
    intro n hn
    obtain ⟨k, hk'⟩ := List.mem_iff_getElem?.1 hn
    have hlt := (List.getElem?_eq_some_iff.1 hk').1
    have := hk k (by omega)
    rw [hk', Option.map_eq_some_iff] at this
    obtain ⟨w, hw, rfl⟩ := this
    exact (and_not_mask_iff w).1 (r1 (k, w) ((Memory.mem_get h2).2 hw))
  have hbig : ∀ n ∈ counts, n < 2 ^ 32 := fun n hn =>
    Nat.lt_of_lt_of_le (hsmall n hn) (Nat.pow_le_pow_right (by omega) hc.2.1.2)
  have hsum : counts.sum < 2 ^ (s.cfg.cntW + 8) := by
    cases counts with
    | nil => exact Nat.two_pow_pos _
    | cons x l =>
      have a1 := hsmall x (by simp)
      have a2 := sum_le_of_lt l fun n hn => hsmall n (by simp [hn])
      have a3 : l.length = 255 := by simpa using hl
      rw [a3] at a2
      rw [List.sum_cons, Nat.pow_add]
      omega
  obtain ⟨-, hlen, -⟩ := buildTree_inv hl hbig hp
  have hle := presentSymbols_length_le counts
  refine ⟨hc, ⟨h1, h2, Memory.wf_overwrite h3 ?_, h4, h5, h6⟩, r1, fun c hm => ?_, r3⟩
  · rw [flatMap_words_length]; omega
  · rcases Memory.mem_overwrite hm with ⟨-, hv⟩ | hm
    · obtain ⟨k, v⟩ := c
      simp only at hv ⊢
      have hk4 : k = 4 * (k / 4) + k % 4 := by omega
      rw [hk4, flatMap_words_getElem? _ _ (by omega), Option.bind_eq_some_iff] at hv
      obtain ⟨n, hn, hv⟩ := hv
      exact node_words_reserved (Nat.lt_of_le_of_lt (buildTree_weight_le hl hbig hp hn) hsum) hv
    · exact r2 c hm

theorem bodyCgen_legal (h : s.storesLegal) (hb : bodyCgen s = .ok u) : u.storesLegal := by
  obtain ⟨links, hr, rfl⟩ := bodyCgen_ok_iff.1 hb
  obtain ⟨hc, ⟨h1, h2, h3, h4, h5, h6⟩, r1, r2, r3⟩ := h
  have hg := treeShape_iff.1 (loadTree_ok_iff.1 hr).2
  refine ⟨hc, ⟨h1, h2, h3, codeCells_wf _, h5, h6⟩, r1, r2, fun c hm => codeCells_reserved (fun a ha => ?_) hm⟩
  have := (hg.codeOf_length (BitVec.ofNat 8 a)).1
  rw [codeOf, BitVec.toNat_ofNat, Nat.mod_eq_of_lt ha] at this
  exact this

theorem bodyBunpk_legal (h : s.storesLegal) (hin : s.inLen.toNat ≤ s.cfg.maxIn) (hb : bodyBunpk s = .ok u) :
    u.storesLegal := by
  obtain ⟨h0, bytes, pb, hr, hu, rfl⟩ := bodyBunpk_ok_iff.1 hb
  obtain ⟨hc, ⟨h1, h2, h3, h4, h5, h6⟩, r1, r2, r3⟩ := h
  have hlen : bytes.length ≤ s.cfg.maxIn := by
    rw [← (readIn_ok_iff.1 hr).1]; exact hin
  refine ⟨hc, ⟨h1, h2, h3, h4, Memory.wf_from ?_, h6⟩, r1, r2, r3⟩
  rw [pbitsBytes_length]
  cases bytes with
  | nil => cases hu
  | cons x rest =>
    rw [unpackBuffer_cons] at hu
    split at hu
    · cases hu
    · cases hu
      simp only [List.length_cons, List.length_take, bitsOf_length] at *
      omega

/-- A body that delivers an output within capacity. -/
theorem deliver_legal (h : s.storesLegal) {vs : List Byte} (hv : vs.length ≤ s.cfg.maxOut) {n : Word} :
    State.storesLegal { s with out := s.out.overwrite vs, outLen := n } := by
  obtain ⟨hc, ⟨h1, h2, h3, h4, h5, h6⟩, hr⟩ := h
  exact ⟨hc, ⟨h1, h2, h3, h4, h5, Memory.wf_overwrite h6 hv⟩, hr⟩

/-! ## Outputs within capacity -/

theorem decodeTableLoop_length {tbl : List BitString} {m j : Nat} {p bits : BitString} {out syms : List Byte}
    (ho : out.length ≤ m) (h : decodeTableLoop tbl m j p out bits = .ok syms) : syms.length ≤ m := by
  induction bits generalizing j p out with
  | nil =>
    rw [decodeTableLoop] at h
    split at h
    · cases h; exact ho
    · cases h
  | cons b bs ih =>
    rw [decodeTableLoop] at h
    split at h
    · split at h
      · cases h
      · exact ih (by simp; omega) h
    · exact ih ho h

theorem decodeLeafLoop_length {sym : Byte} {m j : Nat} {bits : BitString} {out syms : List Byte}
    (ho : out.length ≤ m) (h : decodeLeafLoop sym m j out bits = .ok syms) : syms.length ≤ m := by
  induction bits generalizing j out with
  | nil => cases h; exact ho
  | cons b bs ih =>
    rw [decodeLeafLoop] at h
    split at h
    · cases h
    · split at h
      · cases h
      · exact ih (by simp; omega) h

theorem decodeTreeLoop_length {links : List Link} {root m j v start : Nat} {bits : BitString} {out syms : List Byte}
    (ho : out.length ≤ m) (h : decodeTreeLoop links root m j v start out bits = .ok syms) : syms.length ≤ m := by
  induction bits generalizing j v start out with
  | nil =>
    rw [decodeTreeLoop] at h
    split at h
    · cases h; exact ho
    · cases h
  | cons b bs ih =>
    rw [decodeTreeLoop] at h
    split at h
    · split at h
      · split at h
        · cases h
        · exact ih (by simp; omega) h
      · exact ih ho h
      · cases h
    · cases h
    · cases h

theorem decodeByTree_length {links : List Link} {root m : Nat} {bits : BitString} {syms : List Byte}
    (h : decodeByTree links root m bits = .ok syms) : syms.length ≤ m := by
  unfold decodeByTree at h
  split at h
  · exact decodeLeafLoop_length (Nat.zero_le _) h
  · exact decodeTreeLoop_length (Nat.zero_le _) h
  · cases h

/-- Every body that writes OUT writes an output of at most MAX_OUT bytes, complete up to OUT_LEN (R179, R210). -/
theorem delivered_complete (hc : s.cfg.wf) {vs : List Byte} (hv : vs.length ≤ s.cfg.maxOut) :
    (BitVec.ofNat 32 vs.length).toNat ≤ s.cfg.maxOut ∧
      ∀ i < (BitVec.ofNat 32 vs.length).toNat, (s.out.overwrite vs).get i ≠ none := by
  have hmod : vs.length % 2 ^ 32 ≤ vs.length := Nat.mod_le _ _
  rw [BitVec.toNat_ofNat]
  refine ⟨by omega, fun i hi => ?_⟩
  rw [Memory.get_overwrite, if_pos (by omega), List.getElem?_eq_getElem (by omega)]
  exact Option.some_ne_none _

end Sys2Proof.Machine
end

