-- ==== Sys2Proof/Laws/TreeDecoding.lean ====
section
/-! SUPPORT. Laws of decoding by the tree: it is decoding by the table CGEN derives from the tree (R206 to R208). -/

namespace Sys2Proof.Machine

variable {links : List Link} {root : Nat}

/-- Under a root that is an internal node both loops go on together: `p` is the bits since the last codeword and `v`
the node they lead to. -/
theorem GoodTree.loops_agree (g : GoodTree links root) {ra rb : Nat} (hr : links[root]? = some (.branch ra rb)) {m : Nat}
    {j v start : Nat} {p bs : BitString} {out : List Byte} (hv : walk links root p = some v) {a b : Nat}
    (hb : links[v]? = some (.branch a b)) (hs : p ≠ [] → start = j - p.length) :
    decodeTableLoop (codeTable links root) m j p out bs = decodeTreeLoop links root m j v start out bs := by
  have hroot : p = [] ↔ v = root := by
    constructor
    · rintro rfl; cases hv; rfl
    · rintro rfl; exact g.walk_inj hv (walk_nil links _)
  induction bs generalizing j v start p out a b with
  | nil =>
    rw [decodeTableLoop, decodeTreeLoop]
    by_cases hp : p = []
    · rw [if_pos hp, if_pos (hroot.1 hp)]
    · rw [if_neg hp, if_neg (fun h => hp (hroot.2 h)), hs hp]
  | cons bit bs ih =>
    have hc : walk links root (p ++ [bit]) = some (childOf a b bit) := walk_snoc.2 ⟨v, a, b, hv, hb, rfl⟩
    have hlt := g.child_lt hb bit
    have hcode : ∀ x, isTreeCode links root (p ++ [bit]) x ↔ links[childOf a b bit]? = some (.leaf x) := by
      intro x
      unfold isTreeCode
      simp only [hr, leafAt_eq_some_iff, hc, Option.some.injEq, exists_eq_left']
      simp
    rw [decodeTableLoop, decodeTreeLoop, hb]
    simp only
    cases hl : links[childOf a b bit]? with
    | none => rw [List.getElem?_eq_none_iff] at hl; omega
    | some l => cases l with
      | leaf sym =>
        have hi : inv (codeTable links root) (p ++ [bit]) = some sym :=
          (inv_eq_some_iff g.codeTable_shape).2 ⟨by simp, (g.codeOf_codeTable_iff (by simp)).2 ((hcode sym).2 hl)⟩
        rw [hi]
        simp only
        split
        · rfl
        · exact ih (walk_nil links root) hr (fun h => absurd rfl h) (by simp)
      | branch a' b' =>
        have hi : inv (codeTable links root) (p ++ [bit]) = none := by
          by_contra hne
          obtain ⟨y, hy⟩ := Option.ne_none_iff_exists'.1 hne
          obtain ⟨hne', hy⟩ := inv_some hy
          have := (hcode y).1 ((g.codeOf_codeTable_iff hne').1 hy)
          rw [hl] at this
          cases this
        rw [hi]
        simp only
        refine ih hc hl (fun _ => ?_) ?_
        · rw [List.length_append, List.length_singleton]
          split
          · rename_i hv0
            rw [hroot.2 hv0, List.length_nil]
            omega
          · rename_i hv0
            rw [hs fun h => hv0 (hroot.1 h)]
            omega
        · constructor
          · intro h; simp at h
          · intro h; exact absurd h (g.root_not_child hb bit)

/-- Under a root that is a leaf (R207). -/
theorem GoodTree.leaf_loops_agree (g : GoodTree links root) {sym : Byte} (hr : links[root]? = some (.leaf sym)) {m j : Nat}
    {bs : BitString} {out : List Byte} :
    decodeTableLoop (codeTable links root) m j [] out bs = decodeLeafLoop sym m j out bs := by
  have hcode : ∀ c x, isTreeCode links root c x ↔ c = [false] ∧ x = sym := by
    intro c x
    unfold isTreeCode
    simp only [hr]
  induction bs generalizing j out with
  | nil => rfl
  | cons bit bs ih =>
    rw [decodeTableLoop, decodeLeafLoop, List.nil_append]
    cases bit with
    | false =>
      have hi : inv (codeTable links root) [false] = some sym :=
        (inv_eq_some_iff g.codeTable_shape).2 ⟨by simp, (g.codeOf_codeTable_iff (by simp)).2 ((hcode _ _).2 ⟨rfl, rfl⟩)⟩
      rw [hi]
      simp only [Bool.false_eq_true, if_false]
      split
      · rfl
      · exact ih
    | true =>
      have hn : ∀ x, codeOf (codeTable links root) x ≠ [] → ¬ codeOf (codeTable links root) x <+: [true] ++ bs := by
        intro x hx hp
        rw [((hcode _ _).1 (g.isTreeCode_codeOf hx)).1] at hp
        simp at hp
      have hi : inv (codeTable links root) [true] = none := by
        by_contra hne
        obtain ⟨y, hy⟩ := Option.ne_none_iff_exists'.1 hne
        obtain ⟨hne', hy⟩ := inv_some hy
        have := ((hcode _ _).1 ((g.codeOf_codeTable_iff hne').1 hy)).1
        simp at this
      rw [hi]
      simp only [if_true]
      rw [decodeTableLoop_rest hn, if_neg (by simp)]
      simp

/-- The two strategies are one function on bit strings, errors included (R208). -/
theorem GoodTree.strategies_agree (g : GoodTree links root) (m : Nat) (bits : BitString) :
    decodeByTable (codeTable links root) m bits = decodeByTree links root m bits := by
  unfold decodeByTable decodeByTree
  cases hl : links[root]? with
  | none => rw [List.getElem?_eq_none_iff] at hl; have := g.root_lt; omega
  | some l => cases l with
    | leaf s => exact g.leaf_loops_agree hl
    | branch a b => exact g.loops_agree hl (walk_nil links root) hl (fun h => absurd rfl h)

/-- Concatenated leaf paths are concatenated codes of the derived table. -/
theorem GoodTree.encoded_of_paths (g : GoodTree links root) {parts : List (BitString × Byte)}
    (h : ∀ p ∈ parts, isTreeCode links root p.1 p.2) :
    parts.flatMap Prod.fst = encoded (codeTable links root) (parts.map Prod.snd) ∧
      AllCoded (codeTable links root) (parts.map Prod.snd) := by
  induction parts with
  | nil => exact ⟨rfl, nofun⟩
  | cons p parts ih =>
    rw [List.forall_mem_cons] at h
    obtain ⟨h1, h2⟩ := ih h.2
    have hc := (g.codeOf_codeTable_iff (treeCode_ne_nil h.1)).2 h.1
    refine ⟨?_, ?_⟩
    · rw [List.flatMap_cons, List.map_cons, encoded_cons, hc, h1]
    · rw [List.map_cons]
      simp only [AllCoded, List.forall_mem_cons]
      exact ⟨hc ▸ treeCode_ne_nil h.1, h2⟩

/-- Decoding by the tree (R206, R209): the leaves of the paths, if nothing is left over. -/
theorem GoodTree.decodeByTree_paths (g : GoodTree links root) {m : Nat} {parts : List (BitString × Byte)} {rest : BitString}
    (h : ∀ p ∈ parts, isTreeCode links root p.1 p.2) (hm : parts.length ≤ m)
    (hr : ∀ c x, isTreeCode links root c x → ¬ c <+: rest) :
    decodeByTree links root m (parts.flatMap Prod.fst ++ rest) =
      if rest = [] then .ok (parts.map Prod.snd)
      else .error (.raise .invalidCode (BitVec.ofNat 32 (parts.flatMap Prod.fst).length)) := by
  obtain ⟨h1, h2⟩ := g.encoded_of_paths h
  rw [← g.strategies_agree, h1]
  exact decodeByTable_encoded g.codeTable_shape h2 (by simpa using hm) fun x hx => hr _ x (g.isTreeCode_codeOf hx)

/-- A path too many (R210). -/
theorem GoodTree.decodeByTree_overflow (g : GoodTree links root) {m : Nat} {parts : List (BitString × Byte)}
    {rest : BitString} (h : ∀ p ∈ parts, isTreeCode links root p.1 p.2) (hm : parts.length = m + 1) :
    decodeByTree links root m (parts.flatMap Prod.fst ++ rest) = .error (.raise .capacity 1) := by
  obtain ⟨h1, h2⟩ := g.encoded_of_paths h
  rw [← g.strategies_agree, h1]
  exact decodeByTable_overflow g.codeTable_shape h2 (by simpa using hm)

end Sys2Proof.Machine
end

