-- ==== Sys2Proof/Tests/Slice0.lean ====
section
/-! SUPPORT. Tests: the checks of WellFormed refuse an ill-formed term each, the command words of R91 decode, one
step of each command gives what 95_test_vectors.md says, and the hypotheses of every obligation can be met. -/

namespace Sys2Proof.Tests.Slice0

-- One theorem at a time: with many waiting at once their threads' stacks exceed the sandbox's memory.
set_option Elab.async false

open Sys2Proof Sys2Proof.Machine

/-! ## WellFormed: one ill-formed term for each check -/

theorem test_default_config_wf : Config.default.wf := by decide
theorem test_wf_refuses_max_in_zero : ¬ (Config.mk 32 0 2).wf := by decide
theorem test_wf_refuses_max_in_above_counts : ¬ (Config.mk 4 16 2).wf := by decide
theorem test_wf_refuses_max_out_below_two : ¬ (Config.mk 32 1 1).wf := by decide
theorem test_wf_refuses_cnt_w_zero : ¬ (Config.mk 0 1 2).wf := by decide
theorem test_wf_refuses_cnt_w_above_32 : ¬ (Config.mk 33 1 2).wf := by decide
theorem test_wf_refuses_max_out_above_register : ¬ (Config.mk 32 1 4294967296).wf := by decide
theorem test_wf_refuses_max_in_above_register : ¬ (Config.mk 32 536870912 2).wf := by decide
theorem test_wf_refuses_zero_field : (CmdFields.mk 1 0 0x00).wf = false := by decide
theorem test_wf_refuses_unassigned_opcode : (CmdFields.mk 0 0 0x02).wf = false := by decide
theorem test_wf_refuses_strategy_bit : (CmdFields.mk 0 1 0x10).wf = false := by decide
theorem test_wf_accepts_strategy_bit : (CmdFields.mk 0 1 0x21).wf = true := by decide
theorem test_wf_refuses_wrong_width : (HostAction.read .freq 0 8).wf Config.default = false := by decide
theorem test_wf_refuses_index_above_in : (HostAction.write .inp 65536 8 0).wf Config.default = false := by decide
theorem test_wf_refuses_index_above_out : (HostAction.read .out 2097154 8).wf Config.default = false := by decide
theorem test_wf_refuses_index_above_freq : (HostAction.read .freq 256 32).wf Config.default = false := by decide
theorem test_wf_refuses_index_above_tree : (HostAction.read .tree 2044 32).wf Config.default = false := by decide
theorem test_wf_refuses_index_above_code : (HostAction.read .code 4096 32).wf Config.default = false := by decide
theorem test_wf_refuses_index_above_pbits : (HostAction.read .pbits 65536 8).wf Config.default = false := by decide
theorem test_wf_accepts_reserved_register : (HostAction.read .reg 12 32).wf Config.default = true := by decide

/-! ## Decoding: the words of R91 as format C (R90) writes them, ZERO . S . OPC -/

theorem test_decode_hnop : decode 0b00000000000000000000000_0_00000000 = .ok .hnop := by decide
theorem test_decode_hclr : decode 0b00000000000000000000000_0_00000001 = .ok .hclr := by decide
theorem test_decode_fcnt : decode 0b00000000000000000000000_0_00010000 = .ok .fcnt := by decide
theorem test_decode_tbld : decode 0b00000000000000000000000_0_00010001 = .ok .tbld := by decide
theorem test_decode_cgen : decode 0b00000000000000000000000_0_00010010 = .ok .cgen := by decide
theorem test_decode_bpack : decode 0b00000000000000000000000_0_00010011 = .ok .bpack := by decide
theorem test_decode_bunpk : decode 0b00000000000000000000000_0_00010100 = .ok .bunpk := by decide
theorem test_decode_hdec_t : decode 0b00000000000000000000000_0_00010101 = .ok .hdecT := by decide
theorem test_decode_hdec_r : decode 0b00000000000000000000000_1_00010101 = .ok .hdecR := by decide
theorem test_decode_henc : decode 0b00000000000000000000000_0_00100000 = .ok .henc := by decide
theorem test_decode_hdcmp_t : decode 0b00000000000000000000000_0_00100001 = .ok .hdcmpT := by decide
theorem test_decode_hdcmp_r : decode 0b00000000000000000000000_1_00100001 = .ok .hdcmpR := by decide

/-- V18: words that are no command. -/
theorem test_decode_refuses :
    decode 0x00000002 = .error .opcodeNotAssigned ∧ decode 0x00000016 = .error .opcodeNotAssigned ∧
    decode 0x00000110 = .error .strategyBitNotAllowed ∧ decode 0x00000120 = .error .strategyBitNotAllowed ∧
    decode 0x00000200 = .error .zeroFieldNotZero ∧ decode 0x80000020 = .error .zeroFieldNotZero ∧
    decode 0xFFFFFFFF = .error .zeroFieldNotZero := by decide

/-! ## Small states -/

/-- A block with an IN of 16 bytes and an OUT of the default size for it (R7). -/
def tiny : Config := ⟨32, 16, 514⟩

/-- That block after reset. -/
def blank : State := State.resetWith tiny

/-- `host in` of some bytes (R104), as the state it leaves. -/
def withIn (s : State) (bytes : List Byte) : State :=
  { s with inp := Memory.from 0 bytes, inLen := BitVec.ofNat 32 bytes.length }

/-- The 256 counts with given positive ones. -/
def countsOf (pos : List (Byte × Nat)) : List Nat :=
  (List.range 256).map fun k => (pos.lookup (BitVec.ofNat 8 k)).getD 0

/-- The 256 codes with given non-empty ones. -/
def tableOf (pos : List (Byte × BitString)) : List BitString :=
  (List.range 256).map fun k => (pos.lookup (BitVec.ofNat 8 k)).getD []

/-- FREQ loaded by the host and declared valid. -/
def withFreq (s : State) (counts : List Nat) : State :=
  { s with freq := Memory.from 0 (counts.map (BitVec.ofNat 32)), valid := { s.valid with freq := true } }

/-- TREE loaded by the host and declared valid. -/
def withTree (s : State) (nodes : List Node) (root : Word) : State :=
  { s with tree := Memory.from 0 (nodes.flatMap Node.words), root := root,
           nnodes := BitVec.ofNat 32 nodes.length, valid := { s.valid with tree := true } }

/-- A code table loaded by the host and declared valid. -/
def withTable (s : State) (tbl : List BitString) : State :=
  { s with code := codeCells tbl, valid := { s.valid with code := true } }

/-- PBITS loaded by the host and declared valid. -/
def withBits (s : State) (bytes : List Byte) (len : Word) : State :=
  { s with pbits := Memory.from 0 bytes, pbLen := len, valid := { s.valid with pbits := true } }

/-- Whether an outcome is a next state with a property. -/
def nextIs (o : Host.Outcome State Fault Refusal) (p : State → Bool) : Bool :=
  match o with
  | .next t => p t
  | .fault _ => false
  | .refused _ => false

/-- The next state of an outcome, or a given state. -/
def after (s : State) (o : Host.Outcome State Fault Refusal) : State :=
  match o with
  | .next t => t
  | .fault _ => s
  | .refused _ => s

/-- The first `n` elements of a store. -/
def first {w : Nat} (n : Nat) (m : Memory w) : List (Option (BitVec w)) := (List.range n).map m.get

/-- "cabc", "aaaa", and the tables and trees V4 and V1 give for them. -/
def cabc : List Byte := [0x63, 0x61, 0x62, 0x63]
def aaaa : List Byte := [0x61, 0x61, 0x61, 0x61]
def tableV4 : List BitString := tableOf [(0x63, [false]), (0x61, [true, false]), (0x62, [true, true])]
def tableV1 : List BitString := tableOf [(0x61, [false])]
def countsV4 : List Nat := countsOf [(0x61, 1), (0x62, 1), (0x63, 2)]
def nodesV4 : List Node :=
  [.leaf 0x61 1, .leaf 0x62 1, .leaf 0x63 2, .internal 2 0 1, .internal 4 2 3]
def countsEight : List Nat := countsOf [(0x61, 8)]
def nodesV1 : List Node := [.leaf 0x61 4]
def tableV5 : List BitString := tableOf [(0x61, [false, false]), (0x62, [false, true]), (0x63, [true, false]),
  (0x64, [true, true])]
def nodesV5 : List Node :=
  [.leaf 0x61 1, .leaf 0x62 1, .leaf 0x63 1, .leaf 0x64 1, .internal 2 0 1, .internal 2 2 3, .internal 4 4 5]
def linksV4 : List Link := [.leaf 0x61, .leaf 0x62, .leaf 0x63, .branch 0 1, .branch 2 3]

/-! ## What those states hold, so that no test reads a store of hundreds of elements -/

theorem codeHolds_of_cells {s : State} {tbl : List BitString} (h : s.code = codeCells tbl) (hn : tbl.length = 256)
    (hl : ∀ c ∈ tbl, c.length ≤ 255) : CodeHolds s tbl := by
  refine ⟨hn, fun k hk => h ▸ codeCells_holds hk ?_⟩
  have hk' : k < tbl.length := by omega
  simpa [hk'] using hl _ (List.getElem_mem hk')

theorem loadCode_of_cells {s : State} {tbl : List BitString} (h : s.code = codeCells tbl) (hn : tbl.length = 256)
    (hl : ∀ c ∈ tbl, c.length ≤ 255) (hs : codeShape tbl = true) : loadCode s = .ok tbl :=
  loadCode_ok_iff.mpr ⟨codeHolds_of_cells h hn hl, hs⟩

theorem freqHolds_of_counts {s : State} {counts : List Nat} (h : s.freq = Memory.from 0 (counts.map (BitVec.ofNat 32)))
    (hn : counts.length = 256) (hb : ∀ n ∈ counts, n < 2 ^ 32) : FreqHolds s counts := by
  refine ⟨hn, fun k hk => ?_⟩
  have hk' : k < counts.length := by omega
  have hc : counts[k] < 2 ^ 32 := hb _ (List.getElem_mem hk')
  simpa [h, Memory.get_from, hk'] using hc

theorem readFreq_of_counts {s : State} {counts : List Nat} (h : s.freq = Memory.from 0 (counts.map (BitVec.ofNat 32)))
    (hn : counts.length = 256) (hb : ∀ n ∈ counts, n < 2 ^ 32) : readFreq s = .ok counts :=
  readFreq_ok_iff.mpr (freqHolds_of_counts h hn hb)

theorem table_v4 : tableV4.length = 256 ∧ (∀ c ∈ tableV4, c.length ≤ 255) ∧ codeShape tableV4 = true := by
  decide +kernel

theorem table_v1 : tableV1.length = 256 ∧ (∀ c ∈ tableV1, c.length ≤ 255) ∧ codeShape tableV1 = true := by
  decide +kernel

theorem table_v5 : tableV5.length = 256 ∧ (∀ c ∈ tableV5, c.length ≤ 255) ∧ codeShape tableV5 = true := by
  decide +kernel

theorem loadCode_v4 {s : State} (h : s.code = codeCells tableV4) : loadCode s = .ok tableV4 :=
  loadCode_of_cells h table_v4.1 table_v4.2.1 table_v4.2.2

theorem loadCode_v1 {s : State} (h : s.code = codeCells tableV1) : loadCode s = .ok tableV1 :=
  loadCode_of_cells h table_v1.1 table_v1.2.1 table_v1.2.2

theorem loadCode_v5 {s : State} (h : s.code = codeCells tableV5) : loadCode s = .ok tableV5 :=
  loadCode_of_cells h table_v5.1 table_v5.2.1 table_v5.2.2

theorem counts_v4 : countsV4.length = 256 ∧ (∀ n ∈ countsV4, n < 2 ^ 32) ∧ ∃ n ∈ countsV4, 0 < n := by decide +kernel

theorem counts_eight : countsEight.length = 256 ∧ ∀ n ∈ countsEight, n < 2 ^ 32 := by decide +kernel

/-! "aaaaaaaa" through the stages of HENC (V9). -/

theorem eight_counts : countSymbols (List.replicate 8 0x61) = countsEight := by decide +kernel

theorem eight_tree : buildTree countsEight = ([.leaf 0x61 8], 0) := by decide +kernel

theorem eight_present : presentSymbols countsEight ≠ [] := by
  intro h
  have := congrArg (fun l => 0x61 ∈ l) h
  simp only [presentSymbols, List.mem_filter, List.not_mem_nil, eq_iff_iff, iff_false] at this
  exact this (by decide +kernel)

theorem leaf_codes : codeTable [.leaf 0x61] 0 = tableV1 := by decide +kernel

theorem eight_encoded : encodeSymbols tableV1 0 (List.replicate 8 0x61) = .ok (List.replicate 8 false) := by
  decide +kernel

theorem present_of_zeros : presentSymbols (List.replicate 256 0) = [] := by
  simp only [presentSymbols, List.filter_eq_nil_iff, List.getD_eq_getElem?_getD, List.getElem?_replicate]
  intro k _
  split <;> simp

/-! ## One step of each command: the results of 95_test_vectors.md -/

/-- V18, V21. -/
theorem test_hnop : nextIs (exec .hnop { blank with sticky := 0b0100000, state := .err, ecode := some .sequence })
    (fun t => statusWord t == 0x00400002) = true := by decide

/-- V18: HCLR leaves STATUS 0x01000000. -/
theorem test_hclr : nextIs (exec .hclr (withFreq (withIn blank cabc) (countsOf [(0x61, 1)])))
    (fun t => statusWord t == 0x01000000 && t.inLen == 4) = true := by decide

/-- V4: a = 1, b = 1, c = 2. P2: STATUS 0x10000102. -/
theorem test_fcnt : nextIs (exec .fcnt (withIn blank cabc)) (fun t => t.state == .done && statusWord t == 0x10000102 &&
    [t.freq.get 0x60, t.freq.get 0x61, t.freq.get 0x62, t.freq.get 0x63, t.freq.get 255] ==
      [some 0, some 1, some 1, some 2, some 0]) = true := by decide +kernel

/-- V11 (d), with the capacity of the small block: CapacityError, STATUS 0x10800073. -/
theorem test_fcnt_capacity : nextIs (exec .fcnt { blank with inLen := 17 })
    (fun t => statusWord t == 0x10800073 && t.errinfo == 0) = true := by decide

/-- V4: the leaf c is extracted before the internal node of equal weight; records as R100 lays them out. -/
theorem test_tbld : nextIs (exec .tbld (withFreq blank countsV4))
    (fun t => t.state == .done && statusWord t == 0x11000302 && t.root == 4 && t.nnodes == 5 &&
      first 20 t.tree == [0x00006100, 1, 0, 0, 0x00006200, 1, 0, 0, 0x00006300, 2, 0, 0,
        1, 2, 0, 0x00010000, 1, 4, 0, 0x00030002].map some) = true := by
  have h : readFreq { withFreq blank countsV4 with lastop := Instr.tbld.opcode } = .ok countsV4 :=
    readFreq_of_counts rfl counts_v4.1 counts_v4.2.1
  simp only [exec, execTbld, runCommand, bodyTbld, h]
  decide +kernel

/-- V21: TBLD from reset is a SequenceError, STATUS 0x11400063. -/
theorem test_tbld_sequence : nextIs (exec .tbld blank)
    (fun t => statusWord t == 0x11400063 && t.errinfo == 0x100) = true := by decide

/-- V4: c = "0", a = "10", b = "11"; words as R101 lays them out. -/
theorem test_cgen : nextIs (exec .cgen (withTree blank nodesV4 4))
    (fun t => t.state == .done && statusWord t == 0x12000602 &&
      [t.code.get (16 * 0x63), t.code.get (16 * 0x63 + 1), t.code.get (16 * 0x61), t.code.get (16 * 0x61 + 1),
        t.code.get (16 * 0x62), t.code.get (16 * 0x62 + 1), t.code.get (16 * 0x64)] ==
        [1, 0, 2, 0x80000000, 2, 0xC0000000, 0].map some) = true := by decide +kernel

/-- V1: a root that is a leaf gets "0". -/
theorem test_cgen_one_leaf : nextIs (exec .cgen (withTree blank nodesV1 0))
    (fun t => [t.code.get (16 * 0x61), t.code.get (16 * 0x61 + 1)] == [1, 0].map some) = true := by decide +kernel

/-- V4, V12: "cabc" packs to 02 58. -/
theorem test_bpack : nextIs (exec .bpack (withTable (withIn blank cabc) tableV4))
    (fun t => t.state == .done && statusWord t == 0x13001402 && t.outLen == 2 && first 3 t.out == [some 0x02, some 0x58, none]) = true := by
  have h : loadCode { withTable (withIn blank cabc) tableV4 with lastop := Instr.bpack.opcode } = .ok tableV4 :=
    loadCode_v4 rfl
  simp only [exec, execBpack, runCommand, bodyBpack, h]
  decide +kernel

/-- V12: "abx" is an UnknownSymbolError at index 2. -/
theorem test_bpack_unknown : nextIs (exec .bpack (withTable (withIn blank [0x61, 0x62, 0x78]) tableV4))
    (fun t => statusWord t == 0x13040423 && t.errinfo == 2 && t.outLen == 0) = true := by
  have h : loadCode { withTable (withIn blank [0x61, 0x62, 0x78]) tableV4 with lastop := Instr.bpack.opcode } =
    .ok tableV4 := loadCode_v4 rfl
  simp only [exec, execBpack, runCommand, bodyBpack, h]
  decide +kernel

/-- V13: 08 1B 00 unpacks to "00011011". -/
theorem test_bunpk : nextIs (exec .bunpk (withIn blank [0x08, 0x1B, 0x00])) (fun t => t.state == .done &&
    statusWord t == 0x14000802 && t.pbLen == 8 && first 2 t.pbits == [some 0x1B, none]) = true := by decide

/-- V13: 09 00 is a CorruptPaddingError with info 9. -/
theorem test_bunpk_corrupt : nextIs (exec .bunpk (withIn blank [0x09, 0x00]))
    (fun t => statusWord t == 0x14080033 && t.errinfo == 9 && t.pbLen == 0) = true := by decide

/-- P2: "010110" decodes to "cabc" by the table. -/
theorem test_hdec_t : nextIs (exec .hdecT (withBits (withTable blank tableV4) [0x58] 6))
    (fun t => statusWord t == 0x15001C02 && t.outLen == 4 && first 5 t.out == cabc.map some ++ [none]) = true := by
  have h : loadCode { withBits (withTable blank tableV4) [0x58] 6 with lastop := Instr.hdecT.opcode } = .ok tableV4 :=
    loadCode_v4 rfl
  simp only [exec, execHdecT, runCommand, bodyHdecT, h]
  decide +kernel

/-- P2: the same by the tree. -/
theorem test_hdec_r : nextIs (exec .hdecR (withBits (withTree blank nodesV4 4) [0x58] 6))
    (fun t => statusWord t == 0x15001A02 && t.outLen == 4 && first 5 t.out == cabc.map some ++ [none]) = true := by
  decide +kernel

/-- V16, last row: a 1 bit under a root that is a leaf fails at its index and delivers nothing. -/
theorem test_hdec_r_leaf_root : nextIs (exec .hdecR (withBits (withTree blank nodesV1 0) [0x10] 4))
    (fun t => statusWord t == 0x15100A43 && t.errinfo == 3 && t.outLen == 0) = true := by decide +kernel

/-- V5: 08 1B 00 decompresses to "abcd" by the table. -/
theorem test_hdcmp_t : nextIs (exec .hdcmpT (withTable (withIn blank [0x08, 0x1B, 0x00]) tableV5))
    (fun t => t.state == .done && statusWord t == 0x21001C02 && t.pbLen == 8 && t.outLen == 4 &&
      first 5 t.out == [some 0x61, some 0x62, some 0x63, some 0x64, none]) = true := by
  let s0 : State := { withTable (withIn blank [0x08, 0x1B, 0x00]) tableV5 with lastop := Instr.hdcmpT.opcode }
  let s1 : State := { s0 with pbits := Memory.from 0 [0x1B], pbLen := 8, freeCtr := 1 }
  have hp : pbitsBytes [false, false, false, true, true, false, true, true] (Config.freeByte 0) = [0x1B] := by
    decide
  have hu : bodyBunpk s0 = .ok s1 := bodyBunpk_ok_iff.mpr ⟨by decide, [0x08, 0x1B, 0x00],
    [false, false, false, true, true, false, true, true], by decide, by decide, by
      rw [show s0.freeCtr = 0 from rfl, hp]; rfl⟩
  have hb : bodyHdcmpT s0 = .ok (deliver s1 [0x61, 0x62, 0x63, 0x64]) := bodyHdcmpT_ok_iff.mpr
    ⟨tableV5, s1, loadCode_v5 rfl, hu, bodyHdecT_ok_iff.mpr ⟨tableV5, [false, false, false, true, true, false, true, true],
      [0x61, 0x62, 0x63, 0x64], loadCode_v5 rfl, by decide +kernel, by decide +kernel, rfl⟩⟩
  simp only [exec, execHdcmpT, runCommand]
  rw [show bodyHdcmpT _ = _ from hb]
  decide +kernel

/-- V5: the same by the tree. -/
theorem test_hdcmp_r : nextIs (exec .hdcmpR (withTree (withIn blank [0x08, 0x1B, 0x00]) nodesV5 6))
    (fun t => t.state == .done && statusWord t == 0x21001A02 && t.pbLen == 8 && t.outLen == 4 &&
      first 5 t.out == [some 0x61, some 0x62, some 0x63, some 0x64, none]) = true := by decide +kernel

/-- V13: a header byte 0 is reported before any bit is decoded. -/
theorem test_hdcmp_r_corrupt : nextIs (exec .hdcmpR (withTree (withIn blank [0x00, 0x6E]) nodesV5 6))
    (fun t => statusWord t == 0x21080233 && t.errinfo == 0) = true := by decide +kernel

/-- "aaaaaaaa" in a small block with an OUT of `m` bytes. -/
def eight (m : Nat) : State := withIn (State.resetWith ⟨32, 16, m⟩) (List.replicate 8 0x61)

/-- V9: "aaaaaaaa" compresses to 08 00 00; P1's STATUS. The stages are run one by one. -/
theorem test_henc : nextIs (exec .henc (eight 514))
    (fun t => t.state == .done && statusWord t == 0x20001702 && t.outLen == 3 &&
      first 4 t.out == [some 0x08, some 0x00, some 0x00, none] && t.root == 0 && t.nnodes == 1 &&
      decide (t.cfg = tiny)) = true := by
  let s0 : State := { eight 514 with lastop := Instr.henc.opcode }
  let s1 : State := { s0 with freq := Memory.from 0 (countsEight.map (BitVec.ofNat 32)) }
  let s2 : State := { s1 with tree := Memory.from 0 (Node.words (.leaf 0x61 8)), root := 0, nnodes := 1 }
  let s3 : State := { s2 with code := codeCells tableV1 }
  let s4 : State := { s3 with out := Memory.from 0 [0x08, 0x00, 0x00], outLen := 3 }
  have h1 : bodyFcnt s0 = .ok s1 := bodyFcnt_ok_iff.mpr ⟨List.replicate 8 0x61, rfl, by rw [eight_counts]⟩
  have h2 : bodyTbld s1 = .ok s2 := bodyTbld_ok_iff.mpr ⟨countsEight,
    readFreq_of_counts rfl counts_eight.1 counts_eight.2, eight_present, by rw [eight_tree]; rfl⟩
  have h3 : bodyCgen s2 = .ok s3 := bodyCgen_ok_iff.mpr
    ⟨[.leaf 0x61], rfl, congrArg (fun c => { s2 with code := codeCells c }) leaf_codes.symm⟩
  have h4 : bodyBpack s3 = .ok s4 := bodyBpack_ok_iff.mpr ⟨tableV1, List.replicate 8 0x61, List.replicate 8 false,
    loadCode_v1 rfl, rfl, eight_encoded, by decide, rfl⟩
  have h : bodyHenc s0 = .ok s4 := bodyHenc_ok_iff.mpr ⟨s1, s2, s3, h1, h2, h3, h4⟩
  simp only [exec, execHenc, runCommand]
  rw [show bodyHenc _ = _ from h]
  decide +kernel

/-- FREQ with all counts 0. -/
@[irreducible] def zeros : Memory 32 := Memory.from 0 ((List.replicate 256 0).map (BitVec.ofNat 32))

theorem tbld_of_zeros {s : State} (h : s.freq = zeros) : bodyTbld s = .error (.raise .emptyInput 0) :=
  bodyTbld_of_empty (readFreq_of_counts (h.trans (by unfold zeros; rfl)) List.length_replicate
    fun n h => by rw [List.eq_of_mem_replicate h]; decide) present_of_zeros

theorem fcnt_of_nothing {s : State} (h : s.inLen = 0) : bodyFcnt s = .ok { s with freq := zeros } :=
  bodyFcnt_ok_iff.mpr ⟨[], by rw [readIn, h]; rfl, by unfold zeros; rfl⟩

theorem henc_of_nothing {s : State} (h : s.inLen = 0) : bodyHenc s = .error (.raise .emptyInput 0) :=
  bodyHenc_of_tbld_error (fcnt_of_nothing h) (tbld_of_zeros rfl)

/-- P4: HENC of nothing is an EmptyInputError. -/
theorem test_henc_empty : nextIs (exec .henc blank) (fun t => statusWord t == 0x20020013 && t.outLen == 0) = true := by
  have h : exec .henc blank = .next (fail [.freq, .tree, .code, .out] .emptyInput 0 { blank with lastop := 0x20 }) :=
    (exec_eq_runCommand rfl).trans <| runCommand_of_raise (i := .henc) (precheck_none_iff.mpr
      ⟨(by decide : missing .henc ⟨false, false, false, false, false⟩ = 0), fun _ => (by decide : 0 ≤ 16), nofun⟩)
      (henc_of_nothing rfl)
  rw [h]
  decide

/-! ## Witnesses: the hypotheses of each obligation that has some, clause by clause, met by one state each -/

theorem exists_next {o : Host.Outcome State Fault Refusal} {p : State → Bool} (h : nextIs o p = true) :
    ∃ t, o = .next t ∧ p t = true := by
  cases o with
  | next t => exact ⟨t, rfl, h⟩
  | fault _ => cases h
  | refused _ => cases h

/-- The state of a small block with a table, a tree and a bit string of V4, with "cabc" in IN. -/
def full : State := withBits (withTree (withTable (withIn blank cabc) tableV4) nodesV4 4) [0x58] 6

/-- `encode i ≠ w` for the words of V18. -/
theorem word_120_is_no_command (i : Instr) : (0x120 : Word) ≠ encode i := by cases i <;> decide

theorem witness_DecodeAcceptsExactlyTheTwelveWords : decode 0x121 = .ok .hdcmpR ∧ (0x121 : Word) = encode .hdcmpR := by
  decide

theorem witness_IllegalWordsAreRejectedByReason :
    (0x200 : Word).extractLsb' 9 23 ≠ 0 ∧ (0xFFFFFFFF : Word).extractLsb' 9 23 ≠ 0 ∧
    ((0x002 : Word).extractLsb' 9 23 = 0 ∧ (0x002 : Word).extractLsb' 0 8 ∉ assignedOpcodes) ∧
    ((0x122 : Word).extractLsb' 9 23 = 0 ∧ (0x122 : Word).extractLsb' 0 8 ∉ assignedOpcodes) ∧
    ((0x120 : Word).extractLsb' 9 23 = 0 ∧ (0x120 : Word).extractLsb' 0 8 ∈ assignedOpcodes ∧
      (0x120 : Word).getLsbD 8 = true ∧ (0x120 : Word).extractLsb' 0 8 ∉ strategyOpcodes) := by decide

theorem witness_StepRunsTheDecodedCommand :
    ({ full with pending := [.write .reg 0 32 0x115, .reset] } : State).pending = .write .reg 0 32 0x115 :: [.reset] ∧
    full.state ≠ .busy ∧ decode 0x115 = .ok .hdecR := ⟨rfl, by decide, by decide⟩

theorem witness_IllegalWordFailsAtOnce :
    ({ full with pending := [.write .reg 0 32 0x120] } : State).pending = .write .reg 0 32 0x120 :: [] ∧
    full.state ≠ .busy ∧ ∀ i, (0x120 : Word) ≠ encode i := ⟨rfl, by decide, word_120_is_no_command⟩

theorem witness_WaitingBlockKeepsItsState : State.reset.pending = [] := rfl

theorem witness_BusyBlockAllowsOnlyStatusReads :
    ({ blank with state := .busy } : State).state = .busy ∧ (Space.reg ≠ .reg ∨ 2 ≠ 1) ∧ (Space.inp ≠ .reg ∨ 1 ≠ 1) := by
  decide

theorem witness_SequenceErrorNamesTheMissingStores :
    (blank.valid.freq = false ∧ blank.valid.tree = false ∧ blank.valid.code = false ∧ blank.valid.pbits = false) ∧
    (let s := withTable blank tableV4; s.valid.pbits = false ∧ s.valid.code = true) ∧
    (let s := withBits blank [] 0; s.valid.pbits = true ∧ s.valid.code = false ∧ s.valid.tree = false) ∧
    (let s := withTree blank nodesV4 4; s.valid.pbits = false ∧ s.valid.tree = true) := by decide

theorem witness_LengthsAboveCapacityAreRefusedFirst :
    (let s := withTable (withTree { blank with inLen := 17 } nodesV4 4) tableV4
     (∀ i ∈ [Instr.fcnt, .bpack, .bunpk, .henc, .hdcmpT, .hdcmpR], ∀ x ∈ needs i, s.valid.get x = true) ∧
     s.cfg.maxIn + 1 = s.inLen.toNat) ∧
    (let s := withBits (withTable (withTree blank nodesV4 4) tableV4) [] 129
     (∀ i ∈ [Instr.hdecT, .hdecR], ∀ x ∈ needs i, s.valid.get x = true) ∧ 8 * s.cfg.maxIn + 1 = s.pbLen.toNat) := by
  decide

theorem witness_FailureTouchesDestinationsOnly : ∃ t, exec .tbld blank = .next t ∧ t.state = .err := ⟨_, rfl, rfl⟩

theorem witness_SuccessTouchesDestinationsOnly : ∃ t, exec .bpack (withTable (withIn blank cabc) tableV4) = .next t ∧
    t.state = .done := by
  obtain ⟨t, h, hp⟩ := exists_next test_bpack
  simp only [Bool.and_eq_true, beq_iff_eq] at hp
  exact ⟨t, h, hp.1.1.1⟩

theorem witness_ElementsBeyondTheResultAreKept : tiny.wf ∧ ∃ t,
    exec .bpack (withTable (withIn blank cabc) tableV4) = .next t ∧ t.state = .done :=
  ⟨by decide, witness_SuccessTouchesDestinationsOnly⟩

theorem witness_CommandsEndDoneOrErr : (∃ t, exec .hclr blank = .next t) ∧ (∃ t, exec .hnop blank = .next t) ∧
    ∃ t, exec .tbld blank = .next t ∧ t.state = .err := ⟨⟨_, rfl⟩, ⟨_, rfl⟩, ⟨_, rfl, rfl⟩⟩

theorem witness_CommandsDependOnlyOnTheirSources :
    let s := withIn blank [0x08, 0x1B, 0x00]
    let u := withTree { s with errinfo := 7, sticky := 1 } nodesV4 4
    u.cfg = s.cfg ∧ u.freeCtr = s.freeCtr ∧ (∀ x ∈ needs .bunpk, u.valid.get x = s.valid.get x) ∧
    (u.inp = s.inp ∧ u.inLen = s.inLen) ∧ s.cfg.wf ∧ (∃ t, exec .bunpk s = .next t) :=
  ⟨rfl, rfl, by decide, ⟨rfl, rfl⟩, by decide, exists_next test_bunpk |>.imp fun _ h => h.1⟩

theorem witness_FcntCountsEverySymbol :
    (tiny.wf ∧ HasInput (withIn blank cabc) cabc) ∧ HasInput blank [] ∧
    HasInput (withIn blank (List.replicate 16 0xFF)) (List.replicate 16 0xFF) ∧
    ({ blank with inLen := 17 } : State).cfg.maxIn < ({ blank with inLen := 17 } : State).inLen.toNat := by decide

theorem witness_FcntCountsAreExact : tiny.wf ∧ ∃ t, exec .fcnt (withIn blank cabc) = .next t ∧ t.state = .done := by
  obtain ⟨t, h, hp⟩ := exists_next test_fcnt
  simp only [Bool.and_eq_true, beq_iff_eq] at hp
  exact ⟨by decide, t, h, hp.1.1⟩

theorem witness_FcntOfEmptyInput : State.reset.inLen = 0 := rfl

theorem freqHolds_v4 : FreqHolds (withFreq blank countsV4) countsV4 :=
  freqHolds_of_counts rfl counts_v4.1 counts_v4.2.1

theorem freqHolds_eight : FreqHolds (withFreq blank countsEight) countsEight :=
  freqHolds_of_counts rfl counts_eight.1 counts_eight.2

theorem witness_TbldMergesGreedily : (withFreq blank countsV4).valid.freq = true ∧
    FreqHolds (withFreq blank countsV4) countsV4 ∧ ∃ n ∈ countsV4, 0 < n :=
  ⟨rfl, freqHolds_v4, counts_v4.2.2⟩

theorem witness_TbldOfEmptyMapping : (withFreq blank (List.replicate 256 0)).valid.freq = true ∧
    FreqHolds (withFreq blank (List.replicate 256 0)) (List.replicate 256 0) ∧ ∀ n ∈ List.replicate 256 0, n = 0 :=
  ⟨rfl, freqHolds_of_counts rfl List.length_replicate fun n h => by rw [List.eq_of_mem_replicate h]; decide,
    fun _ h => List.eq_of_mem_replicate h⟩

theorem witness_TreeOfOneSymbolGetsCodeZero : (withFreq blank countsEight).valid.freq = true ∧
    FreqHolds (withFreq blank countsEight) countsEight ∧ ∀ k < 256, 0 < countsEight.getD k 0 ↔ k = (0x61 : Byte).toNat :=
  ⟨rfl, freqHolds_eight, by decide +kernel⟩

theorem witness_TbldBuildsWellFormedTree : FreqHolds (withFreq blank countsV4) countsV4 ∧
    ∃ t, exec .tbld (withFreq blank countsV4) = .next t ∧ t.state = .done := by
  obtain ⟨t, h, hp⟩ := exists_next test_tbld
  simp only [Bool.and_eq_true, beq_iff_eq] at hp
  exact ⟨freqHolds_v4, t, h, hp.1.1.1.1⟩

theorem hasTree_v4 : HasTree (withTree blank nodesV4 4) linksV4 := by decide +kernel

theorem hasTree_v1 : HasTree (withTree blank nodesV1 0) [.leaf 0x61] := by decide +kernel

theorem witness_CgenAssignsLeafPaths : HasTree (withTree blank nodesV4 4) linksV4 ∧
    HasTree (withTree blank nodesV1 0) [.leaf 0x61] := ⟨hasTree_v4, hasTree_v1⟩

theorem witness_CgenMakesCompletePrefixCode : ∃ t, exec .cgen (withTree blank nodesV4 4) = .next t ∧ t.state = .done := by
  obtain ⟨t, h, hp⟩ := exists_next test_cgen
  simp only [Bool.and_eq_true, beq_iff_eq] at hp
  exact ⟨t, h, hp.1.1⟩

theorem witness_CodesAreShorterThanTheLeafCount :
    (∃ t, exec .cgen (withTree blank nodesV4 4) = .next t ∧ t.state = .done) ∧
    TreeHolds (withTree blank nodesV4 4) linksV4 ∧ 2 ≤ (leafSyms linksV4).length :=
  ⟨witness_CgenMakesCompletePrefixCode, hasTree_v4.2.1, by decide⟩

theorem codeHolds_v4 {s : State} (h : s.code = codeCells tableV4) : CodeHolds s tableV4 :=
  codeHolds_of_cells h table_v4.1 table_v4.2.1

/-- A small block with the table of V4, an input, a bit string and an OUT of `m` bytes. -/
def tabled (m : Nat) (bytes pb : List Byte) (len : Word) : State :=
  withBits (withTable (withIn (State.resetWith ⟨32, 16, m⟩) bytes) tableV4) pb len

theorem hasTable_v4 (m : Nat) (bytes pb : List Byte) (len : Word) : HasTable (tabled m bytes pb len) tableV4 :=
  ⟨rfl, codeHolds_v4 rfl, table_v4.2.2⟩

theorem allCoded_cabc : AllCoded tableV4 cabc := by decide +kernel

theorem encoded_cabc : encoded tableV4 cabc = [false, true, false, true, true, false] := by decide +kernel

theorem witness_BpackWritesThePaddedBuffer : tiny.wf ∧ HasTable (tabled 514 cabc [] 0) tableV4 ∧
    HasInput (tabled 514 cabc [] 0) cabc ∧ AllCoded tableV4 cabc ∧
    2 + (encoded tableV4 cabc).length / 8 ≤ (tabled 514 cabc [] 0).cfg.maxOut ∧
    2 + (encoded tableV4 cabc).length / 8 = (tabled 2 cabc [] 0).cfg.maxOut :=
  ⟨by decide, hasTable_v4 .., by decide, allCoded_cabc, by rw [encoded_cabc]; decide, by rw [encoded_cabc]; decide⟩

theorem witness_BpackReportsFirstUnknownSymbol :
    let bytes : List Byte := [0x61, 0x62, 0x78]
    HasTable (tabled 514 bytes [] 0) tableV4 ∧ HasInput (tabled 514 bytes [] 0) bytes ∧
    AllCoded tableV4 (bytes.take 2) ∧ bytes[2]? = some 0x78 ∧ codeOf tableV4 0x78 = [] :=
  ⟨hasTable_v4 .., by decide, by decide +kernel, rfl, by decide +kernel⟩

theorem witness_BpackOfEmptyStream : tiny.wf ∧ HasTable (tabled 514 [] [] 0) tableV4 ∧
    (tabled 514 [] [] 0).inLen = 0 := ⟨by decide, hasTable_v4 .., rfl⟩

theorem witness_BpackOutputCapacity :
    let bytes : List Byte := List.replicate 8 0x63
    (HasTable (tabled 2 bytes [] 0) tableV4 ∧ HasInput (tabled 2 bytes [] 0) bytes ∧ AllCoded tableV4 bytes ∧
      (tabled 2 bytes [] 0).cfg.maxOut < 2 + (encoded tableV4 bytes).length / 8) ∧
    (tabled 514 bytes [] 0).cfg.maxOut = 32 * (tabled 514 bytes [] 0).cfg.maxIn + 2 :=
  ⟨⟨hasTable_v4 .., by decide, by decide +kernel, by decide +kernel⟩, rfl⟩

theorem witness_BunpkStripsHeaderAndPadding :
    (tiny.wf ∧ HasInput (withIn blank [0x01, 0x80]) [0x01, 0x80] ∧
      UnpacksTo [0x01, 0x80] [true, false, false, false, false, false, false]) ∧
    (HasInput (withIn blank [0x08, 0x00]) [0x08, 0x00] ∧ UnpacksTo [0x08, 0x00] []) := by decide

theorem witness_CorruptPaddingIsReported :
    (∀ bytes ∈ ([[], [0x00], [0x00, 0x00], [0x09, 0x00], [0x08]] : List (List Byte)),
      HasInput (withIn blank bytes) bytes ∧ HasInput (withTree (withIn blank bytes) nodesV1 0) bytes ∧
      HasTree (withTree (withIn blank bytes) nodesV1 0) [.leaf 0x61]) ∧
    (HasInput (tabled 514 [0x09, 0x00] [] 0) [0x09, 0x00] ∧ HasTable (tabled 514 [0x09, 0x00] [] 0) tableV4) ∧
    ((0x00 : Byte) = 0 ∧ 8 < (0x09 : Byte).toNat ∧ 8 * ([] : List Byte).length < (0x08 : Byte).toNat) :=
  ⟨by decide +kernel, ⟨by decide, hasTable_v4 ..⟩, by decide⟩

theorem witness_PaddingBitsAreNotChecked : tiny.wf ∧
    HasInput (withIn blank [0x04, 0x00]) (0x04 :: [0x00]) ∧ HasInput (withIn blank [0x04, 0x0F]) (0x04 :: [0x0F]) ∧
    1 ≤ (0x04 : Byte).toNat ∧ (0x04 : Byte).toNat ≤ 8 ∧
    (bitsOf [0x00]).take (8 * 1 - (0x04 : Byte).toNat) = (bitsOf [0x0F]).take (8 * 1 - (0x04 : Byte).toNat) := by decide

theorem witness_BunpkInvertsBpack : tiny.wf ∧ CodeHolds (withTable (withIn blank cabc) tableV4) tableV4 ∧
    InHolds (withTable (withIn blank cabc) tableV4) cabc ∧
    (∃ t, exec .bpack (withTable (withIn blank cabc) tableV4) = .next t ∧ t.state = .done ∧ OutHolds t [0x02, 0x58]) ∧
    HasInput (withIn blank [0x02, 0x58]) [0x02, 0x58] := by
  refine ⟨by decide, codeHolds_v4 rfl, by decide, ?_, by decide⟩
  obtain ⟨t, h, hp⟩ := exists_next test_bpack
  simp only [Bool.and_eq_true, beq_iff_eq, first, List.range, List.range.loop, List.map_cons, List.map_nil,
    List.cons.injEq] at hp
  refine ⟨t, h, hp.1.1.1, by rw [hp.1.2]; rfl, fun i hi => ?_⟩
  match i, hi with
  | 0, _ => exact hp.2.1
  | 1, _ => exact hp.2.2.1
  | _ + 2, hi => simp at hi

theorem witness_HdecTDecodesCodes : tiny.wf ∧ HasTable (tabled 514 [] [0x58] 6) tableV4 ∧
    HasBits (tabled 514 [] [0x58] 6) (encoded tableV4 cabc) ∧ AllCoded tableV4 cabc ∧
    cabc.length ≤ (tabled 514 [] [0x58] 6).cfg.maxOut ∧ cabc.length = (tabled 4 [] [0x58] 6).cfg.maxOut :=
  ⟨by decide, hasTable_v4 .., by rw [encoded_cabc]; decide, allCoded_cabc, by decide, rfl⟩

theorem no_code_v4_starts_one (x : Byte) (h : codeOf tableV4 x ≠ []) : ¬ codeOf tableV4 x <+: [true] := by
  have : ∀ c ∈ tableV4, c ≠ [] → ¬ c <+: [true] := by decide +kernel
  refine this _ ?_ h
  unfold codeOf at h ⊢
  rw [List.getD_eq_getElem?_getD] at h ⊢
  cases hx : tableV4[x.toNat]? with
  | none => simp [hx] at h
  | some c => simpa using List.mem_of_getElem? hx

theorem witness_HdecTReportsTheIncompleteCode :
    (HasTable (tabled 514 [] [0x40] 2) tableV4 ∧ HasBits (tabled 514 [] [0x40] 2) (encoded tableV4 [0x63] ++ [true]) ∧
      AllCoded tableV4 [0x63] ∧ [0x63].length ≤ (tabled 514 [] [0x40] 2).cfg.maxOut ∧
      ∀ x, codeOf tableV4 x ≠ [] → ¬ codeOf tableV4 x <+: [true]) ∧
    (HasTable (tabled 3 [] [0x58] 6) tableV4 ∧ HasBits (tabled 3 [] [0x58] 6) (encoded tableV4 cabc ++ []) ∧
      AllCoded tableV4 cabc ∧ cabc.length = (tabled 3 [] [0x58] 6).cfg.maxOut + 1) := by
  have h1 : encoded tableV4 [0x63] = [false] := by decide +kernel
  exact ⟨⟨hasTable_v4 .., by rw [h1]; decide, by decide +kernel, by decide, no_code_v4_starts_one⟩,
    hasTable_v4 .., by rw [encoded_cabc]; decide, allCoded_cabc, rfl⟩

/-- "cabc" as paths of the tree of V4. -/
def partsV4 : List (BitString × Byte) :=
  [([false], 0x63), ([true, false], 0x61), ([true, true], 0x62), ([false], 0x63)]

theorem paths_v4 : ∀ p ∈ partsV4, isTreeCode linksV4 4 p.1 p.2 := by
  intro p hp
  simp only [partsV4, List.mem_cons, List.not_mem_nil, or_false] at hp
  rcases hp with rfl | rfl | rfl | rfl <;> exact ⟨by decide, by decide⟩

theorem witness_HdecRDecodesLeafPaths :
    let s := withBits (withTree blank nodesV4 4) [0x58] 6
    tiny.wf ∧ HasTree s linksV4 ∧ HasBits s (partsV4.flatMap Prod.fst) ∧
    (∀ p ∈ partsV4, isTreeCode linksV4 s.root.toNat p.1 p.2) ∧ partsV4.length ≤ s.cfg.maxOut :=
  ⟨by decide, by decide +kernel, by decide, paths_v4, by decide⟩

theorem witness_HdecRReportsTheIncompletePath :
    (let s := withBits (withTree blank nodesV4 4) [0x80] 1
     HasTree s linksV4 ∧ HasBits s (([] : List (BitString × Byte)).flatMap Prod.fst ++ [true]) ∧
     ∀ c x, isTreeCode linksV4 s.root.toNat c x → ¬ c <+: [true]) ∧
    (let s := withBits (withTree blank nodesV1 0) [0x10] 4
     HasTree s [.leaf 0x61] ∧
     HasBits s ((List.replicate 3 ([false], (0x61 : Byte))).flatMap Prod.fst ++ [true]) ∧
     (∀ p ∈ List.replicate 3 ([false], (0x61 : Byte)), isTreeCode [.leaf 0x61] s.root.toNat p.1 p.2) ∧
     ∀ c x, isTreeCode [.leaf 0x61] s.root.toNat c x → ¬ c <+: [true]) ∧
    (let s := withBits (withTree { blank with cfg := ⟨32, 16, 3⟩ } nodesV4 4) [0x58] 6
     HasTree s linksV4 ∧ HasBits s (partsV4.flatMap Prod.fst ++ []) ∧
     (∀ p ∈ partsV4, isTreeCode linksV4 s.root.toNat p.1 p.2) ∧ partsV4.length = s.cfg.maxOut + 1) := by
  refine ⟨⟨by decide +kernel, by decide, ?_⟩, ⟨by decide +kernel, by decide, ?_, ?_⟩,
    by decide +kernel, by decide, paths_v4, rfl⟩
  · rintro c x ⟨hc, hx⟩ hp
    have : c = [true] := by
      rcases List.prefix_cons_iff.1 hp with h | ⟨t, h, ht⟩
      · exact absurd h hc
      · rw [h, List.prefix_nil.1 ht]
    subst this
    exact absurd hx (by decide +revert)
  · intro p hp
    rw [List.eq_of_mem_replicate hp]
    exact ⟨rfl, rfl⟩
  · rintro c x ⟨rfl, rfl⟩
    decide

theorem witness_HdecOfEmptyBits :
    (HasTable (tabled 514 [] [] 0) tableV4 ∧ (tabled 514 [] [] 0).valid.pbits = true ∧ (tabled 514 [] [] 0).pbLen = 0) ∧
    (let s := withBits (withTree blank nodesV4 4) [] 0
     HasTree s linksV4 ∧ s.valid.pbits = true ∧ s.pbLen = 0) :=
  ⟨⟨hasTable_v4 .., rfl, rfl⟩, by decide +kernel⟩

theorem witness_StrategiesAgree : tiny.wf ∧ ∃ t,
    exec .cgen (withBits (withTree blank nodesV4 4) [0x58] 6) = .next t ∧ t.state = .done ∧
      HasBits t [false, true, false, true, true, false] := by
  have h : nextIs (exec .cgen (withBits (withTree blank nodesV4 4) [0x58] 6)) (fun t => t.state == .done &&
      decide (HasBits t [false, true, false, true, true, false])) = true := by decide +kernel
  obtain ⟨t, h, hp⟩ := exists_next h
  simp only [Bool.and_eq_true, beq_iff_eq, decide_eq_true_eq] at hp
  exact ⟨by decide, t, h, hp.1, hp.2⟩

theorem unpacks_cabc : UnpacksTo [0x02, 0x58] [false, true, false, true, true, false] := by decide

theorem witness_HdcmpTDecodesTheBuffer : tiny.wf ∧ HasTable (tabled 514 [0x02, 0x58] [] 0) tableV4 ∧
    HasInput (tabled 514 [0x02, 0x58] [] 0) [0x02, 0x58] ∧ UnpacksTo [0x02, 0x58] (encoded tableV4 cabc) ∧
    AllCoded tableV4 cabc ∧ cabc.length ≤ (tabled 514 [0x02, 0x58] [] 0).cfg.maxOut :=
  ⟨by decide, hasTable_v4 .., by decide, encoded_cabc ▸ unpacks_cabc, allCoded_cabc, by decide⟩

theorem witness_HdcmpRDecodesTheBuffer :
    let s := withTree (withIn blank [0x02, 0x58]) nodesV4 4
    tiny.wf ∧ HasTree s linksV4 ∧ HasInput s [0x02, 0x58] ∧ UnpacksTo [0x02, 0x58] (partsV4.flatMap Prod.fst) ∧
    (∀ p ∈ partsV4, isTreeCode linksV4 s.root.toNat p.1 p.2) ∧ partsV4.length ≤ s.cfg.maxOut :=
  ⟨by decide, by decide +kernel, by decide, by decide, paths_v4, by decide⟩

/-- The clauses of the statement in turn: both succeed, HDEC fails, BUNPK fails. -/
theorem witness_HdcmpIsBunpkThenHdec :
    (let s := withTree (withIn blank [0x08, 0x1B, 0x00]) nodesV5 6
     tiny.wf ∧ ∃ t, exec .bunpk s = .next t ∧ t.state = .done ∧ ∃ u, exec .hdecR t = .next u ∧ u.state = .done) ∧
    (let s := withTree (withIn blank [0x08, 0x80, 0x00]) nodesV1 0
     ∃ t, exec .bunpk s = .next t ∧ t.state = .done ∧ ∃ u, exec .hdecR t = .next u ∧ u.state = .err) ∧
    (let s := withTree (withIn blank [0x00, 0x6E]) nodesV4 4
     (∃ t, exec .bunpk s = .next t ∧ t.state = .err) ∧ HasTree s linksV4) := by
  have h1 : nextIs (exec .bunpk (withTree (withIn blank [0x08, 0x1B, 0x00]) nodesV5 6)) (fun t => t.state == .done &&
      nextIs (exec .hdecR t) fun u => u.state == .done) = true := by decide +kernel
  have h2 : nextIs (exec .bunpk (withTree (withIn blank [0x08, 0x80, 0x00]) nodesV1 0)) (fun t => t.state == .done &&
      nextIs (exec .hdecR t) fun u => u.state == .err) = true := by decide +kernel
  obtain ⟨t, ht, hp⟩ := exists_next h1
  obtain ⟨t', ht', hp'⟩ := exists_next h2
  simp only [Bool.and_eq_true, beq_iff_eq] at hp hp'
  obtain ⟨u, hu, hq⟩ := exists_next hp.2
  obtain ⟨u', hu', hq'⟩ := exists_next hp'.2
  exact ⟨⟨by decide, t, ht, hp.1, u, hu, by simpa using hq⟩, ⟨t', ht', hp'.1, u', hu', by simpa using hq'⟩,
    ⟨_, rfl, rfl⟩, by decide +kernel⟩

theorem witness_HencCompresses : tiny.wf ∧ HasInput (withIn blank aaaa) aaaa ∧ aaaa ≠ [] ∧
    32 * (withIn blank aaaa).cfg.maxIn + 2 ≤ (withIn blank aaaa).cfg.maxOut := by decide

/-- The states after FCNT, TBLD and CGEN of "aaaaaaaa". -/
def eightA (m : Nat) : State := succeed [.freq]
  { eight m with lastop := 0x10, freq := Memory.from 0 (countsEight.map (BitVec.ofNat 32)) }
def eightB (m : Nat) : State := succeed [.tree]
  { eightA m with lastop := 0x11, tree := Memory.from 0 (Node.words (.leaf 0x61 8)), root := 0, nnodes := 1 }
def eightC (m : Nat) : State := succeed [.code] { eightB m with lastop := 0x12, code := codeCells tableV1 }

theorem eight_fcnt (m : Nat) : exec .fcnt (eight m) = .next (eightA m) :=
  runCommand_of_ok (i := .fcnt) (precheck_none_iff.mpr
    ⟨(by decide : missing .fcnt ⟨false, false, false, false, false⟩ = 0), fun _ => (by decide : 8 ≤ 16), nofun⟩)
    (bodyFcnt_ok_iff.mpr ⟨List.replicate 8 0x61, rfl, by rw [eight_counts]; rfl⟩)

theorem eight_tbld (m : Nat) : exec .tbld (eightA m) = .next (eightB m) :=
  runCommand_of_ok (i := .tbld) (precheck_none_iff.mpr
    ⟨(by decide : missing .tbld ⟨true, false, false, false, false⟩ = 0), nofun, nofun⟩) (bodyTbld_ok_iff.mpr
    ⟨countsEight, readFreq_of_counts rfl counts_eight.1 counts_eight.2, eight_present, by rw [eight_tree]; rfl⟩)

theorem eight_cgen (m : Nat) : exec .cgen (eightB m) = .next (eightC m) :=
  runCommand_of_ok (i := .cgen) (precheck_none_iff.mpr
    ⟨(by decide : missing .cgen ⟨true, true, false, false, false⟩ = 0), nofun, nofun⟩) (bodyCgen_ok_iff.mpr
    ⟨[.leaf 0x61], rfl, congrArg (fun c => { eightB m with lastop := 0x12, code := codeCells c }) leaf_codes.symm⟩)

theorem eight_checks (m : Nat) : precheck .bpack { eightC m with lastop := Instr.bpack.opcode } = none :=
  precheck_none_iff.mpr
    ⟨(by decide : missing .bpack ⟨true, true, true, false, false⟩ = 0), fun _ => (by decide : 8 ≤ 16), nofun⟩

theorem eight_packs : ∃ d, exec .bpack (eightC 514) = .next d ∧ d.state = .done :=
  ⟨_, runCommand_of_ok (i := .bpack) (body := bodyBpack) (s := eightC 514) (eight_checks _)
    (bodyBpack_ok_iff.mpr ⟨tableV1, List.replicate 8 0x61, List.replicate 8 false, loadCode_v1 rfl, rfl, eight_encoded,
      by decide, rfl⟩), rfl⟩

theorem eight_overflows : ∃ d, exec .bpack (eightC 2) = .next d ∧ d.state = .err :=
  ⟨_, runCommand_of_raise (i := .bpack) (body := bodyBpack) (s := eightC 2) (eight_checks _)
    (bodyBpack_of_overflow (loadCode_v1 rfl) (bytes := List.replicate 8 0x61) rfl eight_encoded (by decide)), rfl⟩

/-- The states after FCNT and TBLD of nothing. -/
def nothingA : State := succeed [.freq] { blank with lastop := 0x10, freq := zeros }
def nothingB : State := fail [.tree] .emptyInput 0 { nothingA with lastop := 0x11 }

theorem nothing_fcnt : exec .fcnt blank = .next nothingA :=
  (exec_eq_runCommand rfl).trans <| runCommand_of_ok (i := .fcnt) (precheck_none_iff.mpr
    ⟨(by decide : missing .fcnt ⟨false, false, false, false, false⟩ = 0), fun _ => (by decide : 0 ≤ 16), nofun⟩)
    (fcnt_of_nothing rfl)

theorem nothing_tbld : exec .tbld nothingA = .next nothingB :=
  (exec_eq_runCommand rfl).trans <| runCommand_of_raise (i := .tbld) (precheck_none_iff.mpr
    ⟨(by decide : missing .tbld ⟨true, false, false, false, false⟩ = 0), nofun, nofun⟩)
    (tbld_of_zeros (s := { nothingA with lastop := 0x11 }) rfl)

/-- The clauses of the statement in turn: all four succeed, BPACK fails, TBLD fails, FCNT fails. -/
theorem witness_HencIsThePipeline :
    ((eight 514).cfg.wf ∧ ∃ a, exec .fcnt (eight 514) = .next a ∧ a.state = .done ∧ ∃ b, exec .tbld a = .next b ∧
      b.state = .done ∧ ∃ c, exec .cgen b = .next c ∧ ∃ d, exec .bpack c = .next d ∧ d.state = .done) ∧
    ((eight 2).cfg.wf ∧ ∃ a, exec .fcnt (eight 2) = .next a ∧ a.state = .done ∧ ∃ b, exec .tbld a = .next b ∧
      b.state = .done ∧ ∃ c, exec .cgen b = .next c ∧ ∃ d, exec .bpack c = .next d ∧ d.state = .err) ∧
    (tiny.wf ∧ ∃ a, exec .fcnt blank = .next a ∧ a.state = .done ∧ ∃ b, exec .tbld a = .next b ∧ b.state = .err) ∧
    (∃ a, exec .fcnt { blank with inLen := 17 } = .next a ∧ a.state = .err) := by
  refine ⟨⟨by decide, _, eight_fcnt _, rfl, _, eight_tbld _, rfl, _, eight_cgen _, eight_packs⟩,
    ⟨by decide, _, eight_fcnt _, rfl, _, eight_tbld _, rfl, _, eight_cgen _, eight_overflows⟩, ?_, ⟨_, rfl, rfl⟩⟩
  exact ⟨by decide, _, nothing_fcnt, rfl, _, nothing_tbld, rfl⟩

theorem witness_HencOfEmptyInput : State.reset.inLen = 0 ∧
    (HasTable (tabled 514 [] [] 0) tableV4 ∧ (tabled 514 [] [] 0).inLen = 0) ∧
    HasTree (withTree blank nodesV4 4) linksV4 ∧ (withTree blank nodesV4 4).inLen = 0 :=
  ⟨rfl, ⟨hasTable_v4 .., rfl⟩, hasTree_v4, rfl⟩

theorem witness_RoundTripLaw : tiny.wf ∧ HasInput (eight 514) (List.replicate 8 0x61) ∧
    List.replicate 8 (0x61 : Byte) ≠ [] ∧ 32 * (eight 514).cfg.maxIn + 2 ≤ (eight 514).cfg.maxOut ∧
    ∃ t, exec .henc (eight 514) = .next t ∧ OutHolds t [0x08, 0x00, 0x00] ∧
      HasInput { t with inp := Memory.from 0 [0x08, 0x00, 0x00], inLen := 3 } [0x08, 0x00, 0x00] := by
  refine ⟨by decide, by decide, by decide, by decide, ?_⟩
  obtain ⟨t, h, hp⟩ := exists_next test_henc
  simp only [Bool.and_eq_true, beq_iff_eq, first, List.range, List.range.loop, List.map_cons, List.map_nil,
    List.cons.injEq] at hp
  obtain ⟨⟨⟨⟨⟨-, hl⟩, h0, h1, h2, -⟩, -⟩, -⟩, hc⟩ := hp
  rw [decide_eq_true_eq] at hc
  refine ⟨t, h, ⟨by rw [hl]; rfl, fun i hi => ?_⟩, ⟨rfl, ?_⟩, by simp [hc, tiny]⟩
  · match i, hi with
    | 0, _ => exact h0
    | 1, _ => exact h1
    | 2, _ => exact h2
    | _ + 3, hi => simp at hi
  · intro i hi
    simp [Memory.get_from]

theorem witness_HostReadsChangeNothing : ∃ t, perform (.read .reg 11 32) State.reset = .next t := ⟨_, rfl⟩

theorem witness_RegistersReadTheirValues : tiny.wf ∧ 12 ≤ 12 := by decide

theorem witness_RegisterWritesFollowTheMap : full.state ≠ .busy ∧ 12 ≤ 12 := by decide

theorem witness_WrittenElementsReadBack :
    ∀ p ∈ [(Space.inp, 15), (.freq, 255), (.tree, 2040), (.tree, 2041), (.tree, 2042), (.tree, 2043), (.code, 4080),
        (.code, 4088), (.code, 4095), (.pbits, 15)], blank.cfg.cntW = 32 ∧ p.1 ≠ .reg ∧ p.1 ≠ .out ∧
      nextIs (perform (.write p.1 p.2 p.1.width ((0xFFFFFFFF : Word).setWidth p.1.width)) blank) (fun _ => true) = true := by
  decide

theorem witness_HostWriteTouchesOneElement : full.state ≠ .busy ∧ 15 < full.cfg.maxIn ∧ 513 < full.cfg.maxOut := by
  decide

theorem witness_OnlyDefinedReadsAnswer : full.state ≠ .busy ∧ (8 ≠ Space.freq.width ∧
    Space.inRange full.cfg .freq 256 = false ∧ Space.inRange full.cfg .inp 16 = false) ∧
    (32 = Space.freq.width ∧ Space.inRange full.cfg .freq 255 = true ∧ spaceRead full .freq 255 = none) ∧
    (8 = Space.inp.width ∧ Space.inRange full.cfg .inp 0 = true ∧ spaceRead full .inp 0 = some (.byte 0x63)) := by
  decide

/-- A tree with a repeated symbol, and tables that are empty or not prefix-free. -/
def linksBad : List Link := [.leaf 0x61, .leaf 0x61, .branch 0 1]
def tableBad : List BitString := tableOf [(0x61, [false]), (0x62, [false, true])]

theorem tree_checks_v4 : let s := withBits (withTree (withIn blank cabc) nodesV4 4) [0x58] 6
    ∀ i ∈ [Instr.cgen, .hdecR, .hdcmpR], (∀ x ∈ needs i, s.valid.get x = true) ∧
      (readsIn i = true → s.inLen.toNat ≤ s.cfg.maxIn) ∧ (readsPbits i = true → s.pbLen.toNat ≤ s.cfg.maxPb) := by
  decide

theorem counts_out_of_range : ∀ n ∈ [(0 : Word), 512], n.toNat = 0 ∨ 511 < n.toNat := by simp

theorem witness_IllFormedStoresAreRefused :
    (let s := withBits (withTree (withIn blank cabc) [.leaf 0x61 1, .leaf 0x61 1, .internal 2 0 1] 2) [0x58] 6
     (∀ i ∈ [Instr.cgen, .hdecR, .hdcmpR], (∀ x ∈ needs i, s.valid.get x = true) ∧
       (readsIn i = true → s.inLen.toNat ≤ s.cfg.maxIn) ∧ (readsPbits i = true → s.pbLen.toNat ≤ s.cfg.maxPb)) ∧
     TreeHolds s linksBad ∧ treeShape linksBad s.root.toNat = false) ∧
    (∀ n ∈ [(0 : Word), 512],
     let s := { withBits (withTree (withIn blank cabc) nodesV4 4) [0x58] 6 with nnodes := n }
     (∀ i ∈ [Instr.cgen, .hdecR, .hdcmpR], (∀ x ∈ needs i, s.valid.get x = true) ∧
       (readsIn i = true → s.inLen.toNat ≤ s.cfg.maxIn) ∧ (readsPbits i = true → s.pbLen.toNat ≤ s.cfg.maxPb)) ∧
     (s.nnodes.toNat = 0 ∨ 511 < s.nnodes.toNat)) ∧
    (let s := withBits (withTable (withIn blank cabc) tableBad) [0x58] 6
     (∀ i ∈ [Instr.bpack, .hdecT, .hdcmpT], (∀ x ∈ needs i, s.valid.get x = true) ∧
       (readsIn i = true → s.inLen.toNat ≤ s.cfg.maxIn) ∧ (readsPbits i = true → s.pbLen.toNat ≤ s.cfg.maxPb)) ∧
     CodeHolds s tableBad ∧ codeShape tableBad = false) :=
  ⟨by decide, fun n hn => ⟨tree_checks_v4, counts_out_of_range n hn⟩, by decide,
    codeHolds_of_cells rfl (by decide +kernel) (by decide +kernel), by decide +kernel⟩

theorem witness_UnwrittenInputStopsTheCount : ({ blank with inLen := 16 } : State).inLen.toNat ≤ blank.cfg.maxIn ∧
    15 < ({ blank with inLen := 16 } : State).inLen.toNat ∧ blank.inp.get 15 = none := by decide

theorem blank_inv : blank.Inv := ⟨by decide, by decide, by decide, ⟨by decide, by decide, rfl, fun _ => rfl⟩, by decide⟩

/-- `Inv` speaks of no field of the host, so a pending action keeps it. -/
theorem blank_pending_inv (acts : List HostAction) : ({ blank with pending := acts } : State).Inv :=
  ⟨blank_inv.1, blank_inv.2, blank_inv.3, blank_inv.4, blank_inv.5⟩

theorem witness_EveryStepKeepsTheInvariant : ({ blank with pending := [.write .freq 0 32 7] } : State).Inv ∧
    ∃ t, step { blank with pending := [.write .freq 0 32 7] } = .next t := ⟨blank_pending_inv _, _, rfl⟩

theorem witness_ResetLeavesTheStatedValues : ∃ s : State, s = State.reset := ⟨_, rfl⟩

theorem witness_NoStepChangesTheParameters :
    ∃ t, step { blank with pending := [.write .reg 0 32 0x11] } = .next t := ⟨_, rfl⟩

theorem witness_StickyBitsStayUntilCleared :
    (∃ t, step { blank with sticky := 1, pending := [.write .reg 0 32 0x11] } = .next t) ∧
    (∃ t, step { blank with sticky := 1, pending := [.reset] } = .next t) ∧
    (∃ t, step { blank with sticky := 1, pending := [.write .reg 0 32 (encode .hclr)] } = .next t) :=
  ⟨⟨_, rfl⟩, ⟨_, rfl⟩, ⟨_, rfl⟩⟩

end Sys2Proof.Tests.Slice0
end

section
/-! PROOFS. The scope statements: a waiting block keeps its state (O6), and every step keeps the invariant (O56). -/

namespace Sys2Proof.Machine

variable {s t u : State}

/-- Settles O6: the empty queue is the waiting branch of `step`. -/
theorem waitingBlockKeepsItsState : Obligations.WaitingBlockKeepsItsState := by
  intro s hp
  unfold step
  rw [hp]

/-! ## The parts of the invariant -/

/-- OUT holds OUT_LEN bytes, within capacity: what `State.outComplete` asks once V.OUT is set (R29). -/
abbrev State.outDelivered (s : State) : Prop :=
  s.outLen.toNat ≤ s.cfg.maxOut ∧ ∀ i < s.outLen.toNat, s.out.get i ≠ none

/-- The part of the invariant that speaks of the stores and not of STATUS. -/
abbrev State.dataLegal (s : State) : Prop := s.storesLegal ∧ s.outComplete

theorem State.inv_iff : s.Inv ↔ s.dataLegal ∧ s.statusConsistent := by
  constructor
  · rintro ⟨hc, hs, hr, hst, ho⟩
    exact ⟨⟨⟨hc, hs, hr⟩, ho⟩, hst⟩
  · rintro ⟨⟨⟨hc, hs, hr⟩, ho⟩, hst⟩
    exact ⟨hc, hs, hr, hst, ho⟩

/-! ## Bodies: what a command delivers -/

/-- An output within capacity keeps the stores legal and OUT complete. -/
theorem deliver_legal_delivered (h : s.storesLegal) {vs : List Byte} (hv : vs.length ≤ s.cfg.maxOut) :
    (deliver s vs).storesLegal ∧ (deliver s vs).outDelivered :=
  ⟨deliver_legal h hv, delivered_complete h.1 hv⟩

/-- BPACK delivers its buffer (R175). -/
theorem bodyBpack_ok_deliver (hb : bodyBpack s = .ok u) :
    ∃ b, (packBuffer b).length ≤ s.cfg.maxOut ∧ u = deliver s (packBuffer b) := by
  obtain ⟨_, _, b, -, -, -, hm, rfl⟩ := bodyBpack_ok_iff.1 hb
  have hlen : 1 + (b.length + padLength b.length) / 8 = (packBuffer b).length := by
    rw [padded_bytes, packBuffer_length]; omega
  rw [hlen] at hm ⊢
  exact ⟨b, Nat.le_of_not_lt hm, rfl⟩

theorem bodyBpack_legal (h : s.storesLegal) (hb : bodyBpack s = .ok u) : u.storesLegal ∧ u.outDelivered := by
  obtain ⟨b, hv, rfl⟩ := bodyBpack_ok_deliver hb
  exact deliver_legal_delivered h hv

theorem bodyHdecT_legal (h : s.storesLegal) (hb : bodyHdecT s = .ok u) : u.storesLegal ∧ u.outDelivered := by
  obtain ⟨_, _, syms, -, -, hd, rfl⟩ := bodyHdecT_ok_iff.1 hb
  exact deliver_legal_delivered h (decodeTableLoop_length (Nat.zero_le _) hd)

theorem bodyHdecR_legal (h : s.storesLegal) (hb : bodyHdecR s = .ok u) : u.storesLegal ∧ u.outDelivered := by
  obtain ⟨_, _, syms, -, -, hd, rfl⟩ := bodyHdecR_ok_iff.1 hb
  exact deliver_legal_delivered h (decodeByTree_length hd)

theorem bodyHdcmpT_legal (h : s.storesLegal) (hin : s.inLen.toNat ≤ s.cfg.maxIn) (hb : bodyHdcmpT s = .ok u) :
    u.storesLegal ∧ u.outDelivered := by
  obtain ⟨_, s1, -, h1, h2⟩ := bodyHdcmpT_ok_iff.1 hb
  exact bodyHdecT_legal (bodyBunpk_legal h hin h1) h2

theorem bodyHdcmpR_legal (h : s.storesLegal) (hin : s.inLen.toNat ≤ s.cfg.maxIn) (hb : bodyHdcmpR s = .ok u) :
    u.storesLegal ∧ u.outDelivered := by
  obtain ⟨_, s1, -, h1, h2⟩ := bodyHdcmpR_ok_iff.1 hb
  exact bodyHdecR_legal (bodyBunpk_legal h hin h1) h2

theorem bodyHenc_legal (h : s.storesLegal) (hin : s.inLen.toNat ≤ s.cfg.maxIn) (hb : bodyHenc s = .ok u) :
    u.storesLegal ∧ u.outDelivered := by
  obtain ⟨_, _, _, h1, h2, h3, h4⟩ := bodyHenc_ok_iff.1 hb
  exact bodyBpack_legal (bodyCgen_legal (bodyTbld_legal (bodyFcnt_legal h hin h1) h2) h3) h4

/-- Every body that succeeds keeps the stores legal, and delivers OUT where OUT is a destination. -/
theorem bodyOf_legal {i : Instr} {body : State → Except Stop State} (hi : bodyOf i = some body) (h : s.storesLegal)
    (hin : readsIn i = true → s.inLen.toNat ≤ s.cfg.maxIn) (hb : body s = .ok u) :
    u.storesLegal ∧ (.out ∈ dests i → u.outDelivered) := by
  cases i <;> cases hi
  case hnop => cases hb; exact ⟨h, nofun⟩
  case fcnt => exact ⟨bodyFcnt_legal h (hin rfl) hb, nofun⟩
  case tbld => exact ⟨bodyTbld_legal h hb, nofun⟩
  case cgen => exact ⟨bodyCgen_legal h hb, nofun⟩
  case bunpk => exact ⟨bodyBunpk_legal h (hin rfl) hb, nofun⟩
  case bpack => exact (bodyBpack_legal h hb).imp_right fun ho _ => ho
  case hdecT => exact (bodyHdecT_legal h hb).imp_right fun ho _ => ho
  case hdecR => exact (bodyHdecR_legal h hb).imp_right fun ho _ => ho
  case henc => exact (bodyHenc_legal h (hin rfl) hb).imp_right fun ho _ => ho
  case hdcmpT => exact (bodyHdcmpT_legal h (hin rfl) hb).imp_right fun ho _ => ho
  case hdcmpR => exact (bodyHdcmpR_legal h (hin rfl) hb).imp_right fun ho _ => ho

/-! ## Success, failure and HCLR (R251, R252, R254) -/

theorem invalidate_dataLegal (h : s.dataLegal) (x : DerivedStore) : (invalidate s x).dataLegal := by
  obtain ⟨⟨hc, ⟨hin, hf, ht, hcd, hp, ho⟩, rf, rt, rc⟩, hout⟩ := h
  cases x with
  | freq => exact ⟨⟨hc, ⟨hin, Memory.wf_nil _, ht, hcd, hp, ho⟩, nofun, rt, rc⟩, hout⟩
  | tree => exact ⟨⟨hc, ⟨hin, hf, Memory.wf_nil _, hcd, hp, ho⟩, rf, nofun, rc⟩, hout⟩
  | code => exact ⟨⟨hc, ⟨hin, hf, ht, Memory.wf_nil _, hp, ho⟩, rf, rt, nofun⟩, hout⟩
  | pbits => exact ⟨⟨hc, ⟨hin, hf, ht, hcd, Memory.wf_nil _, ho⟩, rf, rt, rc⟩, hout⟩
  | out => exact ⟨⟨hc, ⟨hin, hf, ht, hcd, hp, Memory.wf_nil _⟩, rf, rt, rc⟩, nofun⟩

theorem foldl_invalidate_dataLegal (xs : List DerivedStore) (h : s.dataLegal) : (xs.foldl invalidate s).dataLegal :=
  List.foldlRecOn xs invalidate h fun _ hb x _ => invalidate_dataLegal hb x

/-- Bits that were just set are set: the sticky bit of a failing command's own error (R43). -/
theorem sticky_or_and {n : Nat} (a b : BitVec n) : (a ||| b) &&& b = b := by
  ext i hi
  simpa using fun hb => Or.inr hb

theorem fail_inv (h : s.dataLegal) (xs : List DerivedStore) (e : Error) (info : Word) : (fail xs e info s).Inv :=
  State.inv_iff.2 ⟨foldl_invalidate_dataLegal xs h, nofun, ⟨fun _ => nofun, fun _ => rfl⟩,
    sticky_or_and s.sticky e.stickyBit, nofun⟩

theorem succeed_storesLegal (h : s.storesLegal) (xs : List DerivedStore) : (succeed xs s).storesLegal :=
  List.foldlRecOn xs validate h fun _ hb _ _ => hb

/-- Success keeps the invariant when the body delivered OUT, or left it alone. -/
theorem succeed_inv {xs : List DerivedStore} (h : u.storesLegal) (hd : .out ∈ xs → u.outDelivered)
    (hk : .out ∉ xs → u.outComplete) : (succeed xs u).Inv := by
  refine State.inv_iff.2 ⟨⟨succeed_storesLegal h xs, fun hv => ?_⟩, nofun, ⟨nofun, fun hn => absurd rfl hn⟩, rfl, nofun⟩
  have ho : u.outDelivered := by
    by_cases hx : .out ∈ xs
    · exact hd hx
    · refine hk hx ?_
      have hg := succeed_valid_get xs u .out
      simpa [Valid.get, hv, hx] using hg.symm
  simpa using ho

theorem clear_inv (h : s.Inv) (hs : exec .hclr s = .next t) : t.Inv := by
  cases hs
  exact State.inv_iff.2 ⟨foldl_invalidate_dataLegal _ (State.inv_iff.1 h).1, nofun,
    ⟨nofun, fun hn => absurd rfl hn⟩, rfl, fun _ => rfl⟩

/-! ## Commands -/

/-- The invariant does not speak of LASTOP. -/
theorem setLastop_inv (h : s.Inv) (b : BitVec 8) : State.Inv { s with lastop := b } :=
  ⟨h.cfg_wf, h.stores, h.reserved, h.status, h.out_complete⟩

theorem runCommand_inv {i : Instr} {body : State → Except Stop State} (hi : bodyOf i = some body) (h : s.Inv)
    (hr : runCommand i body s = .next t) : t.Inv := by
  have hdata := (State.inv_iff.1 (setLastop_inv h i.opcode)).1
  obtain ⟨e, info, -, rfl⟩ | ⟨-, e, info, -, rfl⟩ | ⟨hp, u, hb, rfl⟩ := runCommand_cases hr
  · exact fail_inv hdata _ e info
  · exact fail_inv hdata _ e info
  · obtain ⟨-, hin, -⟩ := precheck_none_iff.1 hp
    obtain ⟨hu, hd⟩ := bodyOf_legal hi hdata.1 hin hb
    have hf := bodyOf_frame hi hb
    refine succeed_inv hu hd fun hx => ?_
    obtain ⟨ho, hl⟩ := hf.out hx
    simpa only [State.outComplete, hf.valid, hf.cfg, ho, hl] using hdata.2

theorem exec_inv {i : Instr} (h : s.Inv) (he : exec i s = .next t) : t.Inv := by
  cases hi : bodyOf i with
  | some body => exact runCommand_inv hi h (exec_eq_runCommand hi ▸ he)
  | none =>
    cases i <;> cases hi
    exact clear_inv h he

theorem issueCommand_inv {w : Word} (h : s.Inv) (hw : issueCommand w s = .next t) : t.Inv := by
  obtain ⟨i, -, he⟩ | ⟨-, rfl⟩ := issueCommand_cases hw
  · exact exec_inv h he
  · exact fail_inv (State.inv_iff.1 (setLastop_inv h _)).1 _ _ _

/-! ## Host accesses (R62, R68) -/

/-- A property of all elements survives a write of an element that has it. -/
theorem Memory.forall_mem_set {w : Nat} {P : Nat × BitVec w → Prop} {m : Memory w} (h : ∀ c ∈ m, P c) {k : Nat}
    {v : BitVec w} (hk : P (k, v)) : ∀ c ∈ m.set k v, P c := by
  intro c hc
  obtain rfl | hc := Memory.mem_set hc
  · exact hk
  · exact h c hc

theorem codeWrite_wf {m : Memory 32} (h : m.wf 4096) {idx : Nat} (hi : idx < 4096) (v : Word) :
    (codeWrite m idx v).wf 4096 := by
  unfold codeWrite
  split
  · exact h
  · exact Memory.wf_set h hi _

theorem codeWrite_reserved {m : Memory 32} (h : ∀ c ∈ m, codeReserved c.1 = false ∧ c.2 &&& ~~~ codeMask (c.1 % 16) = 0)
    (idx : Nat) (v : Word) :
    ∀ c ∈ codeWrite m idx v, codeReserved c.1 = false ∧ c.2 &&& ~~~ codeMask (c.1 % 16) = 0 := by
  unfold codeWrite
  split
  · exact h
  · rename_i hres
    exact Memory.forall_mem_set h ⟨Bool.eq_false_iff.2 hres, and_and_not v _⟩

theorem regWrite_inv {v : Word} {k : Nat} (h : s.Inv) (hw : regWrite s v k = .next t) : t.Inv := by
  obtain ⟨-, hc⟩ | ⟨valid, _, _, _, _, hv, rfl⟩ := regWrite_cases hw
  · exact issueCommand_inv h hc
  · obtain ⟨hc, hs, hr, hst, ho⟩ := h
    refine ⟨hc, hs, hr, hst, fun hx => ho ?_⟩
    have hx : valid.out = true := hx
    rw [hv, Bool.and_eq_true] at hx
    exact hx.1

theorem spaceWrite_inv {sp : Space} {idx : Nat} {v : Word} (h : s.Inv) (hr : sp.inRange s.cfg idx = true)
    (hw : spaceWrite s sp idx v = .next t) : t.Inv := by
  cases sp with
  | reg => exact regWrite_inv h hw
  | out => cases hw; exact h
  | inp =>
    obtain ⟨hc, ⟨hin, hf, ht, hcd, hp, ho⟩, hres, hst, hout⟩ := h
    cases hw
    exact ⟨hc, ⟨Memory.wf_set hin (of_decide_eq_true hr) _, hf, ht, hcd, hp, ho⟩, hres, hst, hout⟩
  | freq =>
    obtain ⟨hc, ⟨hin, hf, ht, hcd, hp, ho⟩, ⟨rf, rt, rc⟩, hst, hout⟩ := h
    cases hw
    exact ⟨hc, ⟨hin, Memory.wf_set hf (of_decide_eq_true hr) _, ht, hcd, hp, ho⟩,
      ⟨Memory.forall_mem_set rf (and_and_not v _), rt, rc⟩, hst, hout⟩
  | tree =>
    obtain ⟨hc, ⟨hin, hf, ht, hcd, hp, ho⟩, ⟨rf, rt, rc⟩, hst, hout⟩ := h
    cases hw
    exact ⟨hc, ⟨hin, hf, Memory.wf_set ht (of_decide_eq_true hr) _, hcd, hp, ho⟩,
      ⟨rf, Memory.forall_mem_set rt (and_and_not v _), rc⟩, hst, hout⟩
  | code =>
    obtain ⟨hc, ⟨hin, hf, ht, hcd, hp, ho⟩, ⟨rf, rt, rc⟩, hst, hout⟩ := h
    cases hw
    exact ⟨hc, ⟨hin, hf, ht, codeWrite_wf hcd (of_decide_eq_true hr) v, hp, ho⟩,
      ⟨rf, rt, codeWrite_reserved rc idx v⟩, hst, hout⟩
  | pbits =>
    obtain ⟨hc, ⟨hin, hf, ht, hcd, hp, ho⟩, hres, hst, hout⟩ := h
    have hlt : idx < s.cfg.maxIn := Nat.lt_of_mul_lt_mul_left (of_decide_eq_true hr)
    cases hw
    exact ⟨hc, ⟨hin, hf, ht, hcd, Memory.wf_set hp hlt _, ho⟩, hres, hst, hout⟩

/-- A block built with legal parameters meets the invariant after reset (R45). -/
theorem resetWith_inv {c : Config} (hc : c.wf) : (State.resetWith c).Inv where
  cfg_wf := hc
  stores := ⟨Memory.wf_nil _, Memory.wf_nil _, Memory.wf_nil _, Memory.wf_nil _, Memory.wf_nil _, Memory.wf_nil _⟩
  reserved := ⟨nofun, nofun, nofun⟩
  status := ⟨nofun, ⟨nofun, fun hn => absurd rfl hn⟩, rfl, fun _ => rfl⟩
  out_complete := nofun

theorem hostReset_inv (h : s.Inv) : (hostReset s).Inv := by
  obtain ⟨hc, hs, hr, hst, ho⟩ := resetWith_inv h.cfg_wf
  exact ⟨hc, hs, hr, hst, ho⟩

theorem perform_inv {a : HostAction} (h : s.Inv) (hp : perform a s = .next t) : t.Inv := by
  cases a with
  | read sp idx n =>
    obtain ⟨-, -, e, -, rfl⟩ := memRead_cases hp
    exact ⟨h.cfg_wf, h.stores, h.reserved, h.status, h.out_complete⟩
  | write sp idx n v =>
    obtain ⟨-, -, hr, hw⟩ := memWrite_cases hp
    exact spaceWrite_inv h hr hw
  | reset =>
    cases hp
    exact hostReset_inv h

/-- Settles O56: the step waits, or performs an action of the host, and each action keeps every part of the
invariant. -/
theorem everyStepKeepsTheInvariant : Obligations.EveryStepKeepsTheInvariant := by
  intro s t h hs
  obtain ⟨-, rfl⟩ | ⟨a, rest, -, hp⟩ := step_cases hs
  · exact h
  · have hrest : State.Inv { s with pending := rest } :=
      ⟨h.cfg_wf, h.stores, h.reserved, h.status, h.out_complete⟩
    exact perform_inv hrest hp

end Sys2Proof.Machine
end

section
/-! PROOFS. The state family: the decoder's inverse and the step (O4), how commands end (O13), the register map (O49,
O50), reset (O57, O58), the parameters (O59) and the sticky bits (O60). -/

namespace Sys2Proof.Machine

variable {s t : State}

/-! ## The decoder inverts the encoder (R90, R91) -/

/-- The three fields of format C cover the word (R90). -/
@[simp] theorem wordFields_word (w : Word) : (wordFields w).word = w := by
  refine BitVec.eq_of_getLsbD_eq fun j hj => ?_
  simp only [CmdFields.word, wordFields, BitVec.getLsbD_append, BitVec.getLsbD_extractLsb']
  by_cases h8 : j < 8
  · simp [h8]
  · by_cases h9 : j = 8
    · simp [h9]
    · have hj9 : 9 + (j - 8 - 1) = j := by omega
      simp [h8, show ¬ j - 8 < 1 by omega, show j - 8 - 1 < 23 by omega, hj9]

/-- Each row of the opcode map has the fields of its command (R91). -/
theorem opcodeMap_fields : ∀ r ∈ opcodeMap, r.instr.fields = ⟨0, r.s, r.opc⟩ := by decide

@[simp] theorem decode_encode (i : Instr) : decode (encode i) = .ok i := by
  cases i <;> decide

/-- A word the decoder accepts is the encoding of its command: the row found fixes S and OPC, and ZERO is 0. -/
theorem eq_encode_of_decode {w : Word} {i : Instr} (h : decode w = .ok i) : w = encode i := by
  unfold decode at h
  by_cases hz : (wordFields w).zero = 0
  · rw [if_neg (not_not.2 hz)] at h
    split at h
    · rename_i r hr
      cases h
      have hrow := opcodeMap_fields r (List.mem_of_find?_eq_some hr)
      have hkey := List.find?_some hr
      simp only [Bool.and_eq_true, beq_iff_eq] at hkey
      obtain ⟨hopc, hs⟩ := hkey
      have hf : wordFields w = r.instr.fields := by
        rw [hrow, hopc, hs, ← hz]
      rw [encode, ← hf, wordFields_word]
    · split at h <;> cases h
  · rw [if_pos hz] at h
    cases h

/-! ## Host writes to registers, and the step (R34, R62) -/

/-- Outside BUSY a full-width write to a register is what the register map says. -/
theorem perform_writeReg (hb : s.state ≠ .busy) (k : Nat) (v : Word) :
    perform (.write .reg k 32 v) s = regWrite s v k := by
  have h := memWrite_eq (sp := .reg) (idx := k) (v := v) hb rfl rfl
  rwa [BitVec.setWidth_eq] at h

theorem issueCommand_of_decode {w : Word} {i : Instr} (hd : decode w = .ok i) : issueCommand w s = exec i s := by
  rw [issueCommand, hd]

/-- Settles O4: a write to CMD outside BUSY reaches `exec` through the register map and the decoder. -/
theorem stepRunsTheDecodedCommand : Obligations.StepRunsTheDecodedCommand := by
  have hrun : ∀ (s : State) (w : Word) (i : Instr) (rest : List HostAction),
      s.pending = .write .reg 0 32 w :: rest → s.state ≠ .busy → decode w = .ok i →
        step s = exec i { s with pending := rest } := by
    intro s w i rest hp hb hd
    rw [step_of_pending hp, perform_writeReg (s := { s with pending := rest }) hb]
    exact issueCommand_of_decode hd
  refine ⟨hrun, fun s i hb => ?_⟩
  refine hrun _ (encode i) i s.pending ?_ hb (decode_encode i)
  rw [State.withFetchWord, Nat.mod_eq_of_lt (encode i).isLt, BitVec.ofNat_toNat, BitVec.setWidth_eq]

/-- Settles O13: HCLR ends in IDLE; every other command failed or succeeded, and `fail` and `succeed` write STATE, ECODE
and ERRINFO. -/
theorem commandsEndDoneOrErr : Obligations.CommandsEndDoneOrErr := by
  intro i s t h
  by_cases hi : i = .hclr
  · subst hi
    cases h
    exact ⟨fun _ => rfl, fun hn => absurd rfl hn, ⟨nofun, fun hn => absurd rfl hn⟩, fun _ => rfl⟩
  · obtain hc | ⟨e, info, rfl⟩ | ⟨-, u, -, rfl⟩ := exec_cases h
    · exact absurd hc hi
    · exact ⟨fun hc => absurd hc hi, fun _ => .inr rfl, ⟨fun _ => nofun, fun _ => rfl⟩, nofun⟩
    · exact ⟨fun hc => absurd hc hi, fun _ => .inl rfl, ⟨nofun, fun hn => absurd rfl hn⟩, fun _ => rfl⟩

/-! ## The fields of STATUS (R35) -/

theorem Valid.word_getLsbD_statusBit (v : Valid) (x : DerivedStore) : v.word.getLsbD (statusBit x) = v.get x := by
  simp only [Valid.word, BitVec.getLsbD_append]
  cases x <;> simp [statusBit, Valid.get]

theorem Valid.word_getLsbD_of_other (v : Valid) {j : Nat} (h : j < 8 ∨ 13 ≤ j) : v.word.getLsbD j = false := by
  simp only [Valid.word, BitVec.getLsbD_append, BitVec.ofNat_eq_ofNat, BitVec.getLsbD_zero]
  grind

/-- The layout of R35, bit by bit. -/
theorem statusWord_getLsbD (s : State) (j : Nat) : (statusWord s).getLsbD j =
    if j < 2 then s.state.code.getLsbD j
    else if j < 4 then false
    else if j < 8 then (ecodeBits s.ecode).getLsbD (j - 4)
    else if j < 13 then s.valid.word.getLsbD j
    else if j < 17 then false
    else if j < 24 then s.sticky.getLsbD (j - 17)
    else s.lastop.getLsbD (j - 24) := by
  have hv := s.valid.word_getLsbD_of_other (j := j)
  simp only [statusWord, BitVec.getLsbD_or, BitVec.getLsbD_append, BitVec.ofNat_eq_ofNat, BitVec.getLsbD_zero]
  grind

/-- A field of STATUS, from the layout of its bits. -/
theorem statusWord_field {w k : Nat} {f : BitVec w} (h : ∀ j < w, (statusWord s).getLsbD (k + j) = f.getLsbD j) :
    (statusWord s).extractLsb' k w = f := by
  refine BitVec.eq_of_getLsbD_eq fun j hj => ?_
  rw [BitVec.getLsbD_extractLsb', h j hj, decide_eq_true hj, Bool.true_and]

theorem statusWord_state (s : State) : (statusWord s).extractLsb' 0 2 = s.state.code :=
  statusWord_field fun j hj => by rw [statusWord_getLsbD]; grind

theorem statusWord_low_reserved (s : State) : (statusWord s).extractLsb' 2 2 = 0 :=
  statusWord_field fun j hj => by rw [statusWord_getLsbD]; grind

theorem statusWord_ecode (s : State) : (statusWord s).extractLsb' 4 4 = ecodeBits s.ecode :=
  statusWord_field fun j hj => by rw [statusWord_getLsbD]; grind

theorem statusWord_valid (s : State) (x : DerivedStore) : (statusWord s).getLsbD (statusBit x) = s.valid.get x := by
  rw [statusWord_getLsbD, ← Valid.word_getLsbD_statusBit]
  cases x <;> rfl

theorem statusWord_high_reserved (s : State) : (statusWord s).extractLsb' 13 4 = 0 :=
  statusWord_field fun j hj => by rw [statusWord_getLsbD]; grind

theorem statusWord_sticky (s : State) : (statusWord s).extractLsb' 17 7 = s.sticky :=
  statusWord_field fun j hj => by rw [statusWord_getLsbD]; grind

theorem statusWord_lastop (s : State) : (statusWord s).extractLsb' 24 8 = s.lastop :=
  statusWord_field fun j hj => by rw [statusWord_getLsbD]; grind

/-- STATUS[16 + e] is the sticky bit of error e (R43). -/
theorem statusWord_stickyBit (s : State) (e : Error) :
    (statusWord s).getLsbD (16 + e.code.toNat) = s.sticky.getLsbD (e.code.toNat - 1) := by
  rw [statusWord_getLsbD]
  cases e <;> rfl

theorem Error.stickyBit_getLsbD (e : Error) : e.stickyBit.getLsbD (e.code.toNat - 1) = true := by
  cases e <;> rfl

/-! ## The register map (R33 to R42) -/

theorem regRead_reserved (s : State) {k : Nat} (h : 12 ≤ k) : regRead s k = 0 := by
  match k, h with
  | _ + 12, _ => rfl

theorem regWrite_reserved (s : State) (v : Word) {k : Nat} (h : 12 ≤ k) : regWrite s v k = .next s := by
  match k, h with
  | _ + 12, _ => rfl

/-- CAP_IN and CAP_OUT show the capacities of a legal configuration, which fit a register (R42). -/
theorem regRead_capacities (hc : s.cfg.wf) :
    (regRead s 10).toNat = s.cfg.maxIn ∧ (regRead s 11).toNat = s.cfg.maxOut := by
  obtain ⟨-, -, hout, hin⟩ := hc
  exact ⟨Nat.mod_eq_of_lt (by omega), Nat.mod_eq_of_lt hout⟩

/-- Settles O49: the register map by its cases, STATUS field by field. -/
theorem registersReadTheirValues : Obligations.RegistersReadTheirValues := by
  intro s
  have hwriteOnly : ∀ k ∈ [0, 8, 9], regRead s k = 0 := by simp [regRead]
  exact ⟨hwriteOnly, fun _ => regRead_reserved s, rfl, rfl, rfl, rfl, rfl, rfl, regRead_capacities,
    statusWord_state s, statusWord_low_reserved s, statusWord_ecode s, statusWord_valid s .freq,
    statusWord_valid s .tree, statusWord_valid s .code, statusWord_valid s .pbits, statusWord_valid s .out,
    statusWord_high_reserved s, statusWord_sticky s, statusWord_lastop s⟩

/-- Settles O50: outside BUSY the write is `regWrite`, case by case. -/
theorem registerWritesFollowTheMap : Obligations.RegisterWritesFollowTheMap := by
  intro s v hb
  simp only [perform_writeReg hb]
  have hreadOnly : ∀ k ∈ [1, 2, 4, 10, 11], regWrite s v k = .next s := by simp [regWrite]
  exact ⟨hreadOnly, fun _ => regWrite_reserved s v, rfl, rfl, rfl, rfl, rfl, rfl⟩

/-! ## Reset (R45, R310) -/

theorem default_wf : Config.default.wf := by decide

/-- Settles O57: the default parameters are legal, and every block with legal parameters meets the invariant at
reset. -/
theorem resetMeetsTheInvariant : Obligations.ResetMeetsTheInvariant := resetWith_inv default_wf

theorem statusWord_reset : statusWord State.reset = 0 := by decide

theorem statusWord_hostReset (s : State) : statusWord (hostReset s) = 0 := statusWord_reset

/-- Settles O58: `hostReset` writes each register and keeps the parameters and the model's own fields. -/
theorem resetLeavesTheStatedValues : Obligations.ResetLeavesTheStatedValues := by
  refine ⟨rfl, fun s => ⟨hostReset s, rfl, statusWord_hostReset s, rfl, rfl, rfl, rfl, rfl, rfl, rfl, rfl, rfl, rfl,
    ?_, rfl, rfl⟩⟩
  rintro rfl
  rfl

/-! ## What every action keeps: the parameters and the sticky bits (R43, R46) -/

theorem issueCommand_cfg {w : Word} (h : issueCommand w s = .next t) : t.cfg = s.cfg := by
  obtain ⟨i, -, he⟩ | ⟨-, rfl⟩ := issueCommand_cases h
  · obtain rfl | ⟨e, info, rfl⟩ | ⟨-, u, hu, rfl⟩ := exec_cases he
    · cases he; rfl
    · exact fail_cfg ..
    · exact (succeed_cfg ..).trans hu.cfg
  · exact fail_cfg ..

/-- A word written to CMD that ends is HCLR, or failed and added the sticky bit of its error, or succeeded and kept the
sticky bits. -/
theorem issueCommand_sticky {w : Word} (h : issueCommand w s = .next t) :
    (w = encode .hclr ∧ t.ecode = none) ∨ (∃ e, t.ecode = some e ∧ t.sticky = s.sticky ||| e.stickyBit) ∨
      (t.ecode = none ∧ t.sticky = s.sticky) := by
  obtain ⟨i, hd, he⟩ | ⟨-, rfl⟩ := issueCommand_cases h
  · obtain rfl | ⟨e, info, rfl⟩ | ⟨-, u, hu, rfl⟩ := exec_cases he
    · cases he
      exact .inl ⟨eq_encode_of_decode hd, rfl⟩
    · exact .inr (.inl ⟨e, rfl, rfl⟩)
    · exact .inr (.inr ⟨rfl, (succeed_sticky ..).trans hu.sticky⟩)
  · exact .inr (.inl ⟨.illegalCommand, rfl, rfl⟩)

theorem perform_writeCmd {w : Word} (h : perform (.write .reg 0 32 w) s = .next t) : issueCommand w s = .next t := by
  obtain ⟨hb, -⟩ := memWrite_cases h
  rwa [perform_writeReg hb] at h

/-- A write to a store other than the registers keeps the parameters and the sticky bits. -/
theorem spaceWrite_keeps {sp : Space} {idx : Nat} {v : Word} (hsp : sp ≠ .reg) (h : spaceWrite s sp idx v = .next t) :
    t.cfg = s.cfg ∧ t.sticky = s.sticky := by
  cases sp with
  | reg => exact absurd rfl hsp
  | inp | out | freq | tree | code | pbits => cases h; exact ⟨rfl, rfl⟩

/-- A host action that answers is a reset, or issues a command, or keeps the parameters and the sticky bits. -/
theorem perform_cases {a : HostAction} (h : perform a s = .next t) :
    (a = .reset ∧ t = hostReset s) ∨ (∃ w, a = .write .reg 0 32 w ∧ issueCommand w s = .next t) ∨
      (t.cfg = s.cfg ∧ t.sticky = s.sticky) := by
  cases a with
  | reset => cases h; exact .inl ⟨rfl, rfl⟩
  | read sp idx n =>
    obtain ⟨-, -, e, -, rfl⟩ := memRead_cases h
    exact .inr (.inr ⟨rfl, rfl⟩)
  | write sp idx n v =>
    obtain ⟨hb, hn, -, hw⟩ := memWrite_cases h
    by_cases hsp : sp = .reg
    · subst hsp
      obtain rfl : n = 32 := hn
      rw [perform_writeReg hb] at h
      obtain ⟨rfl, hi⟩ | ⟨_, _, _, _, _, -, rfl⟩ := regWrite_cases h
      · exact .inr (.inl ⟨v, rfl, hi⟩)
      · exact .inr (.inr ⟨rfl, rfl⟩)
    · exact .inr (.inr (spaceWrite_keeps hsp hw))

theorem perform_cfg {a : HostAction} (h : perform a s = .next t) : t.cfg = s.cfg := by
  obtain ⟨-, rfl⟩ | ⟨w, -, hi⟩ | ⟨hc, -⟩ := perform_cases h
  · rfl
  · exact issueCommand_cfg hi
  · exact hc

/-- Settles O59: a step waits or performs an action of the host, and every action keeps the parameters. -/
theorem noStepChangesTheParameters : Obligations.NoStepChangesTheParameters := by
  refine ⟨fun s t h => ?_, fun _ => rfl, fun _ => regRead_capacities⟩
  obtain ⟨-, rfl⟩ | ⟨a, rest, -, hp⟩ := step_cases h
  · rfl
  · exact perform_cfg (s := { s with pending := rest }) hp

/-- Only reset and HCLR clear a sticky bit. -/
theorem perform_keeps_sticky {a : HostAction} (h : perform a s = .next t) :
    s.sticky &&& t.sticky = s.sticky ∨ a = .reset ∨ a = .write .reg 0 32 (encode .hclr) := by
  obtain ⟨rfl, -⟩ | ⟨w, rfl, hi⟩ | ⟨-, hk⟩ := perform_cases h
  · exact .inr (.inl rfl)
  · obtain ⟨rfl, -⟩ | ⟨e, -, hk⟩ | ⟨-, hk⟩ := issueCommand_sticky hi
    · exact .inr (.inr rfl)
    · exact .inl (by rw [hk, BitVec.and_comm, BitVec.or_comm, sticky_or_and])
    · exact .inl (by rw [hk, BitVec.and_self])
  · exact .inl (by rw [hk, BitVec.and_self])

/-- HCLR clears all seven sticky bits (R254). -/
theorem perform_hclr_sticky (h : perform (.write .reg 0 32 (encode .hclr)) s = .next t) : t.sticky = 0 := by
  have hx := perform_writeCmd h
  rw [issueCommand_of_decode (decode_encode .hclr), exec_hclr_eq] at hx
  cases hx
  rfl

/-- A command word that ends with an error shows that error's sticky bit in STATUS (R43). -/
theorem perform_error_sticky {w : Word} {e : Error} (h : perform (.write .reg 0 32 w) s = .next t)
    (he : t.ecode = some e) : (statusWord t).getLsbD (16 + e.code.toNat) = true := by
  obtain ⟨-, hn⟩ | ⟨e', he', hk⟩ | ⟨hn, -⟩ := issueCommand_sticky (perform_writeCmd h)
  · rw [hn] at he; cases he
  · rw [he'] at he
    cases he
    rw [statusWord_stickyBit, hk, BitVec.getLsbD_or, Error.stickyBit_getLsbD, Bool.or_true]
  · rw [hn] at he; cases he

/-- Settles O60: the step performs the action at the head of the queue, and each action is one of a reset, HCLR,
another command word and an access that keeps the sticky bits. -/
theorem stickyBitsStayUntilCleared : Obligations.StickyBitsStayUntilCleared := by
  intro s t h
  have hact : ∀ {a rest}, s.pending = a :: rest → perform a { s with pending := rest } = .next t :=
    fun hp => (step_of_pending hp).symm.trans h
  refine ⟨?_, fun rest hp => ?_, fun rest hp => perform_hclr_sticky (hact hp),
    fun w rest e hp => perform_error_sticky (hact hp)⟩
  · obtain ⟨-, rfl⟩ | ⟨a, rest, hp, ha⟩ := step_cases h
    · exact .inl BitVec.and_self
    · obtain hk | rfl | rfl := perform_keeps_sticky ha
      · exact .inl hk
      · exact .inr (.inl ⟨rest, hp⟩)
      · exact .inr (.inr ⟨rest, hp⟩)
  · have ha := hact hp
    cases ha
    rfl

end Sys2Proof.Machine
end

section
/-! PROOFS. The memory family: a command is a function of its sources (O14), which host accesses stop (O7, O53),
what a host read and a host write change (O48, O52), what reads back (O51), and the input without a value (O55). -/

namespace Sys2Proof.Machine

variable {s u t v : State} {b : Bool} {xs ds : List DerivedStore}

/-! ## Two states that agree on some stores (R75) -/

/-- Two states agree on a derived store: on its registers, and on its contents as far as those registers say they are
meaningful. -/
def StoreAgrees (s u : State) : DerivedStore → Prop
  | .freq => u.freq = s.freq
  | .tree => u.root = s.root ∧ u.nnodes = s.nnodes ∧ ∀ k < 4 * s.nnodes.toNat, u.tree.get k = s.tree.get k
  | .code => u.code = s.code
  | .pbits => u.pbits = s.pbits ∧ u.pbLen = s.pbLen
  | .out => u.outLen = s.outLen ∧ ∀ k < s.outLen.toNat, u.out.get k = s.out.get k

/-- Two states agree on what a body can read: the parameters, the free value counter, the derived stores `xs`, and IN
when `b` says so. -/
structure Agree (b : Bool) (xs : List DerivedStore) (s u : State) : Prop where
  cfg : u.cfg = s.cfg
  freeCtr : u.freeCtr = s.freeCtr
  input : b = true → u.inp = s.inp ∧ u.inLen = s.inLen
  stores : ∀ x ∈ xs, StoreAgrees s u x

/-- Agreement on a store survives what does not write it. -/
theorem StoreAgrees.frame {x : DerivedStore} (h : StoreAgrees s u x) (hs : BodyFrame ds s t) (hu : BodyFrame ds u v)
    (hx : x ∉ ds) : StoreAgrees t v x := by
  cases x with
  | freq => simpa only [StoreAgrees, hs.freq hx, hu.freq hx] using h
  | tree =>
    obtain ⟨hst, hsr, hsn⟩ := hs.tree hx
    obtain ⟨hut, hur, hun⟩ := hu.tree hx
    simpa only [StoreAgrees, hst, hsr, hsn, hut, hur, hun] using h
  | code => simpa only [StoreAgrees, hs.code hx, hu.code hx] using h
  | pbits =>
    obtain ⟨hsp, hsl, -⟩ := hs.pbits hx
    obtain ⟨hup, hul, -⟩ := hu.pbits hx
    simpa only [StoreAgrees, hsp, hsl, hup, hul] using h
  | out =>
    obtain ⟨hso, hsl⟩ := hs.out hx
    obtain ⟨huo, hul⟩ := hu.out hx
    simpa only [StoreAgrees, hso, hsl, huo, hul] using h

/-- Agreeing states that each write one store, to the same effect, agree on that store too. -/
theorem Agree.write {x : DerivedStore} (h : Agree b xs s u) (hs : BodyFrame [x] s t) (hu : BodyFrame [x] u v)
    (hx : StoreAgrees t v x) (hc : v.freeCtr = t.freeCtr) : Agree b (x :: xs) t v where
  cfg := by rw [hs.cfg, hu.cfg, h.cfg]
  freeCtr := hc
  input hb := by rw [hs.inp, hs.inLen, hu.inp, hu.inLen]; exact h.input hb
  stores y hy := by
    by_cases hyx : y = x
    · exact hyx ▸ hx
    · exact (h.stores y (List.mem_of_ne_of_mem hyx hy)).frame hs hu (by simpa using hyx)

/-- Agreement does not speak of LASTOP. -/
theorem Agree.setLastop (h : Agree b xs s u) (c : BitVec 8) :
    Agree b xs { s with lastop := c } { u with lastop := c } where
  cfg := h.cfg
  freeCtr := h.freeCtr
  input := h.input
  stores x hx := by cases x with | freq | tree | code | pbits | out => exact h.stores _ hx

/-- The elements a store was just overwritten with do not depend on what it held. -/
theorem Memory.get_overwrite_congr {w : Nat} (m n : Memory w) {vs : List (BitVec w)} {k : Nat} (hk : k < vs.length) :
    (n.overwrite vs).get k = (m.overwrite vs).get k := by
  rw [Memory.get_overwrite, Memory.get_overwrite, if_pos hk, if_pos hk]

/-- The same output written to OUT keeps agreement. -/
theorem Agree.overwriteOut (h : Agree b xs s u) {vs : List Byte} {l : Nat} (hl : l ≤ vs.length) :
    Agree b (.out :: xs) { s with out := s.out.overwrite vs, outLen := BitVec.ofNat 32 l }
      { u with out := u.out.overwrite vs, outLen := BitVec.ofNat 32 l } := by
  have hlen : (BitVec.ofNat 32 l).toNat ≤ vs.length := (Nat.mod_le _ _).trans hl
  exact h.write (frame_out s _ _) (frame_out u _ _)
    ⟨rfl, fun _ hk => Memory.get_overwrite_congr _ _ (Nat.lt_of_lt_of_le hk hlen)⟩ h.freeCtr

/-! ## Readers -/

theorem Memory.read_congr {w : Nat} {m n : Memory w} {k : Nat} (h : n.get k = m.get k) : n.read k = m.read k := by
  rw [Memory.read, Memory.read, h]

theorem readLink_congr {m n : Memory 32} {k : Nat} (h : ∀ j < 4, n.get (4 * k + j) = m.get (4 * k + j)) :
    readLink n k = readLink m k := by
  have h0 : n.read (4 * k) = m.read (4 * k) := Memory.read_congr (h 0 (by omega))
  rw [readLink, readLink, h0, Memory.read_congr (h 3 (by omega))]

/-- The records of TREE below a bound depend on the elements below four times the bound (R100). -/
theorem readLinks_congr {m n : Memory 32} {base c : Nat} (h : ∀ k < 4 * (base + c), n.get k = m.get k) :
    readLinks n base c = readLinks m base c := by
  induction c generalizing base with
  | zero => rfl
  | succ c ih =>
    rw [readLinks, readLinks, readLink_congr fun j hj => h _ (by omega), ih fun k hk => h k (by omega)]

namespace Agree

theorem readIn (h : Agree true xs s u) : Machine.readIn u = Machine.readIn s := by
  obtain ⟨hi, hl⟩ := h.input rfl
  rw [Machine.readIn, Machine.readIn, hi, hl]

theorem readFreq (h : Agree b xs s u) (hx : .freq ∈ xs) : Machine.readFreq u = Machine.readFreq s := by
  have hf : u.freq = s.freq := h.stores _ hx
  rw [Machine.readFreq, Machine.readFreq, hf]

theorem readBits (h : Agree b xs s u) (hx : .pbits ∈ xs) : Machine.readBits u = Machine.readBits s := by
  obtain ⟨hp, hl⟩ : u.pbits = s.pbits ∧ u.pbLen = s.pbLen := h.stores _ hx
  rw [Machine.readBits, Machine.readBits, hp, hl]

theorem root_eq (h : Agree b xs s u) (hx : .tree ∈ xs) : u.root = s.root := (h.stores _ hx).1

theorem loadTree (h : Agree b xs s u) (hx : .tree ∈ xs) : Machine.loadTree u = Machine.loadTree s := by
  obtain ⟨hr, hn, ht⟩ := h.stores _ hx
  have hl : readLinks u.tree 0 s.nnodes.toNat = readLinks s.tree 0 s.nnodes.toNat :=
    readLinks_congr fun k hk => ht k (by omega)
  rw [Machine.loadTree, Machine.loadTree, hr, hn, hl]

theorem loadCode (h : Agree b xs s u) (hx : .code ∈ xs) : Machine.loadCode u = Machine.loadCode s := by
  have hc : u.code = s.code := h.stores _ hx
  rw [Machine.loadCode, Machine.loadCode, hc]

end Agree

/-! ## Bodies -/

/-- Two bodies stop in one way, or both succeed in related states. -/
inductive ResultsAgree (R : State → State → Prop) : Except Stop State → Except Stop State → Prop
  | ok {t v : State} (h : R t v) : ResultsAgree R (.ok t) (.ok v)
  | error (e : Stop) : ResultsAgree R (.error e) (.error e)

namespace ResultsAgree

variable {α : Type} {R R' : State → State → Prop}

/-- A stage that answers the same in both runs. -/
theorem bind_eq {x y : Except Stop α} {f g : α → Except Stop State} (h : y = x)
    (hfg : ∀ a, ResultsAgree R (f a) (g a)) : ResultsAgree R (x >>= f) (y >>= g) := by
  subst h
  cases y with
  | error e => exact .error e
  | ok a => exact hfg a

/-- A stage that writes the state. -/
theorem bind {x y : Except Stop State} {f g : State → Except Stop State} (h : ResultsAgree R' x y)
    (hfg : ∀ t v, R' t v → ResultsAgree R (f t) (g v)) : ResultsAgree R (x >>= f) (y >>= g) := by
  cases h with
  | error e => exact .error e
  | ok h => exact hfg _ _ h

/-- A check that decides the same in both runs. -/
theorem check {p q : Prop} [Decidable p] [Decidable q] {e : Stop} {x y : Except Stop State} (hpq : q ↔ p)
    (h : ResultsAgree R x y) : ResultsAgree R (if p then .error e else x) (if q then .error e else y) := by
  by_cases hp : p
  · rw [if_pos hp, if_pos (hpq.2 hp)]
    exact .error e
  · rw [if_neg hp, if_neg (mt hpq.1 hp)]
    exact h

theorem mono {x y : Except Stop State} (h : ResultsAgree R' x y) (hR : ∀ t v, R' t v → R t v) :
    ResultsAgree R x y := by
  cases h with
  | error e => exact .error e
  | ok h => exact .ok (hR _ _ h)

end ResultsAgree

theorem bodyFcnt_agree (h : Agree true xs s u) :
    ResultsAgree (Agree true (.freq :: xs)) (bodyFcnt s) (bodyFcnt u) :=
  .bind_eq h.readIn fun _ => .ok (h.write (frame_freq s _) (frame_freq u _) rfl h.freeCtr)

theorem bodyTbld_agree (h : Agree b xs s u) (hf : .freq ∈ xs) :
    ResultsAgree (Agree b (.tree :: xs)) (bodyTbld s) (bodyTbld u) := by
  refine .bind_eq (h.readFreq hf) fun counts => .check Iff.rfl <| .ok <|
    h.write (frame_tree s _ _ _) (frame_tree u _ _ _) ⟨rfl, rfl, fun k hk => ?_⟩ h.freeCtr
  refine Memory.get_overwrite_congr _ _ ?_
  rw [flatMap_words_length]
  exact Nat.lt_of_lt_of_le hk (Nat.mul_le_mul_left 4 (Nat.mod_le _ _))

theorem bodyCgen_agree (h : Agree b xs s u) (ht : .tree ∈ xs) :
    ResultsAgree (Agree b (.code :: xs)) (bodyCgen s) (bodyCgen u) :=
  .bind_eq (h.loadTree ht) fun links => .ok <| h.write (frame_code s _) (frame_code u _)
    (congrArg (fun r : Word => codeCells (codeTable links r.toNat)) (h.root_eq ht)) h.freeCtr

theorem bodyBpack_agree (h : Agree true xs s u) (hc : .code ∈ xs) :
    ResultsAgree (Agree true (.out :: xs)) (bodyBpack s) (bodyBpack u) := by
  refine .bind_eq (h.loadCode hc) fun _ => .bind_eq h.readIn fun _ => .bind_eq rfl fun bits =>
    .check (by rw [h.cfg]) <| .ok <| h.overwriteOut ?_
  rw [padded_bytes, packBuffer_length]
  omega

theorem bodyBunpk_agree (h : Agree true xs s u) :
    ResultsAgree (Agree true (.pbits :: xs)) (bodyBunpk s) (bodyBunpk u) :=
  .check (by rw [(h.input rfl).2]) <| .bind_eq h.readIn fun _ => .bind_eq rfl fun bits => .ok <|
    h.write (frame_pbits s _ _ _) (frame_pbits u _ _ _)
      ⟨congrArg (fun c => Memory.from 0 (pbitsBytes bits (Config.freeByte c))) h.freeCtr, rfl⟩
      (congrArg (· + 1) h.freeCtr)

theorem bodyHdecT_agree (h : Agree b xs s u) (hp : .pbits ∈ xs) (hc : .code ∈ xs) :
    ResultsAgree (Agree b (.out :: xs)) (bodyHdecT s) (bodyHdecT u) :=
  .bind_eq (h.loadCode hc) fun _ => .bind_eq (h.readBits hp) fun _ => .bind_eq (by rw [h.cfg]) fun _ =>
    .ok (h.overwriteOut le_rfl)

theorem bodyHdecR_agree (h : Agree b xs s u) (hp : .pbits ∈ xs) (ht : .tree ∈ xs) :
    ResultsAgree (Agree b (.out :: xs)) (bodyHdecR s) (bodyHdecR u) :=
  .bind_eq (h.loadTree ht) fun _ => .bind_eq (h.readBits hp) fun _ => .bind_eq (by rw [h.cfg, h.root_eq ht]) fun _ =>
    .ok (h.overwriteOut le_rfl)

theorem bodyHenc_agree (h : Agree true xs s u) :
    ResultsAgree (Agree true (.out :: .code :: .tree :: .freq :: xs)) (bodyHenc s) (bodyHenc u) :=
  .bind (bodyFcnt_agree h) fun _ _ h1 => .bind (bodyTbld_agree h1 (by simp)) fun _ _ h2 =>
    .bind (bodyCgen_agree h2 (by simp)) fun _ _ h3 => bodyBpack_agree h3 (by simp)

theorem bodyHdcmpT_agree (h : Agree true xs s u) (hc : .code ∈ xs) :
    ResultsAgree (Agree true (.out :: .pbits :: xs)) (bodyHdcmpT s) (bodyHdcmpT u) :=
  .bind_eq (h.loadCode hc) fun _ => .bind (bodyBunpk_agree h) fun _ _ h1 => bodyHdecT_agree h1 (by simp) (by simp [hc])

theorem bodyHdcmpR_agree (h : Agree true xs s u) (ht : .tree ∈ xs) :
    ResultsAgree (Agree true (.out :: .pbits :: xs)) (bodyHdcmpR s) (bodyHdcmpR u) :=
  .bind_eq (h.loadTree ht) fun _ => .bind (bodyBunpk_agree h) fun _ _ h1 => bodyHdecR_agree h1 (by simp) (by simp [ht])

/-- Agreement on a command's destinations, all that R75 claims of the two results. -/
abbrev DestsAgree (i : Instr) (t v : State) : Prop := ∀ x ∈ dests i, StoreAgrees t v x

/-- Agreement on more stores than the destinations is agreement on the destinations. -/
theorem ResultsAgree.dests {i : Instr} {x y : Except Stop State} (h : ResultsAgree (Agree b xs) x y)
    (hd : ∀ x ∈ dests i, x ∈ xs) : ResultsAgree (DestsAgree i) x y :=
  h.mono fun _ _ ha x hx => ha.stores x (hd x hx)

/-- The body of every command takes states that agree on its sources to results that agree on its destinations. -/
theorem bodyOf_agree {i : Instr} {body : State → Except Stop State} (hb : bodyOf i = some body)
    (h : Agree (readsIn i) (needs i) s u) : ResultsAgree (DestsAgree i) (body s) (body u) := by
  cases i <;> cases hb
  case hnop => exact .ok nofun
  case fcnt => exact (bodyFcnt_agree h).dests (by decide)
  case tbld => exact (bodyTbld_agree h (by decide)).dests (by decide)
  case cgen => exact (bodyCgen_agree h (by decide)).dests (by decide)
  case bpack => exact (bodyBpack_agree h (by decide)).dests (by decide)
  case bunpk => exact (bodyBunpk_agree h).dests (by decide)
  case hdecT => exact (bodyHdecT_agree h (by decide) (by decide)).dests (by decide)
  case hdecR => exact (bodyHdecR_agree h (by decide) (by decide)).dests (by decide)
  case henc => exact (bodyHenc_agree h).dests (by decide)
  case hdcmpT => exact (bodyHdcmpT_agree h (by decide)).dests (by decide)
  case hdcmpR => exact (bodyHdcmpR_agree h (by decide)).dests (by decide)

/-! ## The checks of R250 -/

theorem foldl_validBit_getLsbD (xs : List DerivedStore) (m : Word) (j : Nat) :
    (xs.foldl (fun m x => m ||| BitVec.twoPow 32 (statusBit x)) m).getLsbD j =
      (m.getLsbD j || xs.any fun x => statusBit x == j) := by
  induction xs generalizing m with
  | nil => simp
  | cons x xs ih =>
    have hbit : (BitVec.twoPow 32 (statusBit x)).getLsbD j = (statusBit x == j) := by
      rw [BitVec.getLsbD_twoPow]
      cases x <;> rfl
    rw [List.foldl_cons, ih, List.any_cons, BitVec.getLsbD_or, hbit, Bool.or_assoc]

/-- The mask of some valid bits has exactly their STATUS positions. -/
theorem validBitMask_getLsbD (xs : List DerivedStore) (j : Nat) :
    (validBitMask xs).getLsbD j = xs.any fun x => statusBit x == j := by
  rw [validBitMask, foldl_validBit_getLsbD]
  simp

/-- The missing valid bits depend on the needed ones only. -/
theorem missing_congr {i : Instr} {p q : Valid} (h : ∀ x ∈ needs i, q.get x = p.get x) : missing i q = missing i p := by
  refine BitVec.eq_of_getLsbD_eq fun j hj => ?_
  simp only [missing, BitVec.getLsbD_and, BitVec.getLsbD_not, validBitMask_getLsbD]
  by_cases hm : (needs i).any (fun x => statusBit x == j) = true
  · obtain ⟨x, hx, hxj⟩ := List.any_eq_true.1 hm
    rw [← beq_iff_eq.1 hxj, Valid.word_getLsbD_statusBit, Valid.word_getLsbD_statusBit, h x hx]
  · rw [Bool.eq_false_iff.2 hm, Bool.false_and, Bool.false_and]

theorem pbits_mem_needs {i : Instr} (h : readsPbits i = true) : .pbits ∈ needs i := by
  revert h
  cases i <;> decide

/-- The checks of R250 read the needed valid bits and the lengths of the sources only. -/
theorem precheck_congr {i : Instr} (h : Agree (readsIn i) (needs i) s u)
    (hv : ∀ x ∈ needs i, u.valid.get x = s.valid.get x) : precheck i u = precheck i s := by
  have hin : (readsIn i = true ∧ s.cfg.maxIn < u.inLen.toNat) ↔ (readsIn i = true ∧ s.cfg.maxIn < s.inLen.toNat) :=
    and_congr_right fun hr => by rw [(h.input hr).2]
  have hpb : (readsPbits i = true ∧ s.cfg.maxPb < u.pbLen.toNat) ↔
      (readsPbits i = true ∧ s.cfg.maxPb < s.pbLen.toNat) :=
    and_congr_right fun hr => by rw [(h.stores _ (pbits_mem_needs hr)).2]
  simp only [precheck, missing_congr hv, h.cfg, hin, hpb]

/-! ## How two runs end -/

/-- Two end states with the same status and the same destinations: the conclusion of R75. -/
structure EndsAlike (ds : List DerivedStore) (t v : State) : Prop where
  state : v.state = t.state
  ecode : v.ecode = t.ecode
  errinfo : v.errinfo = t.errinfo
  valid : ∀ x ∈ ds, v.valid.get x = t.valid.get x
  stores : ∀ x ∈ ds, StoreAgrees t v x

/-- Two failures with one error end alike: every destination has lost its value (log 18). -/
theorem fail_endsAlike (ds : List DerivedStore) (e : Error) (info : Word) (s u : State) :
    EndsAlike ds (fail ds e info s) (fail ds e info u) where
  state := rfl
  ecode := rfl
  errinfo := rfl
  valid x hx := by simp [fail_valid_get, hx]
  stores x hx := by
    cases x with
    | freq => simp [StoreAgrees, fail_freq, hx]
    | tree => simp [StoreAgrees, fail_root, fail_nnodes, hx]
    | code => simp [StoreAgrees, fail_code, hx]
    | pbits => simp [StoreAgrees, fail_pbits, fail_pbLen, hx]
    | out => simp [StoreAgrees, fail_outLen, hx]

theorem succeed_endsAlike (h : ∀ x ∈ ds, StoreAgrees s u x) : EndsAlike ds (succeed ds s) (succeed ds u) where
  state := rfl
  ecode := rfl
  errinfo := rfl
  valid x hx := by simp [succeed_valid_get, hx]
  stores x hx := by
    have hx := h x hx
    cases x with | freq | tree | code | pbits | out => simpa [StoreAgrees] using hx

/-- The frame of R250 takes equal checks and agreeing bodies to runs that end alike. -/
theorem runCommand_endsAlike {i : Instr} {body : State → Except Stop State}
    (hp : precheck i { u with lastop := i.opcode } = precheck i { s with lastop := i.opcode })
    (hb : ResultsAgree (DestsAgree i) (body { s with lastop := i.opcode }) (body { u with lastop := i.opcode }))
    (h : runCommand i body s = .next t) : ∃ v, runCommand i body u = .next v ∧ EndsAlike (dests i) t v := by
  generalize hbu : body { u with lastop := i.opcode } = y at hb
  obtain ⟨e, info, hs, rfl⟩ | ⟨hs, e, info, hbs, rfl⟩ | ⟨hs, s', hbs, rfl⟩ := runCommand_cases h
  · exact ⟨_, runCommand_of_precheck (hp.trans hs), fail_endsAlike ..⟩
  · rw [hbs] at hb
    cases hb
    exact ⟨_, runCommand_of_raise (hp.trans hs) hbu, fail_endsAlike ..⟩
  · rw [hbs] at hb
    cases hb with
    | ok hd => exact ⟨_, runCommand_of_ok (hp.trans hs) hbu, succeed_endsAlike hd⟩

theorem exec_endsAlike {i : Instr} (h : Agree (readsIn i) (needs i) s u)
    (hv : ∀ x ∈ needs i, u.valid.get x = s.valid.get x) (hs : exec i s = .next t) :
    ∃ v, exec i u = .next v ∧ EndsAlike (dests i) t v := by
  cases hb : bodyOf i with
  | none =>
    cases i <;> cases hb
    cases hs
    exact ⟨_, rfl, rfl, rfl, rfl, nofun, nofun⟩
  | some body =>
    have hl := h.setLastop i.opcode
    rw [exec_eq_runCommand hb] at hs ⊢
    exact runCommand_endsAlike (precheck_congr hl hv) (bodyOf_agree hb hl) hs

theorem out_not_mem_needs (i : Instr) : .out ∉ needs i := by cases i <;> decide

/-- Settles O14: states that agree on a command's sources pass the same checks, its body stops alike or writes the same
destinations, and success and failure write the rest. -/
theorem commandsDependOnlyOnTheirSources : Obligations.CommandsDependOnlyOnTheirSources := by
  intro i s u t hcfg hctr hvalid hin hfreq htree hcode hpbits _ hs
  have hsrc : ∀ x ∈ needs i, StoreAgrees s u x := by
    intro x hx
    cases x with
    | freq => exact hfreq hx
    | tree =>
      obtain ⟨ht, hr, hn⟩ := htree hx
      exact ⟨hr, hn, fun _ _ => by rw [ht]⟩
    | code => exact hcode hx
    | pbits => exact hpbits hx
    | out => exact absurd hx (out_not_mem_needs i)
  obtain ⟨v, hv, he⟩ := exec_endsAlike ⟨hcfg, hctr, hin, hsrc⟩ hvalid hs
  exact ⟨v, hv, he.state, he.ecode, he.errinfo, he.valid, he.stores .freq, he.stores .tree, he.stores .code,
    he.stores .pbits, he.stores .out⟩

/-! ## Host accesses that stop (R68, R77, R78) -/

/-- While a command runs every read but that of STATUS stops (R77, log 10). -/
theorem memRead_of_busy (hb : s.state = .busy) {sp : Space} {idx : Nat} (ha : allowedWhileBusy sp idx = false)
    (n : Nat) : memRead s sp idx n = .fault .accessWhileBusy := by
  rw [memRead, if_pos ⟨hb, by rw [ha]; exact Bool.false_ne_true⟩]

theorem memWrite_of_busy (hb : s.state = .busy) (sp : Space) (idx n : Nat) (v : BitVec n) :
    memWrite s sp idx n v = .fault .accessWhileBusy := by
  rw [memWrite, if_pos hb]

/-- A read that R77 allows and R68 defines answers with the element, or stops where there is none (R78). -/
theorem memRead_of_defined {sp : Space} {idx : Nat} (hb : s.state ≠ .busy ∨ allowedWhileBusy sp idx = true)
    (hr : sp.inRange s.cfg idx = true) : memRead s sp idx sp.width =
      (spaceRead s sp idx).elim (.fault .unwrittenElement) fun e => .next { s with readData := some e } := by
  have h1 : ¬ (s.state = .busy ∧ ¬ allowedWhileBusy sp idx = true) := by tauto
  rw [memRead, if_neg h1, if_neg (by simp [hr])]
  cases spaceRead s sp idx <;> rfl

/-- An access of the wrong width or outside its space (R68, log 11). -/
theorem memRead_of_undefined (hb : s.state ≠ .busy) {sp : Space} {idx n : Nat}
    (h : n ≠ sp.width ∨ sp.inRange s.cfg idx = false) : memRead s sp idx n = .fault .undefinedAccess := by
  rw [memRead, if_neg fun hc => hb hc.1, if_pos (h.imp_right fun hr => by rw [hr]; exact Bool.false_ne_true)]

theorem memWrite_of_undefined (hb : s.state ≠ .busy) {sp : Space} {idx n : Nat} (v : BitVec n)
    (h : n ≠ sp.width ∨ sp.inRange s.cfg idx = false) : memWrite s sp idx n v = .fault .undefinedAccess := by
  rw [memWrite, if_neg hb, if_pos (h.imp_right fun hr => by rw [hr]; exact Bool.false_ne_true)]

theorem allowedWhileBusy_eq_false {sp : Space} {idx : Nat} (h : sp ≠ .reg ∨ idx ≠ 1) :
    allowedWhileBusy sp idx = false := by
  rw [allowedWhileBusy, Bool.and_eq_false_iff]
  exact h.imp beq_false_of_ne beq_false_of_ne

/-- Settles O7: the checks of `memRead` and `memWrite` for BUSY come first. -/
theorem busyBlockAllowsOnlyStatusReads : Obligations.BusyBlockAllowsOnlyStatusReads := by
  intro s hb
  exact ⟨memRead_of_defined (.inr rfl) rfl, rfl, fun _ _ n h => memRead_of_busy hb (allowedWhileBusy_eq_false h) n,
    memWrite_of_busy hb⟩

/-- Settles O48: a read that answers found an element. -/
theorem hostReadsChangeNothing : Obligations.HostReadsChangeNothing := by
  intro s t sp idx n h
  obtain ⟨-, -, e, he, rfl⟩ := memRead_cases h
  rw [he]

/-- Settles O53: outside BUSY an access is undefined and stops, or its element decides. -/
theorem onlyDefinedReadsAnswer : Obligations.OnlyDefinedReadsAnswer := by
  intro s sp idx n hb
  refine ⟨fun h => ⟨memRead_of_undefined hb h, fun v => memWrite_of_undefined hb v h⟩, ?_⟩
  rintro rfl hr
  have hread : perform (.read sp idx sp.width) s = _ := memRead_of_defined (.inl hb) hr
  exact ⟨fun h => by rw [hread, h]; rfl, fun e h => by rw [hread, h]; rfl⟩

/-! ## Host writes to a store (R62) -/

/-- A host write to CODE changes no other element, and none at all when its word is reserved. -/
theorem codeWrite_get_other (m : Memory 32) {idx k : Nat} (v : Word) (h : k ≠ idx) :
    (codeWrite m idx v).get k = m.get k := by
  unfold codeWrite
  split
  · rfl
  · exact Memory.get_set_other m _ h

theorem codeWrite_get_same (m : Memory 32) {idx : Nat} (v : Word) (h : codeReserved idx = false) :
    (codeWrite m idx v).get idx = some (v &&& codeMask (idx % 16)) := by
  rw [codeWrite, h, if_neg Bool.false_ne_true, Memory.get_set_same]

/-- Settles O52: a defined write outside BUSY is `spaceWrite`, which sets one element of one store. -/
theorem hostWriteTouchesOneElement : Obligations.HostWriteTouchesOneElement := by
  intro s b v hb
  refine ⟨fun idx h => ?_, fun idx h => ?_, fun idx h => ?_, fun idx h => ?_, fun idx h => ?_, fun idx h => ?_⟩
  · exact ⟨_, memWrite_eq hb rfl (decide_eq_true h), rfl, fun k hk => Memory.get_set_other _ _ hk⟩
  · exact memWrite_eq hb rfl (decide_eq_true h)
  · exact ⟨_, memWrite_eq hb rfl (decide_eq_true h), rfl, fun k hk => Memory.get_set_other _ _ hk⟩
  · exact ⟨_, memWrite_eq hb rfl (decide_eq_true h), rfl, fun k hk => Memory.get_set_other _ _ hk⟩
  · exact ⟨_, memWrite_eq hb rfl (decide_eq_true h), rfl, fun k hk => codeWrite_get_other _ _ hk⟩
  · exact ⟨_, memWrite_eq hb rfl (decide_eq_true (Nat.mul_lt_mul_of_pos_left h (by decide))), rfl,
      fun k hk => Memory.get_set_other _ _ hk⟩

/-! ## Reserved bits (R68, R100, R101) -/

/-- With CNT_W = 32 every bit of a FREQ word is a bit of the count (R102). -/
theorem and_freqMask {c : Config} (h : c.cntW = 32) (v : Word) : v &&& freqMask c = v := by
  rw [freqMask, h]
  exact BitVec.and_allOnes

/-- With CNT_W = 32 the words of a node record keep the fields of R100. -/
theorem and_treeMask {c : Config} (h : c.cntW = 32) (v : Word) (j : Nat) : v &&& treeMask c j =
    if j = 0 then v &&& 0x0000FF01 else if j = 1 then v else if j = 2 then v &&& 0x000000FF else v &&& 0x01FF01FF := by
  have hw : weightMask c = BitVec.allOnes 40 := by rw [weightMask, h]; rfl
  have h1 : (BitVec.allOnes 40).extractLsb' 0 32 = BitVec.allOnes 32 := by decide
  match j with
  | 0 => rfl
  | 1 => rw [treeMask, hw, h1]; exact BitVec.and_allOnes
  | 2 => rw [treeMask, hw]; rfl
  | _ + 3 => rfl

/-- The words of a code record keep the fields of R101. -/
theorem and_codeMask (v : Word) (j : Nat) : v &&& codeMask j = if j = 0 then v &&& 0x000000FF else v := by
  match j with
  | 0 => rfl
  | _ + 1 => exact BitVec.and_allOnes

/-- Settles O51: the write sets the element to the value under its mask, and with CNT_W = 32 the masks are those of
R100 to R102. -/
theorem writtenElementsReadBack : Obligations.WrittenElementsReadBack := by
  intro s t sp idx v hw hreg hout h
  obtain ⟨-, -, -, hs⟩ := memWrite_cases h
  cases sp with
  | reg => exact absurd rfl hreg
  | out => exact absurd rfl hout
  | inp => cases hs; simp [spaceRead, Space.width]
  | pbits => cases hs; simp [spaceRead, Space.width]
  | freq => cases hs; simp [spaceRead, Space.width, and_freqMask hw]
  | tree =>
    cases hs
    simp only [spaceRead, Space.width, BitVec.setWidth_eq, Memory.get_set_same, and_treeMask hw, Option.map_some]
    split_ifs <;> rfl
  | code =>
    cases hs
    by_cases hr : 9 ≤ idx % 16
    · simp [spaceRead, codeReserved, hr]
    · have hres : codeReserved idx = false := decide_eq_false hr
      simp only [spaceRead, Space.width, BitVec.setWidth_eq, codeWrite_get_same _ _ hres, and_codeMask, hres, hr,
        Bool.false_eq_true, if_false, Option.map_some]
      split_ifs <;> rfl

/-! ## Input bytes without a value (R78) -/

/-- A range with an element nothing has written is not read (U4, log 1). -/
theorem Memory.readFrom_of_unwritten {w : Nat} {m : Memory w} {base n k : Nat} (hk : k < n)
    (h : m.get (base + k) = none) : m.readFrom base n = .error (.fault .unwrittenElement) := by
  induction n generalizing base k with
  | zero => exact absurd hk (Nat.not_lt_zero k)
  | succ n ih =>
    rw [Memory.readFrom]
    cases hv : m.get base with
    | none => rw [Memory.read, hv]; rfl
    | some v =>
      cases k with
      | zero => rw [Nat.add_zero, hv] at h; cases h
      | succ k =>
        have hrest := ih (base := base + 1) (Nat.lt_of_succ_lt_succ hk) (by rwa [Nat.add_assoc, Nat.add_comm 1 k])
        rw [Memory.read_ok_iff.2 hv, hrest]
        rfl

theorem bodyFcnt_of_unwritten {k : Nat} (hk : k < s.inLen.toNat) (h : s.inp.get k = none) :
    bodyFcnt s = .error (.fault .unwrittenElement) := by
  rw [bodyFcnt, readIn, Memory.readFrom_of_unwritten hk (by rwa [Nat.zero_add])]
  rfl

theorem bodyHenc_of_fcnt_error {e : Stop} (h : bodyFcnt s = .error e) : bodyHenc s = .error e := by
  rw [bodyHenc, h]
  rfl

/-- A command without derived sources passes the checks of R250 when its input is within capacity. -/
theorem precheck_of_no_needs {i : Instr} (hn : needs i = []) (hl : s.inLen.toNat ≤ s.cfg.maxIn) :
    precheck i s = none := by
  have hpb : ¬ readsPbits i = true := fun hr => by simpa [hn] using pbits_mem_needs hr
  have hmask : missing i s.valid = 0 := by rw [missing, hn]; exact BitVec.zero_and
  exact precheck_none_iff.2 ⟨hmask, fun _ => hl, fun hr => absurd hr hpb⟩

/-- Settles O55: both commands pass the checks and begin by reading the whole input. -/
theorem unwrittenInputStopsTheCount : Obligations.UnwrittenInputStopsTheCount := by
  intro s i k hi hl hk hnone
  have hf := bodyFcnt_of_unwritten (s := { s with lastop := i.opcode }) hk hnone
  simp only [List.mem_cons, List.not_mem_nil, or_false] at hi
  obtain rfl | rfl := hi
  · exact runCommand_of_fault (precheck_of_no_needs rfl hl) hf
  · exact runCommand_of_fault (precheck_of_no_needs rfl hl) (bodyHenc_of_fcnt_error hf)

end Sys2Proof.Machine
end

section
/-! PROOFS. The encoding family: the decoder accepts the twelve words of the opcode map (O1, O3) and names the clause of
R93 that makes any other word illegal (O2). -/

namespace Sys2Proof.Machine

/-! ## Accepted words (R91) -/

theorem decode_eq_ok_iff {w : Word} {i : Instr} : decode w = .ok i ↔ w = encode i := by
  constructor
  · exact eq_encode_of_decode
  · rintro rfl
    exact decode_encode i

/-- Settles O1: `decode` and `encode` are inverse to each other. -/
theorem decodeAcceptsExactlyTheTwelveWords : Obligations.DecodeAcceptsExactlyTheTwelveWords :=
  ⟨by decide, fun _ _ => decode_eq_ok_iff⟩

/-- Settles O3: each word is the encoding of its command, so O1 decodes it. -/
theorem handWrittenWordsDecode : Obligations.HandWrittenWordsDecode := by
  obtain ⟨⟨-, hclr, fcnt, tbld, cgen, bpack, bunpk, -, hdecR, henc, -, hdcmpR⟩, hdecode⟩ :=
    decodeAcceptsExactlyTheTwelveWords
  exact ⟨(hdecode _ _).2 hclr.symm, (hdecode _ _).2 fcnt.symm, (hdecode _ _).2 tbld.symm, (hdecode _ _).2 cgen.symm,
    (hdecode _ _).2 bpack.symm, (hdecode _ _).2 bunpk.symm, (hdecode _ _).2 hdecR.symm, (hdecode _ _).2 henc.symm,
    (hdecode _ _).2 hdcmpR.symm⟩

/-! ## Rejected words (R93) -/

/-- The assigned operation codes are those of the rows of the opcode map (R91, R93). -/
theorem mem_assignedOpcodes_iff {opc : BitVec 8} : opc ∈ assignedOpcodes ↔ ∃ r ∈ opcodeMap, r.opc = opc := by
  have hrow : ∀ o ∈ assignedOpcodes, ∃ r ∈ opcodeMap, r.opc = o := by decide
  have hopc : ∀ r ∈ opcodeMap, r.opc ∈ assignedOpcodes := by decide
  constructor
  · exact hrow opc
  · rintro ⟨r, hr, rfl⟩
    exact hopc r hr

/-- A row with S = 1 is one of a command that has a strategy (R90, R91). -/
theorem opcodeMap_strategy : ∀ r ∈ opcodeMap, r.s = 1 → r.opc ∈ strategyOpcodes := by decide

theorem decode_of_zero_ne {w : Word} (hz : (wordFields w).zero ≠ 0) : decode w = .error .zeroFieldNotZero := by
  rw [decode, if_pos hz]

/-- With ZERO = 0 and no row for OPC and S, the rows for OPC decide which clause of R93 the word breaks. -/
theorem decode_of_no_row {w : Word} (hz : (wordFields w).zero = 0)
    (hrow : ∀ r ∈ opcodeMap, r.opc = (wordFields w).opc → r.s ≠ (wordFields w).s) :
    decode w = .error (if (wordFields w).opc ∈ assignedOpcodes then .strategyBitNotAllowed else .opcodeNotAssigned) := by
  have hfind : opcodeMap.find? (fun r => r.opc == (wordFields w).opc && r.s == (wordFields w).s) = none := by
    simpa using hrow
  have hany : opcodeMap.any (fun r => r.opc == (wordFields w).opc) = true ↔ (wordFields w).opc ∈ assignedOpcodes := by
    simp [mem_assignedOpcodes_iff]
  rw [decode, if_neg (not_not.2 hz), hfind]
  simp only [hany]
  split_ifs <;> rfl

theorem decode_of_opcode_not_assigned {w : Word} (hz : (wordFields w).zero = 0)
    (ho : (wordFields w).opc ∉ assignedOpcodes) : decode w = .error .opcodeNotAssigned := by
  rw [decode_of_no_row hz fun r hr hopc => absurd (mem_assignedOpcodes_iff.2 ⟨r, hr, hopc⟩) ho, if_neg ho]

theorem decode_of_strategy_not_allowed {w : Word} (hz : (wordFields w).zero = 0)
    (ho : (wordFields w).opc ∈ assignedOpcodes) (hs : (wordFields w).s = 1)
    (hn : (wordFields w).opc ∉ strategyOpcodes) : decode w = .error .strategyBitNotAllowed := by
  have hrow : ∀ r ∈ opcodeMap, r.opc = (wordFields w).opc → r.s ≠ (wordFields w).s := by
    intro r hr hopc hrs
    exact hn (hopc ▸ opcodeMap_strategy r hr (hrs.trans hs))
  rw [decode_of_no_row hz hrow, if_pos ho]

theorem wordFields_s_eq_one {w : Word} (h : w.getLsbD 8 = true) : (wordFields w).s = 1 := by
  refine BitVec.eq_of_getLsbD_eq fun j hj => ?_
  obtain rfl : j = 0 := by omega
  simpa [wordFields] using h

/-- Settles O2: the clauses are the decoder's error branches, in its order. -/
theorem illegalWordsAreRejectedByReason : Obligations.IllegalWordsAreRejectedByReason := fun _ =>
  ⟨decode_of_zero_ne, decode_of_opcode_not_assigned,
    fun hz ho h8 hn => decode_of_strategy_not_allowed hz ho (wordFields_s_eq_one h8) hn⟩

end Sys2Proof.Machine
end

section
/-! PROOFS. The frequency counter: FCNT counts the input and reports only its capacity error (O17), the counts are exact
(O18), and the empty input gives zeros that TBLD reports (O19). -/

namespace Sys2Proof.Machine

variable {s t : State} {bytes : List Byte} {counts : List Nat}

/-! ## What FREQ holds after FCNT (R130, R131) -/

theorem le_length_of_mem_countSymbols {n : Nat} (h : n ∈ countSymbols bytes) : n ≤ bytes.length :=
  countSymbols_sum bytes ▸ List.single_le_sum (fun _ _ => Nat.zero_le _) n h

/-- The state FCNT leaves after counting `bytes`. -/
def fcntDone (s : State) (bytes : List Byte) : State :=
  { s with
    freq := Memory.from 0 ((countSymbols bytes).map (BitVec.ofNat 32)), valid := { s.valid with freq := true },
    state := .done, ecode := none, errinfo := 0, lastop := 0x10 }

theorem fcntDone_freq_get {k : Nat} (hk : k < 256) :
    (fcntDone s bytes).freq.get k = some (BitVec.ofNat 32 (bytes.count (BitVec.ofNat 8 k))) := by
  simp [fcntDone, Memory.get_from, countSymbols_eq, hk]

/-- No count is truncated: it is at most IN_LEN, which fits a word. -/
theorem fcntDone_freqHolds (h : InHolds s bytes) : FreqHolds (fcntDone s bytes) (countSymbols bytes) := by
  refine ⟨countSymbols_length bytes, fun k hk => ?_⟩
  have hword : bytes.count (BitVec.ofNat 8 k) < 2 ^ 32 :=
    calc bytes.count (BitVec.ofNat 8 k) ≤ bytes.length := List.count_le_length
      _ = s.inLen.toNat := h.1.symm
      _ < 2 ^ 32 := s.inLen.isLt
  rw [fcntDone_freq_get hk, Option.map_some, BitVec.toNat_ofNat, Nat.mod_eq_of_lt hword, countSymbols_eq]
  simp [hk]

/-! ## How FCNT ends (R130, R250) -/

/-- Reading a range can only stop on an element without a value. -/
theorem Memory.readFrom_ne_raise {w : Nat} (m : Memory w) (base n : Nat) (e : Error) (info : Word) :
    m.readFrom base n ≠ .error (.raise e info) := by
  induction n generalizing base with
  | zero => nofun
  | succ n ih =>
    rw [Memory.readFrom, Memory.read]
    intro h
    obtain h | ⟨_, -, h⟩ := bind_error_iff.1 h
    · split at h <;> cases h
    · obtain h | ⟨_, -, h⟩ := bind_error_iff.1 h
      · exact ih _ h
      · cases h

theorem bodyFcnt_ne_raise (e : Error) (info : Word) : bodyFcnt s ≠ .error (.raise e info) := by
  intro h
  obtain h | ⟨_, -, h⟩ := bind_error_iff.1 h
  · exact Memory.readFrom_ne_raise _ _ _ _ _ h
  · cases h

/-- FCNT needs no store, so the length of the input is its only check. -/
theorem precheck_fcnt_of_overflow (h : s.cfg.maxIn < s.inLen.toNat) : precheck .fcnt s = some (.capacity, 0) := by
  have hmissing : missing .fcnt s.valid = 0 := BitVec.zero_and
  rw [precheck, if_neg (not_not.2 hmissing), if_pos ⟨rfl, h⟩]

theorem exec_fcnt_of_overflow (h : s.cfg.maxIn < s.inLen.toNat) :
    exec .fcnt s = .next (fail [.freq] .capacity 0 { s with lastop := 0x10 }) :=
  runCommand_of_precheck (i := .fcnt) (precheck_fcnt_of_overflow (s := { s with lastop := 0x10 }) h)

theorem exec_fcnt_of_input (h : HasInput s bytes) : exec .fcnt s = .next (fcntDone s bytes) := by
  obtain ⟨hin, hcap⟩ := h
  have hbody : bodyFcnt { s with lastop := 0x10 } = .ok { s with
      lastop := 0x10, freq := Memory.from 0 ((countSymbols bytes).map (BitVec.ofNat 32)) } :=
    bodyFcnt_ok_iff.2 ⟨bytes, readIn_ok_iff.2 hin, rfl⟩
  exact runCommand_of_ok (i := .fcnt) (precheck_of_no_needs rfl (hin.1.trans_le hcap)) hbody

/-- When FCNT answers, the input was too long, or its bytes have been counted. -/
theorem exec_fcnt_cases (h : exec .fcnt s = .next t) :
    (s.cfg.maxIn < s.inLen.toNat ∧ t = fail [.freq] .capacity 0 { s with lastop := 0x10 }) ∨
      ∃ bytes, HasInput s bytes ∧ t = fcntDone s bytes := by
  obtain hcap | hcap := Nat.lt_or_ge s.cfg.maxIn s.inLen.toNat
  · rw [exec_fcnt_of_overflow hcap] at h
    cases h
    exact .inl ⟨hcap, rfl⟩
  · have hpre : precheck .fcnt { s with lastop := 0x10 } = none := precheck_of_no_needs rfl hcap
    obtain ⟨e, info, hp, -⟩ | ⟨-, e, info, hb, -⟩ | ⟨-, u, hb, rfl⟩ := runCommand_cases (i := .fcnt) h
    · exact absurd (hpre.symm.trans hp) nofun
    · exact absurd hb (bodyFcnt_ne_raise e info)
    · obtain ⟨bytes, hr, rfl⟩ := bodyFcnt_ok_iff.1 hb
      have hin : InHolds s bytes := readIn_ok_iff.1 hr
      exact .inr ⟨bytes, ⟨hin, hin.1.symm.trans_le hcap⟩, rfl⟩

/-- Settles O17: an input within capacity is counted, one above it fails the check, and `exec_fcnt_cases` has no third
ending. -/
theorem fcntCountsEverySymbol : Obligations.FcntCountsEverySymbol := by
  refine ⟨by decide, fun s bytes _ h => ?_, fun s hcap => ?_, fun s t h he => ?_⟩
  · exact ⟨fcntDone s bytes, exec_fcnt_of_input h, countSymbols_eq bytes ▸ fcntDone_freqHolds h.1, rfl⟩
  · exact ⟨_, exec_fcnt_of_overflow hcap, rfl, rfl, rfl⟩
  · obtain ⟨hcap, rfl⟩ | ⟨bytes, -, rfl⟩ := exec_fcnt_cases h
    · exact ⟨rfl, hcap⟩
    · cases he

/-- Settles O18: the counts of the bytes read add up to their number, and no count exceeds the sum. -/
theorem fcntCountsAreExact : Obligations.FcntCountsAreExact := by
  intro s t hcfg h hd
  obtain ⟨⟨-, hcnt, -⟩, -⟩ := hcfg
  obtain ⟨-, rfl⟩ | ⟨bytes, ⟨hin, hcap⟩, rfl⟩ := exec_fcnt_cases h
  · cases hd
  · have hlen : s.inLen.toNat = bytes.length := hin.1
    rw [hlen]
    exact ⟨hcap, hcnt, countSymbols bytes, fcntDone_freqHolds hin, countSymbols_sum bytes,
      fun _ => le_length_of_mem_countSymbols⟩

/-! ## TBLD without a positive count (R146) -/

/-- A command whose derived sources are all valid lacks none (R250). -/
theorem missing_of_valid {i : Instr} {v : Valid} (h : ∀ x ∈ needs i, v.get x = true) : missing i v = 0 := by
  have hall : missing i ⟨true, true, true, true, true⟩ = 0 := by cases i <;> decide
  rw [← hall]
  exact missing_congr fun x hx => (h x hx).trans (by cases x <;> rfl)

theorem presentSymbols_of_zero (h : ∀ n ∈ counts, n = 0) : presentSymbols counts = [] := by
  refine List.eq_nil_iff_forall_not_mem.2 fun k hk => ?_
  obtain ⟨-, hpos⟩ := mem_presentSymbols.1 hk
  rw [List.getD_eq_getElem?_getD] at hpos
  cases hn : counts[k]? with
  | none => simp [hn] at hpos
  | some n => simp [hn, h n (List.mem_of_getElem? hn)] at hpos

theorem tbld_fails_of_zero_counts (hv : s.valid.freq = true) (hf : FreqHolds s counts) (h : ∀ n ∈ counts, n = 0) :
    FailsWith (exec .tbld s) .emptyInput 0 := by
  have hneeds : ∀ x ∈ needs .tbld, s.valid.get x = true := by simpa [needs, Valid.get] using hv
  have hpre : precheck .tbld { s with lastop := 0x11 } = none :=
    precheck_none_iff.2 ⟨missing_of_valid hneeds, nofun, nofun⟩
  have hbody : bodyTbld { s with lastop := 0x11 } = .error (.raise .emptyInput 0) :=
    bodyTbld_of_empty (readFreq_ok_iff.2 hf) (presentSymbols_of_zero h)
  exact ⟨_, runCommand_of_raise (i := .tbld) hpre hbody, rfl, rfl, rfl⟩

theorem hasInput_nil (h : s.inLen = 0) : HasInput s [] :=
  ⟨⟨by rw [h]; rfl, nofun⟩, Nat.zero_le _⟩

/-- Settles O19: the counts of no bytes are 256 zeros, and TBLD finds no positive count among them. -/
theorem fcntOfEmptyInput : Obligations.FcntOfEmptyInput := by
  intro s h
  have hin := hasInput_nil h
  have hzero : ∀ n ∈ countSymbols [], n = 0 := fun n hn => Nat.le_zero.1 (le_length_of_mem_countSymbols hn)
  refine ⟨fcntDone s [], exec_fcnt_of_input hin, rfl, rfl, fun k hk => fcntDone_freq_get hk, ?_⟩
  exact tbld_fails_of_zero_counts rfl (fcntDone_freqHolds hin.1) hzero

end Sys2Proof.Machine
end

section
/-! PROOFS. The tree builder: TBLD makes the greedy merge of the positive counts (O20), a well-formed tree with
ascending leaves (O23), reports an empty mapping (O21) and makes one leaf of one symbol (O22); and the elements beyond a
command's result are kept (O12). -/

namespace Sys2Proof.Machine

variable {s t u : State} {counts : List Nat}

/-! ## How a command and TBLD end (R140, R146, R250, R251) -/

/-- A command that ends in DONE has a body, which succeeded (R251). -/
theorem exec_done {i : Instr} (h : exec i s = .next t) (hd : t.state = .done) : ∃ body u, bodyOf i = some body ∧
    body { s with lastop := i.opcode } = .ok u ∧ t = succeed (dests i) u := by
  cases hi : bodyOf i with
  | none =>
    cases i <;> cases hi
    cases h
    cases hd
  | some body =>
    rw [exec_eq_runCommand hi] at h
    obtain ⟨e, info, -, rfl⟩ | ⟨-, e, info, -, rfl⟩ | ⟨-, u, hb, rfl⟩ := runCommand_cases h
    · cases hd
    · cases hd
    · exact ⟨body, u, rfl, hb, rfl⟩

/-- A command that reads neither IN nor PBITS passes the checks of R250 when its derived sources are valid. -/
theorem precheck_of_valid {i : Instr} (hv : ∀ x ∈ needs i, s.valid.get x = true) (hin : readsIn i = false)
    (hpb : readsPbits i = false) : precheck i s = none :=
  precheck_none_iff.2 ⟨missing_of_valid hv, by simp [hin], by simp [hpb]⟩

/-- A count is one word of FREQ. -/
theorem freqHolds_lt (h : FreqHolds s counts) : ∀ n ∈ counts, n < 2 ^ 32 := by
  obtain ⟨hl, hg⟩ := h
  intro n hn
  obtain ⟨k, hk⟩ := List.mem_iff_getElem?.1 hn
  have hlt := (List.getElem?_eq_some_iff.1 hk).1
  obtain ⟨w, -, rfl⟩ := Option.map_eq_some_iff.1 ((hg k (by omega)).trans hk)
  exact w.isLt

/-- FREQ holds one list of counts. -/
theorem freqHolds_unique {counts' : List Nat} (h : FreqHolds s counts) (h' : FreqHolds s counts') : counts' = counts :=
  Except.ok.inj ((readFreq_ok_iff.2 h').symm.trans (readFreq_ok_iff.2 h))

theorem presentSymbols_ne_nil (hl : counts.length = 256) (h : ∃ n ∈ counts, 0 < n) : presentSymbols counts ≠ [] := by
  obtain ⟨n, hn, hpos⟩ := h
  obtain ⟨k, hk⟩ := List.mem_iff_getElem?.1 hn
  have hlt := (List.getElem?_eq_some_iff.1 hk).1
  refine List.ne_nil_of_mem (mem_presentSymbols.2 ⟨hl ▸ hlt, ?_⟩)
  rwa [List.getD_eq_getElem?_getD, hk]

/-- The state TBLD leaves after building the tree of `counts`. -/
def tbldDone (s : State) (counts : List Nat) : State :=
  { s with
    tree := s.tree.overwrite ((buildTree counts).1.flatMap Node.words), root := BitVec.ofNat 32 (buildTree counts).2,
    nnodes := BitVec.ofNat 32 (buildTree counts).1.length, valid := { s.valid with tree := true },
    state := .done, ecode := none, errinfo := 0, lastop := 0x11 }

theorem precheck_tbld (hv : s.valid.freq = true) : precheck .tbld s = none :=
  precheck_of_valid (by simpa [needs, Valid.get] using hv) rfl rfl

theorem exec_tbld_of_counts (hv : s.valid.freq = true) (hf : FreqHolds s counts) (hp : presentSymbols counts ≠ []) :
    exec .tbld s = .next (tbldDone s counts) :=
  runCommand_of_ok (i := .tbld) (precheck_tbld hv) (bodyTbld_ok_iff.2 ⟨counts, readFreq_ok_iff.2 hf, hp, rfl⟩)

theorem exec_tbld_of_no_symbol (hv : s.valid.freq = true) (hf : FreqHolds s counts) (hp : presentSymbols counts = []) :
    exec .tbld s = .next (fail [.tree] .emptyInput 0 { s with lastop := 0x11 }) :=
  runCommand_of_raise (i := .tbld) (precheck_tbld hv)
    (bodyTbld_of_empty (s := { s with lastop := 0x11 }) (readFreq_ok_iff.2 hf) hp)

/-- TBLD that ends in DONE has built the tree of the counts in FREQ. -/
theorem exec_tbld_done (h : exec .tbld s = .next t) (hd : t.state = .done) (hf : FreqHolds s counts) :
    presentSymbols counts ≠ [] ∧ t = tbldDone s counts := by
  obtain ⟨_, u, hi, hb, rfl⟩ := exec_done h hd
  cases hi
  obtain ⟨counts', hr, hp, rfl⟩ := bodyTbld_ok_iff.1 hb
  obtain rfl := freqHolds_unique hf (readFreq_ok_iff.1 hr)
  exact ⟨hp, rfl⟩

/-! ## The tree TBLD leaves in TREE (R140 to R144) -/

/-- A build makes at most MAX_NODES records, so NNODES and ROOT fit their registers. -/
theorem buildTree_length_le (hf : FreqHolds s counts) (hp : presentSymbols counts ≠ []) :
    (buildTree counts).1.length ≤ 511 := by
  obtain ⟨-, hlen, -⟩ := buildTree_inv hf.1 (freqHolds_lt hf) hp
  have := presentSymbols_length_le counts
  omega

theorem tbldDone_root (hf : FreqHolds s counts) (hp : presentSymbols counts ≠ []) :
    (tbldDone s counts).root.toNat = (buildTree counts).2 := by
  obtain ⟨hroot, -, -⟩ := buildTree_inv hf.1 (freqHolds_lt hf) hp
  have := buildTree_length_le hf hp
  exact Nat.mod_eq_of_lt (by omega)

theorem tbldDone_nnodes (hf : FreqHolds s counts) (hp : presentSymbols counts ≠ []) :
    (tbldDone s counts).nnodes.toNat = (buildTree counts).1.length := by
  have := buildTree_length_le hf hp
  exact Nat.mod_eq_of_lt (by omega)

theorem tbldDone_treeHolds (hf : FreqHolds s counts) (hp : presentSymbols counts ≠ []) :
    TreeHolds (tbldDone s counts) ((buildTree counts).1.map nodeLink) := by
  refine ⟨by rw [tbldDone_nnodes hf hp, List.length_map], fun k hk => ?_⟩
  rw [List.length_map] at hk
  rw [List.getElem?_map, List.getElem?_eq_getElem hk]
  exact congrArg some (linkHolds_overwrite _ hk)

theorem tbldDone_weightsHold (s : State) (counts : List Nat) :
    WeightsHold (tbldDone s counts) ((buildTree counts).1.map nodeWeight) := by
  intro k hk
  rw [List.length_map] at hk
  rw [List.getElem?_map, List.getElem?_eq_getElem hk]
  exact weightAt_overwrite _ hk

/-- The tree is one that CGEN and HDEC.R accept. -/
theorem tbldDone_hasTree (hf : FreqHolds s counts) (hp : presentSymbols counts ≠ []) :
    HasTree (tbldDone s counts) ((buildTree counts).1.map nodeLink) :=
  ⟨rfl, tbldDone_treeHolds hf hp, by
    rw [tbldDone_root hf hp]
    exact treeShape_iff.2 (buildTree_good hf.1 (freqHolds_lt hf) hp)⟩

/-- The words of TREE beyond the records keep what they held (R140). -/
theorem overwrite_words_get_beyond (m : Memory 32) {nodes : List Node} {k : Nat} (hk : 4 * nodes.length ≤ k) :
    (m.overwrite (nodes.flatMap Node.words)).get k = m.get k := by
  rw [Memory.get_overwrite, flatMap_words_length, if_neg (Nat.not_lt.2 hk)]

/-- What the merge loop builds is the greedy merge: its invariant, read where one key is left. -/
theorem buildTree_greedyMerge (hl : counts.length = 256) (hb : ∀ n ∈ counts, n < 2 ^ 32)
    (hp : presentSymbols counts ≠ []) :
    GreedyMerge counts ((buildTree counts).1.map nodeLink) ((buildTree counts).1.map nodeWeight)
      (buildTree counts).2 := by
  obtain ⟨hroot, hlen, hinv⟩ := buildTree_inv hl hb hp
  exact {
    weights_length := by rw [List.length_map, List.length_map]
    length_eq := by rw [List.length_map, hlen]
    root_eq := by rw [List.length_map, hroot]
    leaves := fun i hi => buildTree_leaf hl hb hp (List.getElem?_eq_getElem hi)
    merges := fun k hk hlt => hinv.merges k (by rwa [List.length_map]) (by rwa [List.length_map] at hlt) }

/-- Settles O20: the state TBLD leaves holds the build of the counts, whose merge loop keeps `MergeInv`. -/
theorem tbldMergesGreedily : Obligations.TbldMergesGreedily := by
  intro s counts hv hf hpos
  have hp := presentSymbols_ne_nil hf.1 hpos
  refine ⟨tbldDone s counts, _, _, exec_tbld_of_counts hv hf hp, tbldDone_treeHolds hf hp,
    tbldDone_weightsHold s counts, ?_, fun k hk => ?_, rfl⟩
  · rw [tbldDone_root hf hp]
    exact buildTree_greedyMerge hf.1 (freqHolds_lt hf) hp
  · rw [List.length_map] at hk
    exact overwrite_words_get_beyond s.tree hk

/-- All six items of WF_TREE hold of a build (R24, R148). -/
theorem buildTree_wfTree (hl : counts.length = 256) (hb : ∀ n ∈ counts, n < 2 ^ 32) (hp : presentSymbols counts ≠ []) :
    wfTree ((buildTree counts).1.map nodeLink) ((buildTree counts).1.map nodeWeight) (buildTree counts).2 = true := by
  obtain ⟨hsum, -⟩ := buildTree_weights hl hb hp
  rw [wfTree, treeShape_iff.2 (buildTree_good hl hb hp), hsum, Bool.and_self]

/-- The children of a node are made before it. -/
theorem buildTree_child_lt (hl : counts.length = 256) (hb : ∀ n ∈ counts, n < 2 ^ 32) (hp : presentSymbols counts ≠ [])
    {k a b : Nat} (h : ((buildTree counts).1.map nodeLink)[k]? = some (.branch a b)) : a < k ∧ b < k := by
  obtain ⟨-, -, hinv⟩ := buildTree_inv hl hb hp
  obtain ⟨hleft, hright, -⟩ := hinv.child_lt k a b h
  exact ⟨hleft, hright⟩

/-- Settles O23: TBLD in DONE has left the build of the counts, with as many leaves as there are positive counts. -/
theorem tbldBuildsWellFormedTree : Obligations.TbldBuildsWellFormedTree := by
  intro s t counts hf h hd
  obtain ⟨hp, rfl⟩ := exec_tbld_done h hd hf
  have hl := hf.1
  have hb := freqHolds_lt hf
  obtain ⟨-, hlen, -⟩ := buildTree_inv hl hb hp
  obtain ⟨hall, hfirst⟩ := buildTree_leafSyms hl hb hp
  obtain ⟨-, hrootWeight, hmono⟩ := buildTree_weights hl hb hp
  rw [tbldDone_root hf hp]
  refine ⟨_, _, (presentSymbols counts).length, tbldDone_treeHolds hf hp, tbldDone_weightsHold s counts, ?_, ?_,
    buildTree_wfTree hl hb hp, ?_, hall.trans hfirst.symm, fun k a b => buildTree_child_lt hl hb hp, ?_, hrootWeight,
    sum_counts_lt hl hb⟩
  · rw [List.length_map, List.length_map]
  · rw [List.length_map, hlen]
  · rw [hall, presentSymbols_bytes]
    exact presentSymbols_pairwise counts
  · simpa using hmono

/-- Settles O21: TBLD raises EmptyInputError, and `fail` writes STATUS and clears the destination. -/
theorem tbldOfEmptyMapping : Obligations.TbldOfEmptyMapping := by
  intro s counts hv hf hzero
  refine ⟨tbld_fails_of_zero_counts hv hf hzero, fun t h => ?_⟩
  rw [exec_tbld_of_no_symbol hv hf (presentSymbols_of_zero hzero)] at h
  cases h
  exact ⟨statusWord_ecode _, statusWord_state _, rfl, rfl, rfl, rfl⟩

/-! ## One symbol (R145) -/

/-- One positive count is one present symbol: a list without duplicates that has one member. -/
theorem presentSymbols_of_one {sym : Byte} (h : ∀ k < 256, 0 < counts.getD k 0 ↔ k = sym.toNat) :
    presentSymbols counts = [sym.toNat] := by
  have hnodup : (presentSymbols counts).Nodup := (presentSymbols_pairwise counts).imp Nat.ne_of_lt
  refine List.perm_singleton.1 ((List.perm_ext_iff_of_nodup hnodup (List.nodup_singleton _)).2 fun k => ?_)
  rw [mem_presentSymbols, List.mem_singleton]
  constructor
  · rintro ⟨hk, hpos⟩
    exact (h k hk).1 hpos
  · rintro rfl
    exact ⟨sym.isLt, (h _ sym.isLt).2 rfl⟩

/-- With one symbol the queue holds one key, so the loop ends before its first merge. -/
theorem buildTree_of_one {sym : Byte} (hp : presentSymbols counts = [sym.toNat]) :
    buildTree counts = ([.leaf sym (BitVec.ofNat 40 (counts.getD sym.toNat 0))], 0) := by
  simp [buildTree, hp, mergeLoop, extractMin, leastKey]

/-- The one record is the symbol's leaf, and weighs its count. -/
theorem buildTree_records_of_one {sym : Byte} (hb : ∀ n ∈ counts, n < 2 ^ 32)
    (hp : presentSymbols counts = [sym.toNat]) : (buildTree counts).1.map nodeLink = [.leaf sym] ∧
      (buildTree counts).1.map nodeWeight = [counts.getD sym.toNat 0] := by
  have hfit : counts.getD sym.toNat 0 < 2 ^ 40 := Nat.lt_trans (getD_lt hb _) (by decide)
  rw [buildTree_of_one hp]
  exact ⟨rfl, congrArg (fun n => [n]) (Nat.mod_eq_of_lt hfit)⟩

/-- The state CGEN leaves after deriving the codes of a tree. -/
def cgenDone (s : State) (links : List Link) : State :=
  { s with
    code := codeCells (codeTable links s.root.toNat), valid := { s.valid with code := true },
    state := .done, ecode := none, errinfo := 0, lastop := 0x12 }

theorem exec_cgen_of_tree {links : List Link} (h : HasTree s links) : exec .cgen s = .next (cgenDone s links) := by
  obtain ⟨hv, ht, hs⟩ := h
  exact runCommand_of_ok (i := .cgen) (precheck_of_valid (by simpa [needs, Valid.get] using hv) rfl rfl)
    (bodyCgen_ok_iff.2 ⟨links, loadTree_ok_iff.2 ⟨ht, hs⟩, rfl⟩)

/-- The record CGEN writes for a symbol holds the symbol's code in the tree (R160, R161). -/
theorem cgenDone_codeRecordHolds {links : List Link} (h : HasTree s links) {sym : Byte} {c : BitString}
    (hc : isTreeCode links s.root.toNat c sym) : CodeRecordHolds (cgenDone s links).code sym.toNat c := by
  obtain ⟨-, -, hs⟩ := h
  have hg := treeShape_iff.1 hs
  have hcode : codeOf (codeTable links s.root.toNat) sym = c :=
    (hg.codeOf_codeTable_iff (GoodTree.treeCode_ne_nil hc)).2 hc
  rw [← hcode]
  exact codeCells_holds sym.isLt (hg.codeOf_length sym).1

/-- Settles O22: the build of one symbol is its leaf, and the code of a root that is a leaf is "0" (R161). -/
theorem treeOfOneSymbolGetsCodeZero : Obligations.TreeOfOneSymbolGetsCodeZero := by
  intro s counts sym hv hf hone
  have hps := presentSymbols_of_one hone
  have hp : presentSymbols counts ≠ [] := by rw [hps]; exact List.cons_ne_nil _ _
  have hb := freqHolds_lt hf
  obtain ⟨hlinks, hweights⟩ := buildTree_records_of_one hb hps
  have hroot : (tbldDone s counts).root = 0 := by rw [tbldDone, buildTree_of_one hps]; rfl
  have hnodes : (tbldDone s counts).nnodes = 1 := by rw [tbldDone, buildTree_of_one hps]; rfl
  have htree := tbldDone_hasTree hf hp
  have hweightsHold := tbldDone_weightsHold s counts
  have hwf := buildTree_wfTree hf.1 hb hp
  rw [hlinks] at htree hwf
  rw [hweights] at hweightsHold hwf
  rw [buildTree_of_one hps] at hwf
  have ⟨_, hholds, _⟩ := htree
  refine ⟨tbldDone s counts, _, exec_tbld_of_counts hv hf hp, rfl, hroot, hnodes, hholds, hweightsHold, hwf,
    exec_cgen_of_tree htree, rfl, cgenDone_codeRecordHolds htree ?_⟩
  rw [hroot]
  exact ⟨rfl, rfl⟩

/-! ## Elements beyond the result (R29, R140; log 6) -/

/-- OUT from OUT_LEN on reads in `u` as in `s`. -/
def OutKept (s u : State) : Prop := ∀ k, u.outLen.toNat ≤ k → u.out.get k = s.out.get k

/-- TREE from record NNODES on reads in `u` as in `s`. -/
def TreeKept (s u : State) : Prop := ∀ k, 4 * u.nnodes.toNat ≤ k → u.tree.get k = s.tree.get k

theorem BodyFrame.outKept {ds : List DerivedStore} (h : BodyFrame ds s u) (hx : .out ∉ ds) : OutKept s u :=
  fun _ _ => by rw [(h.out hx).1]

theorem BodyFrame.treeKept {ds : List DerivedStore} (h : BodyFrame ds s u) (hx : .tree ∉ ds) : TreeKept s u :=
  fun _ _ => by rw [(h.tree hx).1]

/-- A stage that does not write OUT may go before one that keeps it. -/
theorem OutKept.after_frame {ds : List DerivedStore} (h : OutKept t u) (hf : BodyFrame ds s t) (hx : .out ∉ ds) :
    OutKept s u := by
  obtain ⟨ho, -⟩ := hf.out hx
  intro k hk
  rw [h k hk, ho]

/-- Stages that do not write TREE may go before and after one that keeps it. -/
theorem TreeKept.between_frames {ds es : List DerivedStore} {s1 s2 : State} (h : TreeKept s1 s2)
    (hf : BodyFrame ds s s1) (hx : .tree ∉ ds) (hg : BodyFrame es s2 u) (hy : .tree ∉ es) : TreeKept s u := by
  obtain ⟨hs, -, -⟩ := hf.tree hx
  obtain ⟨hu, -, hn⟩ := hg.tree hy
  intro k hk
  rw [hn] at hk
  rw [hu, h k hk, hs]

/-- An output within capacity replaces the elements below OUT_LEN. -/
theorem deliver_outKept {vs : List Byte} (hm : s.cfg.maxOut < 2 ^ 32) (hv : vs.length ≤ s.cfg.maxOut) :
    OutKept s (deliver s vs) := by
  intro k hk
  have hlen : (BitVec.ofNat 32 vs.length).toNat = vs.length := Nat.mod_eq_of_lt (Nat.lt_of_le_of_lt hv hm)
  exact (Memory.get_overwrite ..).trans (if_neg (Nat.not_lt.2 (hlen.symm.trans_le hk)))

theorem bodyBpack_outKept (hm : s.cfg.maxOut < 2 ^ 32) (hb : bodyBpack s = .ok u) : OutKept s u := by
  obtain ⟨b, hv, rfl⟩ := bodyBpack_ok_deliver hb
  exact deliver_outKept hm hv

theorem bodyHdecT_outKept (hm : s.cfg.maxOut < 2 ^ 32) (hb : bodyHdecT s = .ok u) : OutKept s u := by
  obtain ⟨_, _, syms, -, -, hd, rfl⟩ := bodyHdecT_ok_iff.1 hb
  exact deliver_outKept hm (decodeTableLoop_length (Nat.zero_le _) hd)

theorem bodyHdecR_outKept (hm : s.cfg.maxOut < 2 ^ 32) (hb : bodyHdecR s = .ok u) : OutKept s u := by
  obtain ⟨_, _, syms, -, -, hd, rfl⟩ := bodyHdecR_ok_iff.1 hb
  exact deliver_outKept hm (decodeByTree_length hd)

theorem bodyHdcmpT_outKept (hm : s.cfg.maxOut < 2 ^ 32) (hb : bodyHdcmpT s = .ok u) : OutKept s u := by
  obtain ⟨_, s1, -, h1, h2⟩ := bodyHdcmpT_ok_iff.1 hb
  have hf := bodyBunpk_frame h1
  exact (bodyHdecT_outKept (hf.cfg ▸ hm) h2).after_frame hf (by decide)

theorem bodyHdcmpR_outKept (hm : s.cfg.maxOut < 2 ^ 32) (hb : bodyHdcmpR s = .ok u) : OutKept s u := by
  obtain ⟨_, s1, -, h1, h2⟩ := bodyHdcmpR_ok_iff.1 hb
  have hf := bodyBunpk_frame h1
  exact (bodyHdecR_outKept (hf.cfg ▸ hm) h2).after_frame hf (by decide)

theorem bodyHenc_outKept (hm : s.cfg.maxOut < 2 ^ 32) (hb : bodyHenc s = .ok u) : OutKept s u := by
  obtain ⟨_, _, _, h1, h2, h3, h4⟩ := bodyHenc_ok_iff.1 hb
  have hf := (bodyFcnt_frame h1).trans ((bodyTbld_frame h2).trans (bodyCgen_frame h3))
  exact (bodyBpack_outKept (hf.cfg ▸ hm) h4).after_frame hf (by decide)

theorem bodyTbld_treeKept (hb : bodyTbld s = .ok u) : TreeKept s u := by
  obtain ⟨counts, hr, hp, rfl⟩ := bodyTbld_ok_iff.1 hb
  intro k hk
  refine overwrite_words_get_beyond s.tree ?_
  rwa [← tbldDone_nnodes (readFreq_ok_iff.1 hr) hp]

theorem bodyHenc_treeKept (hb : bodyHenc s = .ok u) : TreeKept s u := by
  obtain ⟨_, _, _, h1, h2, h3, h4⟩ := bodyHenc_ok_iff.1 hb
  exact (bodyTbld_treeKept h2).between_frames (bodyFcnt_frame h1) (by decide)
    ((bodyCgen_frame h3).trans (bodyBpack_frame h4)) (by decide)

/-- Every body writes OUT below OUT_LEN only. -/
theorem bodyOf_outKept {i : Instr} {body : State → Except Stop State} (hi : bodyOf i = some body)
    (hm : s.cfg.maxOut < 2 ^ 32) (hb : body s = .ok u) : OutKept s u := by
  have hf := bodyOf_frame hi hb
  cases i <;> cases hi
  case bpack => exact bodyBpack_outKept hm hb
  case hdecT => exact bodyHdecT_outKept hm hb
  case hdecR => exact bodyHdecR_outKept hm hb
  case henc => exact bodyHenc_outKept hm hb
  case hdcmpT => exact bodyHdcmpT_outKept hm hb
  case hdcmpR => exact bodyHdcmpR_outKept hm hb
  case hnop | fcnt | tbld | cgen | bunpk => exact hf.outKept (by decide)

/-- Every body writes TREE below record NNODES only. -/
theorem bodyOf_treeKept {i : Instr} {body : State → Except Stop State} (hi : bodyOf i = some body)
    (hb : body s = .ok u) : TreeKept s u := by
  have hf := bodyOf_frame hi hb
  cases i <;> cases hi
  case tbld => exact bodyTbld_treeKept hb
  case henc => exact bodyHenc_treeKept hb
  case hnop | fcnt | cgen | bpack | bunpk | hdecT | hdecR | hdcmpT | hdcmpR => exact hf.treeKept (by decide)

/-- Settles O12: a command in DONE is its body and the flags, and each body writes OUT and TREE below their lengths. -/
theorem elementsBeyondTheResultAreKept : Obligations.ElementsBeyondTheResultAreKept := by
  intro i s t hc h hd
  obtain ⟨-, -, hm, -⟩ := hc
  obtain ⟨body, u, hi, hb, rfl⟩ := exec_done h hd
  have hout := bodyOf_outKept (s := { s with lastop := i.opcode }) hi hm hb
  have htree := bodyOf_treeKept hi hb
  exact ⟨by simpa [OutKept] using hout, by simpa [TreeKept] using htree⟩

end Sys2Proof.Machine
end

section
/-! PROOFS. The code table generator: CGEN writes the leaf paths of the tree (O24), a complete prefix code (O25) whose
codes are shorter than the number of leaves (O26). -/

namespace Sys2Proof.Machine

variable {s t : State} {links : List Link}

theorem readLinks_of_treeHolds (h : TreeHolds s links) : readLinks s.tree 0 s.nnodes.toNat = .ok links := by
  obtain ⟨hn, hk⟩ := h
  exact readLinks_ok_iff.2 ⟨hn.symm, by simpa using hk⟩

/-- TREE holds one list of records. -/
theorem treeHolds_unique {links' : List Link} (h : TreeHolds s links) (h' : TreeHolds s links') : links' = links :=
  Except.ok.inj ((readLinks_of_treeHolds h').symm.trans (readLinks_of_treeHolds h))

/-- CGEN that ends in DONE has derived the codes of a well-formed tree in TREE. -/
theorem exec_cgen_done (h : exec .cgen s = .next t) (hd : t.state = .done) :
    ∃ links, TreeHolds s links ∧ GoodTree links s.root.toNat ∧ t = cgenDone s links := by
  obtain ⟨_, u, hi, hb, rfl⟩ := exec_done h hd
  cases hi
  obtain ⟨links, hl, rfl⟩ := bodyCgen_ok_iff.1 hb
  obtain ⟨hholds, hshape⟩ := loadTree_ok_iff.1 hl
  exact ⟨links, hholds, treeShape_iff.1 hshape, rfl⟩

/-- A code of a well-formed tree has at most 255 bits, so its record holds it (R101, R165). -/
theorem cgenDone_codeHolds (g : GoodTree links s.root.toNat) :
    CodeHolds (cgenDone s links) (codeTable links s.root.toNat) := by
  refine ⟨GoodTree.codeTable_length, fun sym hsym => codeCells_holds hsym ?_⟩
  obtain ⟨hlen, -⟩ := g.codeOf_length (BitVec.ofNat 8 sym)
  rwa [codeOf, BitVec.toNat_ofNat, Nat.mod_eq_of_lt hsym] at hlen

/-- Settles O25: CGEN that ends in DONE wrote the table of a well-formed tree, whose laws are those of `GoodTree`. -/
theorem cgenMakesCompletePrefixCode : Obligations.CgenMakesCompletePrefixCode := by
  intro s t h hd
  obtain ⟨links, hholds, g, rfl⟩ := exec_cgen_done h hd
  exact ⟨links, _, hholds, cgenDone_codeHolds g, g.codeTable_shape, fun _ => g.codeOf_ne_nil_iff,
    fun _ _ => g.codeTable_prefix_free, g.kraft⟩

/-- Settles O24: CGEN accepts the tree and writes its table, in which a symbol's code is the path to its leaf. -/
theorem cgenAssignsLeafPaths : Obligations.CgenAssignsLeafPaths := by
  intro s links h
  have ⟨_, _, hshape⟩ := h
  have g := treeShape_iff.1 hshape
  exact ⟨cgenDone s links, _, exec_cgen_of_tree h, cgenDone_codeHolds g, fun _ _ => g.codeOf_codeTable_iff, rfl⟩

/-- Settles O26: the tree CGEN read is the one TREE holds, and a path to a leaf passes each internal node at most
once. -/
theorem codesAreShorterThanTheLeafCount : Obligations.CodesAreShorterThanTheLeafCount := by
  intro s t links h hd hholds
  obtain ⟨links', hholds', g, rfl⟩ := exec_cgen_done h hd
  obtain rfl := treeHolds_unique hholds hholds'
  exact ⟨_, cgenDone_codeHolds g, g.codeOf_length⟩

end Sys2Proof.Machine
end

section
/-! PROOFS. The bit packer: BPACK writes the header byte and the padded codes (O27), reports the first symbol without a
code (O28), packs the empty stream where HENC fails (O29), and reports an output above MAX_OUT (O30). -/

namespace Sys2Proof.Machine

variable {s : State} {tbl : List BitString} {bytes : List Byte}

/-! ## The checks and the body (R175, R250) -/

/-- The output size as R175 computes it is the one R177 gives: a header byte and L div 8 + 1 payload bytes. -/
theorem bpack_size (l : Nat) : 1 + (l + padLength l) / 8 = 2 + l / 8 := by
  rw [padded_bytes, ← Nat.add_assoc, Nat.add_right_comm]

theorem inLen_le_of_hasInput (h : HasInput s bytes) : s.inLen.toNat ≤ s.cfg.maxIn := by
  obtain ⟨⟨hlen, -⟩, hcap⟩ := h
  exact hlen.trans_le hcap

theorem readIn_of_hasInput (h : HasInput s bytes) : readIn s = .ok bytes := readIn_ok_iff.2 h.1

theorem loadCode_of_hasTable (h : HasTable s tbl) : loadCode s = .ok tbl := loadCode_ok_iff.2 h.2

theorem precheck_bpack (ht : HasTable s tbl) (hi : HasInput s bytes) : precheck .bpack s = none := by
  obtain ⟨hv, -⟩ := ht
  have hneeds : ∀ x ∈ needs .bpack, s.valid.get x = true := by simpa [needs, Valid.get] using hv
  exact precheck_none_iff.2 ⟨missing_of_valid hneeds, fun _ => inLen_le_of_hasInput hi, nofun⟩

theorem bodyBpack_of_fit (ht : HasTable s tbl) (hi : HasInput s bytes) (ha : AllCoded tbl bytes)
    (hm : 2 + (encoded tbl bytes).length / 8 ≤ s.cfg.maxOut) :
    bodyBpack s = .ok (deliver s (packBuffer (encoded tbl bytes))) := by
  refine bodyBpack_ok_iff.2 ⟨tbl, bytes, _, loadCode_of_hasTable ht, readIn_of_hasInput hi,
    encodeSymbols_ok_iff.2 ⟨ha, rfl⟩, ?_, ?_⟩
  · rwa [bpack_size, Nat.not_lt]
  · rw [bpack_size, deliver, packBuffer_length]

/-- BPACK of a stream in which the scan stops (R178). -/
theorem bodyBpack_of_scan_error {e : Stop} (ht : HasTable s tbl) (hi : HasInput s bytes)
    (he : encodeSymbols tbl 0 bytes = .error e) : bodyBpack s = .error e := by
  simp [bodyBpack, bind, Except.bind, loadCode_of_hasTable ht, readIn_of_hasInput hi, he]

/-! ## How BPACK ends -/

/-- The state BPACK leaves after packing the code bits `b`. -/
def bpackDone (s : State) (b : BitString) : State :=
  { deliver s (packBuffer b) with
    valid := { s.valid with out := true }, state := .done, ecode := none, errinfo := 0, lastop := 0x13 }

theorem exec_bpack_of_fit (ht : HasTable s tbl) (hi : HasInput s bytes) (ha : AllCoded tbl bytes)
    (hm : 2 + (encoded tbl bytes).length / 8 ≤ s.cfg.maxOut) :
    exec .bpack s = .next (bpackDone s (encoded tbl bytes)) :=
  runCommand_of_ok (i := .bpack) (precheck_bpack ht hi) (bodyBpack_of_fit (s := { s with lastop := 0x13 }) ht hi ha hm)

theorem bpack_fails_of_raise {e : Error} {info : Word} (ht : HasTable s tbl) (hi : HasInput s bytes)
    (hb : bodyBpack { s with lastop := 0x13 } = .error (.raise e info)) : FailsWith (exec .bpack s) e info :=
  ⟨_, runCommand_of_raise (i := .bpack) (precheck_bpack ht hi) hb, rfl, rfl, rfl⟩

/-! ## What OUT holds -/

/-- An output whose length fits OUT_LEN is what OUT holds after its delivery (R29). -/
theorem deliver_outHolds {vs : List Byte} (hv : vs.length < 2 ^ 32) : OutHolds (deliver s vs) vs :=
  ⟨Nat.mod_eq_of_lt hv, fun k hk => (Memory.get_overwrite s.out vs k).trans (if_pos hk)⟩

theorem bpackDone_outHolds (hc : s.cfg.wf) {b : BitString} (hm : 2 + b.length / 8 ≤ s.cfg.maxOut) :
    OutHolds (bpackDone s b) (packBuffer b) := by
  obtain ⟨-, -, hout, -⟩ := hc
  refine deliver_outHolds (s := s) ?_
  rw [packBuffer_length]
  exact Nat.lt_of_le_of_lt hm hout

theorem bpackDone_get_beyond (s : State) {b : BitString} {k : Nat} (hk : (packBuffer b).length ≤ k) :
    (bpackDone s b).out.get k = s.out.get k :=
  (Memory.get_overwrite ..).trans (if_neg (Nat.not_lt.2 hk))

/-- Settles O27: BPACK delivers `packBuffer` of the concatenated codes, whose bits are those of R181. -/
theorem bpackWritesThePaddedBuffer : Obligations.BpackWritesThePaddedBuffer := by
  intro s tbl bytes hc ht hi ha hm
  exact ⟨bpackDone s (encoded tbl bytes), packBuffer (encoded tbl bytes), exec_bpack_of_fit ht hi ha hm,
    bpackDone_outHolds hc hm, packBuffer_length _, bitsOf_packBuffer _, fun _ => bpackDone_get_beyond s, rfl⟩

/-- Settles O28: the scan stops at the first symbol without a code, before the output size is checked. -/
theorem bpackReportsFirstUnknownSymbol : Obligations.BpackReportsFirstUnknownSymbol := by
  intro s tbl bytes i x ht hi ha hx hnone
  have hscan : encodeSymbols tbl 0 bytes = .error (.raise .unknownSymbol (BitVec.ofNat 32 i)) := by
    simpa using encodeSymbols_error (i := 0) ha hx hnone
  exact bpack_fails_of_raise ht hi (bodyBpack_of_scan_error ht hi hscan)

/-! ## The empty stream (R180) -/

/-- HENC of no bytes fails in its TBLD stage, which finds the 256 zeros FCNT counted. -/
theorem bodyHenc_of_no_input (h : InHolds s []) : bodyHenc s = .error (.raise .emptyInput 0) :=
  bodyHenc_of_tbld_error (bodyFcnt_ok_iff.2 ⟨[], readIn_ok_iff.2 h, rfl⟩)
    (bodyTbld_of_empty (readFreq_ok_iff.2 (fcntDone_freqHolds h))
      (presentSymbols_of_zero fun _ hn => Nat.le_zero.1 (le_length_of_mem_countSymbols hn)))

theorem henc_fails_of_no_input (h : HasInput s []) : FailsWith (exec .henc s) .emptyInput 0 :=
  ⟨_, runCommand_of_raise (i := .henc) (precheck_of_no_needs rfl (inLen_le_of_hasInput h))
    (bodyHenc_of_no_input (s := { s with lastop := 0x20 }) h.1), rfl, rfl, rfl⟩

/-- Settles O29: no symbol gives no code bits, which BPACK packs as a header byte and one byte of padding. -/
theorem bpackOfEmptyStream : Obligations.BpackOfEmptyStream := by
  refine ⟨fun s tbl hc ht h0 => ?_, fun s h0 => henc_fails_of_no_input (hasInput_nil h0)⟩
  have hroom : 2 + (encoded tbl []).length / 8 ≤ s.cfg.maxOut := by
    obtain ⟨⟨-, -, htwo⟩, -⟩ := hc
    simpa using htwo
  exact ⟨bpackDone s [], exec_bpack_of_fit ht (hasInput_nil h0) nofun hroom, rfl, bpackDone_outHolds hc hroom⟩

/-! ## The output capacity (R179) -/

/-- The length field of a code record has eight bits (R101). -/
theorem codeHolds_length_le (h : CodeHolds s tbl) (x : Byte) : (codeOf tbl x).length ≤ 255 := by
  obtain ⟨w, -, hw⟩ := Option.map_eq_some_iff.1 (h.2 x.toNat x.isLt).1
  rw [codeOf, ← hw]
  exact Nat.le_of_lt_succ (BitVec.isLt _)

theorem encoded_length_le {n : Nat} (h : ∀ x, (codeOf tbl x).length ≤ n) (bytes : List Byte) :
    (encoded tbl bytes).length ≤ n * bytes.length := by
  induction bytes with
  | nil => exact Nat.zero_le _
  | cons x xs ih =>
    rw [encoded_cons, List.length_append, List.length_cons, Nat.mul_succ, Nat.add_comm]
    exact Nat.add_le_add ih (h x)

/-- Settles O30: a scan that succeeds is followed by the check of the output size, and codes of at most 255 bits keep
the output of MAX_IN bytes within the default. -/
theorem bpackOutputCapacity : Obligations.BpackOutputCapacity := by
  intro s tbl bytes ht hi ha
  refine ⟨fun hover => ?_, fun hdefault => ?_⟩
  · refine bpack_fails_of_raise ht hi (bodyBpack_of_overflow (loadCode_of_hasTable ht) (readIn_of_hasInput hi)
      (encodeSymbols_ok_iff.2 ⟨ha, rfl⟩) ?_)
    rwa [bpack_size]
  · have hlen := encoded_length_le (codeHolds_length_le ht.2.1) bytes
    have hcap := hi.2
    omega

end Sys2Proof.Machine
end

section
/-! PROOFS. The bit unpacker: BUNPK strips the header and the padding (O31), ignores the padding bits (O33), and
gives back the codes BPACK packed (O34). -/

namespace Sys2Proof.Machine

variable {s t : State} {tbl : List BitString} {bytes : List Byte} {bits : BitString}

/-! ## What BUNPK leaves (R190, R194) -/

/-- The state BUNPK leaves after unpacking the bit string `bits`. -/
def bunpkDone (s : State) (bits : BitString) : State :=
  { s with
    pbits := Memory.from 0 (pbitsBytes bits (Config.freeByte s.freeCtr)), pbLen := BitVec.ofNat 32 bits.length,
    freeCtr := s.freeCtr + 1, valid := { s.valid with pbits := true },
    state := .done, ecode := none, errinfo := 0, lastop := 0x14 }

/-- A bit string whose length fits PB_LEN is what PBITS holds, whatever the free bits of its last byte are (R103). -/
theorem bunpkDone_pbHolds (hl : bits.length < 2 ^ 32) : PbHolds (bunpkDone s bits) bits := by
  have hlen : (BitVec.ofNat 32 bits.length).toNat = bits.length := Nat.mod_eq_of_lt hl
  have hread : (bunpkDone s bits).pbits.readFrom 0 ((bits.length + 7) / 8) =
      .ok (pbitsBytes bits (Config.freeByte s.freeCtr)) :=
    Memory.readFrom_ok_iff.2 ⟨pbitsBytes_length .., fun k _ => by simp [bunpkDone, Memory.get_from]⟩
  refine readBits_ok_iff.1 (bind_ok_iff.2 ⟨_, hlen.symm ▸ hread, congrArg Except.ok ?_⟩)
  exact hlen.symm ▸ take_bitsOf_pbitsBytes ..

/-! ## Buffers with a legal header (R191) -/

theorem ne_nil_of_unpacksTo (h : UnpacksTo bytes bits) : bytes ≠ [] := by
  rintro rfl
  exact absurd h.1 (by decide)

theorem length_le_of_unpacksTo (h : UnpacksTo bytes bits) : bits.length ≤ 8 * bytes.length := by
  obtain ⟨-, -, -, rfl⟩ := h
  rw [List.length_take]
  omega

/-- PB_LEN can hold what a buffer within capacity unpacks to. -/
theorem length_lt_of_unpacksTo (hc : s.cfg.wf) (hi : HasInput s bytes) (hu : UnpacksTo bytes bits) :
    bits.length < 2 ^ 32 := by
  obtain ⟨-, -, -, hpb⟩ := hc
  calc bits.length ≤ 8 * bytes.length := length_le_of_unpacksTo hu
    _ ≤ 8 * s.cfg.maxIn := Nat.mul_le_mul_left 8 hi.2
    _ < 2 ^ 32 := hpb

theorem inLen_ne_zero_of_hasInput (hi : HasInput s bytes) (hne : bytes ≠ []) : s.inLen ≠ 0 := by
  intro h0
  have hlen : bytes.length = 0 := by rw [← hi.1.1, h0]; rfl
  exact hne (List.length_eq_zero_iff.1 hlen)

theorem exec_bunpk_of_unpacksTo (hi : HasInput s bytes) (hu : UnpacksTo bytes bits) :
    exec .bunpk s = .next (bunpkDone s bits) := by
  have hne := ne_nil_of_unpacksTo hu
  have hbody := bodyBunpk_ok_iff (s := { s with lastop := 0x14 }).2
    ⟨inLen_ne_zero_of_hasInput hi hne, bytes, bits, readIn_of_hasInput hi, (unpacksTo_iff hne).1 hu, rfl⟩
  exact runCommand_of_ok (i := .bunpk) (precheck_of_no_needs rfl (inLen_le_of_hasInput hi)) hbody

/-- BUNPK of a legal buffer ends in DONE with its bit string in PBITS (R190). -/
theorem bunpk_holds_of_unpacksTo (hc : s.cfg.wf) (hi : HasInput s bytes) (hu : UnpacksTo bytes bits) :
    ∃ t, exec .bunpk s = .next t ∧ t.state = .done ∧ PbHolds t bits :=
  ⟨bunpkDone s bits, exec_bunpk_of_unpacksTo hi hu, rfl, bunpkDone_pbHolds (length_lt_of_unpacksTo hc hi hu)⟩

/-- Settles O31: the buffer passes the checks, and `bunpkDone` differs from the state before in nothing else. -/
theorem bunpkStripsHeaderAndPadding : Obligations.BunpkStripsHeaderAndPadding := by
  intro s bytes bits hc hi hu
  exact ⟨bunpkDone s bits, exec_bunpk_of_unpacksTo hi hu, bunpkDone_pbHolds (length_lt_of_unpacksTo hc hi hu), rfl⟩

/-- A header of 1 to 8 is legal before any payload of at least one byte (R191). -/
theorem unpacksTo_cons {h : Byte} {rest : List Byte} (h1 : 1 ≤ h.toNat) (h8 : h.toNat ≤ 8) (hne : rest ≠ []) :
    UnpacksTo (h :: rest) ((bitsOf rest).take (8 * rest.length - h.toNat)) := by
  have hpos : 0 < rest.length := List.length_pos_iff.2 hne
  exact ⟨h1, h8, h8.trans (Nat.le_mul_of_pos_right 8 hpos), rfl⟩

/-- Settles O33: both buffers unpack to the payload bits before the padding, which are the same bits. -/
theorem paddingBitsAreNotChecked : Obligations.PaddingBitsAreNotChecked := by
  intro s u h xs ys hs hu hxs hys hlen h1 h8 hne heq
  have hne' : ys ≠ [] := List.length_pos_iff.1 (hlen ▸ List.length_pos_iff.2 hne)
  obtain ⟨t, ht, htd, htp⟩ := bunpk_holds_of_unpacksTo hs hxs (unpacksTo_cons h1 h8 hne)
  obtain ⟨v, hv, hvd, hvp⟩ := bunpk_holds_of_unpacksTo hu hys (unpacksTo_cons h1 h8 hne')
  exact ⟨t, v, _, ht, hv, htd, hvd, htp, heq ▸ hvp⟩

/-! ## The buffer BPACK wrote (R181, R196) -/

/-- IN holds one byte sequence. -/
theorem inHolds_unique {bytes' : List Byte} (h : InHolds s bytes) (h' : InHolds s bytes') : bytes' = bytes :=
  Except.ok.inj ((readIn_ok_iff.2 h').symm.trans (readIn_ok_iff.2 h))

/-- CODE holds one table. -/
theorem codeHolds_unique {tbl' : List BitString} (h : CodeHolds s tbl) (h' : CodeHolds s tbl') : tbl' = tbl := by
  have hread : ∀ {cs : List BitString}, CodeHolds s cs → readCodes s.code 0 256 = .ok cs := by
    rintro cs ⟨hn, hk⟩
    exact readCodes_ok_iff.2 ⟨hn, by simpa using hk⟩
  exact Except.ok.inj ((hread h').symm.trans (hread h))

/-- OUT holds one byte sequence. -/
theorem outHolds_unique {bytes' : List Byte} (h : OutHolds s bytes) (h' : OutHolds s bytes') : bytes' = bytes := by
  have hread : ∀ {vs : List Byte}, OutHolds s vs → s.out.readFrom 0 s.outLen.toNat = .ok vs := by
    rintro vs ⟨hl, hg⟩
    exact Memory.readFrom_ok_iff.2 ⟨hl.symm, by simpa [hl] using hg⟩
  exact Except.ok.inj ((hread h').symm.trans (hread h))

/-- BPACK that ends in DONE has packed the codes of its input. -/
theorem exec_bpack_done (h : exec .bpack s = .next t) (hd : t.state = .done) : ∃ tbl bytes, CodeHolds s tbl ∧
    InHolds s bytes ∧ 2 + (encoded tbl bytes).length / 8 ≤ s.cfg.maxOut ∧ t = bpackDone s (encoded tbl bytes) := by
  obtain ⟨_, u, hi, hb, rfl⟩ := exec_done h hd
  cases hi
  obtain ⟨tbl, bytes, b, ht, hin, hscan, hm, rfl⟩ := bodyBpack_ok_iff.1 hb
  obtain ⟨-, rfl⟩ := encodeSymbols_ok_iff.1 hscan
  rw [bpack_size, Nat.not_lt] at hm
  refine ⟨tbl, bytes, (loadCode_ok_iff.1 ht).1, readIn_ok_iff.1 hin, hm, ?_⟩
  rw [bpack_size, bpackDone, deliver, packBuffer_length]
  rfl

/-- A packed buffer is legal and unpacks to the bits that were packed (R196). -/
theorem packBuffer_unpacksTo (b : BitString) : UnpacksTo (packBuffer b) b :=
  (unpacksTo_iff (List.cons_ne_nil _ _)).2 (unpackBuffer_packBuffer b)

/-- Settles O34: OUT holds the packed codes of BPACK's own table and input, and unpacking inverts packing. -/
theorem bunpkInvertsBpack : Obligations.BunpkInvertsBpack := by
  intro s t u tbl bytes outb hs hu htbl hin h hd hout hi
  obtain ⟨tbl', bytes', htbl', hin', hm, rfl⟩ := exec_bpack_done h hd
  obtain rfl := codeHolds_unique htbl htbl'
  obtain rfl := inHolds_unique hin hin'
  obtain rfl := outHolds_unique (bpackDone_outHolds hs hm) hout
  exact bunpk_holds_of_unpacksTo hu hi (packBuffer_unpacksTo _)

end Sys2Proof.Machine
end

section
/-! PROOFS. The Huffman decoder: HDEC decodes codes (O35) and leaf paths (O37), reports what is left over and a symbol
too many (O36, O38), decodes the empty string (O39) and does the same by both strategies (O40); HDCMP is BUNPK and then
HDEC (O43), so it decodes a buffer (O41, O42). -/

namespace Sys2Proof.Machine

variable {s t u : State} {tbl : List BitString} {links : List Link} {bytes syms : List Byte} {bits : BitString}
  {e : Error} {info : Word}

/-! ## The sources of a decoding -/

/-- A valid tree meets items 1 to 5 of WF_TREE (R24). -/
theorem goodTree_of_hasTree (h : HasTree s links) : GoodTree links s.root.toNat :=
  have ⟨_, _, hshape⟩ := h
  treeShape_iff.1 hshape

theorem loadTree_of_hasTree (h : HasTree s links) : loadTree s = .ok links := loadTree_ok_iff.2 h.2

theorem codeShape_of_hasTable (h : HasTable s tbl) : codeShape tbl = true :=
  have ⟨_, _, hshape⟩ := h
  hshape

theorem pbHolds_of_hasBits (h : HasBits s bits) : PbHolds s bits :=
  have ⟨_, hholds, _⟩ := h
  hholds

/-! ## The two strategies (R205, R206, R211, R212) -/

/-- A decoding strategy: by the code table or by the tree. -/
inductive Strategy where
  | table | tree

namespace Strategy

/-- HDEC.x. -/
def hdec : Strategy → Instr
  | .table => .hdecT
  | .tree => .hdecR

/-- HDCMP.x. -/
def hdcmp : Strategy → Instr
  | .table => .hdcmpT
  | .tree => .hdcmpR

/-- The store the strategy decodes by. -/
def source : Strategy → DerivedStore
  | .table => .code
  | .tree => .tree

/-- The body of HDEC.x. -/
def hdecBody : Strategy → State → Except Stop State
  | .table => bodyHdecT
  | .tree => bodyHdecR

/-- The body of HDCMP.x. -/
def hdcmpBody : Strategy → State → Except Stop State
  | .table => bodyHdcmpT
  | .tree => bodyHdcmpR

/-- The symbols the strategy makes of PBITS, before OUT is written. -/
def decoded : Strategy → State → Except Stop (List Byte)
  | .table, s => do
    let tbl ← loadCode s
    let bits ← readBits s
    decodeByTable tbl s.cfg.maxOut bits
  | .tree, s => do
    let links ← loadTree s
    let bits ← readBits s
    decodeByTree links s.root.toNat s.cfg.maxOut bits

/-- HDEC.x passes its checks, and its strategy makes `r` of PBITS. -/
def DecodesTo (x : Strategy) (s : State) (r : Except Stop (List Byte)) : Prop :=
  precheck x.hdec s = none ∧ x.decoded s = r

/-- A check of HDEC.x or its strategy raises an error. -/
def Raises (x : Strategy) (s : State) (e : Error) (info : Word) : Prop :=
  precheck x.hdec s = some (e, info) ∨ x.DecodesTo s (.error (.raise e info))

variable {x : Strategy}

theorem exec_hdec (x : Strategy) (s : State) : exec x.hdec s = runCommand x.hdec x.hdecBody s := by
  cases x <;> rfl

theorem exec_hdcmp (x : Strategy) (s : State) : exec x.hdcmp s = runCommand x.hdcmp x.hdcmpBody s := by
  cases x <;> rfl

theorem hdec_opcode (x : Strategy) : x.hdec.opcode = 0x15 := by cases x <;> rfl

theorem hdcmp_opcode (x : Strategy) : x.hdcmp.opcode = 0x21 := by cases x <;> rfl

theorem dests_hdec (x : Strategy) : dests x.hdec = [.out] := by cases x <;> rfl

theorem dests_hdcmp (x : Strategy) : dests x.hdcmp = [.pbits, .out] := by cases x <;> rfl

theorem needs_hdec (x : Strategy) : needs x.hdec = [.pbits, x.source] := by cases x <;> rfl

theorem needs_hdcmp (x : Strategy) : needs x.hdcmp = [x.source] := by cases x <;> rfl

/-- HDEC.x delivers what its strategy decodes. -/
theorem hdecBody_eq (x : Strategy) (s : State) : x.hdecBody s = deliver s <$> x.decoded s := by
  cases x with
  | table => simp only [hdecBody, bodyHdecT, decoded, map_bind, bind_pure_comp]
  | tree => simp only [hdecBody, bodyHdecR, decoded, map_bind, bind_pure_comp]

/-- LASTOP is not read, so HDEC.x ends its body as its strategy does. -/
theorem hdecBody_of_decoded {r : Except Stop (List Byte)} (h : x.decoded s = r) (b : BitVec 8) :
    x.hdecBody { s with lastop := b } = deliver { s with lastop := b } <$> r := by
  rw [hdecBody_eq, ← h]
  cases x <;> rfl

end Strategy

/-! ## How HDEC ends (R250 to R252) -/

/-- The state HDEC leaves after decoding PBITS to `syms`. -/
def hdecDone (s : State) (syms : List Byte) : State :=
  { deliver s syms with
    valid := { s.valid with out := true }, state := .done, ecode := none, errinfo := 0, lastop := 0x15 }

namespace Strategy

variable {x : Strategy}

theorem exec_hdec_of_decodesTo (h : x.DecodesTo s (.ok syms)) : exec x.hdec s = .next (hdecDone s syms) := by
  obtain ⟨hp, hd⟩ := h
  rw [exec_hdec, runCommand_of_ok hp (hdecBody_of_decoded hd _), dests_hdec, hdec_opcode]
  rfl

theorem exec_hdec_of_raises (h : x.Raises s e info) :
    exec x.hdec s = .next (fail [.out] e info { s with lastop := 0x15 }) := by
  rw [exec_hdec, ← hdec_opcode x, ← dests_hdec x]
  obtain hp | ⟨hp, hd⟩ := h
  · exact runCommand_of_precheck hp
  · exact runCommand_of_raise hp (hdecBody_of_decoded hd _)

theorem hdec_fails (h : x.DecodesTo s (.error (.raise e info))) : FailsWith (exec x.hdec s) e info :=
  ⟨_, exec_hdec_of_raises (.inr h), rfl, rfl, rfl⟩

/-- When HDEC.x answers, an error was raised, or PBITS was decoded. -/
theorem exec_hdec_cases (h : exec x.hdec s = .next u) :
    (∃ e info, x.Raises s e info ∧ u = fail [.out] e info { s with lastop := 0x15 }) ∨
      ∃ syms, x.DecodesTo s (.ok syms) ∧ u = hdecDone s syms := by
  have hraise : ∀ {e info}, x.Raises s e info → u = fail [.out] e info { s with lastop := 0x15 } := fun hr =>
    Host.Outcome.next.inj (h.symm.trans (exec_hdec_of_raises hr))
  cases hp : precheck x.hdec s with
  | some p => exact .inl ⟨p.1, p.2, .inl hp, hraise (.inl hp)⟩
  | none =>
    cases hd : x.decoded s with
    | ok syms =>
      have hk : x.DecodesTo s (.ok syms) := ⟨hp, hd⟩
      exact .inr ⟨syms, hk, Host.Outcome.next.inj (h.symm.trans (exec_hdec_of_decodesTo hk))⟩
    | error stop =>
      have hbody := hdecBody_of_decoded hd x.hdec.opcode
      cases stop with
      | raise e info => exact .inl ⟨e, info, .inr ⟨hp, hd⟩, hraise (.inr ⟨hp, hd⟩)⟩
      | fault f => rw [exec_hdec, runCommand_of_fault hp hbody] at h; cases h
      | refuse r => rw [exec_hdec, runCommand_of_refuse hp hbody] at h; cases h

/-! ## What the strategies decode -/

theorem precheck_hdec (hv : s.valid.get x.source = true) (hb : HasBits s bits) : precheck x.hdec s = none := by
  obtain ⟨hvalid, ⟨hlen, -⟩, hcap⟩ := hb
  have hneeds : ∀ y ∈ needs x.hdec, s.valid.get y = true := by
    have hp : s.valid.get .pbits = true := hvalid
    simp [needs_hdec, hp, hv]
  have hin : readsIn x.hdec = false := by cases x <;> rfl
  exact precheck_none_iff.2 ⟨missing_of_valid hneeds, by simp [hin], fun _ => hlen.trans_le hcap⟩

theorem decoded_of_table (ht : HasTable s tbl) (hb : PbHolds s bits) :
    table.decoded s = decodeByTable tbl s.cfg.maxOut bits := by
  simp only [decoded, loadCode_of_hasTable ht, readBits_ok_iff.2 hb, bind, Except.bind]

theorem decoded_of_tree (ht : HasTree s links) (hb : PbHolds s bits) :
    tree.decoded s = decodeByTree links s.root.toNat s.cfg.maxOut bits := by
  simp only [decoded, loadTree_of_hasTree ht, readBits_ok_iff.2 hb, bind, Except.bind]

theorem decodesTo_of_table (ht : HasTable s tbl) (hb : HasBits s bits) :
    table.DecodesTo s (decodeByTable tbl s.cfg.maxOut bits) :=
  ⟨precheck_hdec ht.1 hb, decoded_of_table ht (pbHolds_of_hasBits hb)⟩

theorem decodesTo_of_tree (ht : HasTree s links) (hb : HasBits s bits) :
    tree.DecodesTo s (decodeByTree links s.root.toNat s.cfg.maxOut bits) :=
  ⟨precheck_hdec ht.1 hb, decoded_of_tree ht (pbHolds_of_hasBits hb)⟩

end Strategy

/-- A whole number of codes leaves nothing over (R205). -/
theorem decodeByTable_codes (hs : codeShape tbl = true) {m : Nat} (ha : AllCoded tbl syms) (hm : syms.length ≤ m) :
    decodeByTable tbl m (encoded tbl syms) = .ok syms := by
  simpa using decodeByTable_encoded hs (rest := []) ha hm fun x hx hp => hx (List.prefix_nil.1 hp)

/-- A whole number of leaf paths leaves nothing over (R206, R207). -/
theorem GoodTree.decodeByTree_leaves {root m : Nat} (g : GoodTree links root) {parts : List (BitString × Byte)}
    (h : ∀ p ∈ parts, isTreeCode links root p.1 p.2) (hm : parts.length ≤ m) :
    decodeByTree links root m (parts.flatMap Prod.fst) = .ok (parts.map Prod.snd) := by
  simpa using g.decodeByTree_paths (rest := []) h hm fun c x hc hp => treeCode_ne_nil hc (List.prefix_nil.1 hp)

/-- HDEC.T has its sources, which decode to a sequence that fits OUT. -/
theorem Strategy.decodesTo_codes (ht : HasTable s tbl) (hb : HasBits s (encoded tbl syms)) (ha : AllCoded tbl syms)
    (hm : syms.length ≤ s.cfg.maxOut) : table.DecodesTo s (.ok syms) :=
  decodeByTable_codes (codeShape_of_hasTable ht) ha hm ▸ decodesTo_of_table ht hb

/-- HDEC.R has its sources, which decode to a sequence that fits OUT. -/
theorem Strategy.decodesTo_leaves {parts : List (BitString × Byte)} (ht : HasTree s links)
    (hb : HasBits s (parts.flatMap Prod.fst)) (hp : ∀ p ∈ parts, isTreeCode links s.root.toNat p.1 p.2)
    (hm : parts.length ≤ s.cfg.maxOut) : tree.DecodesTo s (.ok (parts.map Prod.snd)) :=
  (goodTree_of_hasTree ht).decodeByTree_leaves hp hm ▸ decodesTo_of_tree ht hb

/-! ## HDEC (R205 to R214) -/

theorem deliver_get_beyond (s : State) {vs : List Byte} {k : Nat} (hk : vs.length ≤ k) :
    (deliver s vs).out.get k = s.out.get k :=
  (Memory.get_overwrite ..).trans (if_neg (Nat.not_lt.2 hk))

/-- A sequence that fits OUT is what OUT holds after HDEC. -/
theorem hdecDone_outHolds (hc : s.cfg.wf) (hm : syms.length ≤ s.cfg.maxOut) : OutHolds (hdecDone s syms) syms := by
  obtain ⟨-, -, hout, -⟩ := hc
  exact deliver_outHolds (s := s) (Nat.lt_of_le_of_lt hm hout)

/-- Settles O35: the table decodes the codes to their symbols, which HDEC.T delivers. -/
theorem hdecTDecodesCodes : Obligations.HdecTDecodesCodes := by
  intro s tbl syms hc ht hb ha hm
  exact ⟨hdecDone s syms, Strategy.exec_hdec_of_decodesTo (Strategy.decodesTo_codes ht hb ha hm),
    hdecDone_outHolds hc hm, fun _ => deliver_get_beyond s, rfl⟩

/-- Settles O36: what follows the codes is collected to the end and reported from its first bit, and a symbol too many
is reported before it. -/
theorem hdecTReportsTheIncompleteCode : Obligations.HdecTReportsTheIncompleteCode := by
  intro s tbl syms rest ht hb ha
  have hd := Strategy.decodesTo_of_table ht hb
  refine ⟨fun hm hne hr => ?_, fun hm => ?_⟩
  · rw [decodeByTable_encoded (codeShape_of_hasTable ht) ha hm hr, if_neg hne] at hd
    exact Strategy.hdec_fails hd
  · rw [decodeByTable_overflow (codeShape_of_hasTable ht) ha hm] at hd
    exact Strategy.hdec_fails hd

/-- Settles O37: the tree decodes the paths to their leaves' symbols, which HDEC.R delivers. -/
theorem hdecRDecodesLeafPaths : Obligations.HdecRDecodesLeafPaths := by
  intro s links parts hc ht hb hp hm
  have hd := Strategy.decodesTo_leaves ht hb hp hm
  rw [← List.length_map Prod.snd] at hm ⊢
  exact ⟨hdecDone s (parts.map Prod.snd), Strategy.exec_hdec_of_decodesTo hd, hdecDone_outHolds hc hm,
    fun _ => deliver_get_beyond s, rfl⟩

/-- Settles O38: the tree strategy stops where the table derived from the tree would. -/
theorem hdecRReportsTheIncompletePath : Obligations.HdecRReportsTheIncompletePath := by
  intro s links parts rest ht hb hp
  have g := goodTree_of_hasTree ht
  have hd := Strategy.decodesTo_of_tree ht hb
  refine ⟨fun hm hne hr => ?_, fun hm => ?_⟩
  · rw [g.decodeByTree_paths hp hm hr, if_neg hne] at hd
    exact Strategy.hdec_fails hd
  · rw [g.decodeByTree_overflow hp hm] at hd
    exact Strategy.hdec_fails hd

theorem hasBits_nil (hv : s.valid.pbits = true) (h : s.pbLen = 0) : HasBits s [] :=
  ⟨hv, ⟨by rw [h]; rfl, nofun⟩, Nat.zero_le _⟩

/-- Settles O39: no bits are the codes of no symbols, and the paths to no leaves. -/
theorem hdecOfEmptyBits : Obligations.HdecOfEmptyBits := by
  refine ⟨fun s tbl ht hv h0 => ?_, fun s links ht hv h0 => ?_⟩
  · have hd := Strategy.decodesTo_codes (syms := []) ht (hasBits_nil hv h0) nofun (Nat.zero_le _)
    exact ⟨hdecDone s [], Strategy.exec_hdec_of_decodesTo hd, rfl, rfl, rfl⟩
  · have hd := Strategy.decodesTo_leaves (parts := []) ht (hasBits_nil hv h0) nofun (Nat.zero_le _)
    exact ⟨hdecDone s [], Strategy.exec_hdec_of_decodesTo hd, rfl, rfl, rfl⟩

/-! ## Both strategies (R208) -/

/-- Decoding by a table ends with symbols or an error, never with a stop of the model. -/
theorem decodeTableLoop_answers {m j : Nat} {p bs : BitString} {out : List Byte} :
    (∃ syms, decodeTableLoop tbl m j p out bs = .ok syms) ∨
      ∃ e info, decodeTableLoop tbl m j p out bs = .error (.raise e info) := by
  induction bs generalizing j p out with
  | nil =>
    rw [decodeTableLoop]
    split
    · exact .inl ⟨_, rfl⟩
    · exact .inr ⟨_, _, rfl⟩
  | cons b bs ih =>
    rw [decodeTableLoop]
    split
    · split
      · exact .inr ⟨_, _, rfl⟩
      · exact ih
    · exact ih

/-- With a valid table HDEC.T answers on every content of PBITS, one above capacity too. -/
theorem exec_hdecT_answers (ht : HasTable s tbl) (hb : PbHolds s bits) : ∃ t, exec .hdecT s = .next t := by
  cases hp : precheck .hdecT s with
  | some p => exact ⟨_, Strategy.exec_hdec_of_raises (x := .table) (.inl hp)⟩
  | none =>
    have hd := Strategy.decoded_of_table ht hb
    obtain ⟨syms, h⟩ | ⟨e, info, h⟩ := decodeTableLoop_answers (tbl := tbl) (m := s.cfg.maxOut) (j := 0) (p := [])
      (out := []) (bs := bits)
    · exact ⟨_, Strategy.exec_hdec_of_decodesTo (x := .table) ⟨hp, hd.trans h⟩⟩
    · exact ⟨_, Strategy.exec_hdec_of_raises (x := .table) (.inr ⟨hp, hd.trans h⟩)⟩

/-- With their sources valid both strategies lack PBITS or nothing. -/
theorem missing_hdec {v : Valid} (hc : v.code = true) (ht : v.tree = true) : missing .hdecT v = missing .hdecR v := by
  obtain ⟨f, r, c, p, o⟩ := v
  obtain rfl : c = true := hc
  obtain rfl : r = true := ht
  revert f p o
  decide

/-- Strategies whose checks and symbols are the same answer with the same state. -/
theorem Strategy.exec_hdec_congr {x y : Strategy} (hp : precheck x.hdec s = precheck y.hdec s)
    (hd : x.decoded s = y.decoded s) (h : exec x.hdec s = .next t) : exec y.hdec s = .next t := by
  obtain ⟨e, info, hr, rfl⟩ | ⟨syms, hk, rfl⟩ := exec_hdec_cases h
  · exact exec_hdec_of_raises (by rwa [Raises, DecodesTo, ← hp, ← hd])
  · exact exec_hdec_of_decodesTo (by rwa [DecodesTo, ← hp, ← hd])

/-- HDEC.R answers as HDEC.T when the table is the one derived from the tree. -/
theorem exec_hdecR_of_hdecT (hc : HasTable s (codeTable links s.root.toNat)) (ht : HasTree s links)
    (hb : PbHolds s bits) (h : exec .hdecT s = .next t) : exec .hdecR s = .next t := by
  have hpre : precheck .hdecT s = precheck .hdecR s := by
    simp only [precheck, missing_hdec hc.1 ht.1, readsIn, readsPbits]
  have hdec : Strategy.table.decoded s = Strategy.tree.decoded s := by
    rw [Strategy.decoded_of_table hc hb, Strategy.decoded_of_tree ht hb]
    exact (goodTree_of_hasTree ht).strategies_agree s.cfg.maxOut bits
  exact Strategy.exec_hdec_congr (x := .table) (y := .tree) hpre hdec h

theorem valid_of_missing {i : Instr} {v : Valid} (h : missing i v = 0) {x : DerivedStore} (hx : x ∈ needs i) :
    v.get x = true := by
  have hbit : (missing i v).getLsbD (statusBit x) = false := by rw [h]; exact BitVec.getLsbD_zero
  have hlt : statusBit x < 32 := by cases x <;> decide
  have hany : (needs i).any (fun y => statusBit y == statusBit x) = true :=
    List.any_eq_true.2 ⟨x, hx, beq_self_eq_true _⟩
  rw [missing, BitVec.getLsbD_and, validBitMask_getLsbD, hany, BitVec.getLsbD_not, Valid.word_getLsbD_statusBit] at hbit
  simpa [hlt] using hbit

/-- A command in DONE found its derived sources valid (R250). -/
theorem valid_of_exec_done {i : Instr} (h : exec i s = .next t) (hd : t.state = .done) {x : DerivedStore}
    (hx : x ∈ needs i) : s.valid.get x = true := by
  obtain rfl | ⟨e, info, rfl⟩ | ⟨hp, -⟩ := exec_cases h
  · cases h; cases hd
  · cases hd
  · exact valid_of_missing (precheck_none_iff.1 hp).1 hx

/-- Settles O40: CGEN in DONE left the table of the tree it read, which still stands in TREE. -/
theorem strategiesAgree : Obligations.StrategiesAgree := by
  intro s0 s bits _ h hd hb
  have hv : s0.valid.get .tree = true := valid_of_exec_done h hd (by decide)
  obtain ⟨links, hholds, g, rfl⟩ := exec_cgen_done h hd
  have hc : HasTable (cgenDone s0 links) (codeTable links s0.root.toNat) :=
    ⟨rfl, cgenDone_codeHolds g, g.codeTable_shape⟩
  have ht : HasTree (cgenDone s0 links) links := ⟨hv, hholds, treeShape_iff.2 g⟩
  obtain ⟨t, hT⟩ := exec_hdecT_answers hc hb
  exact ⟨t, t, hT, exec_hdecR_of_hdecT hc ht hb hT, rfl, rfl, rfl, rfl, fun _ _ => rfl⟩

/-! ## HDCMP is BUNPK and then HDEC (R211, R212, R216) -/

/-- The stores after BUNPK's body has unpacked `bits`. -/
def unpacked (s : State) (bits : BitString) : State :=
  { s with
    pbits := Memory.from 0 (pbitsBytes bits (Config.freeByte s.freeCtr)), pbLen := BitVec.ofNat 32 bits.length,
    freeCtr := s.freeCtr + 1 }

theorem bodyBunpk_of_unpacksTo (hi : HasInput s bytes) (hu : UnpacksTo bytes bits) :
    bodyBunpk s = .ok (unpacked s bits) :=
  have hne := ne_nil_of_unpacksTo hu
  bodyBunpk_ok_iff.2 ⟨inLen_ne_zero_of_hasInput hi hne, bytes, bits, readIn_of_hasInput hi,
    (unpacksTo_iff hne).1 hu, rfl⟩

/-- BUNPK in DONE has unpacked a legal buffer. -/
theorem exec_bunpk_done (h : exec .bunpk s = .next t) (hd : t.state = .done) :
    ∃ bytes bits, HasInput s bytes ∧ UnpacksTo bytes bits ∧ t = bunpkDone s bits := by
  obtain ⟨e, info, -, rfl⟩ | ⟨-, e, info, -, rfl⟩ | ⟨hp, u, hb, rfl⟩ := runCommand_cases (i := .bunpk) h
  · cases hd
  · cases hd
  · obtain ⟨-, hread, -⟩ := precheck_none_iff.1 hp
    obtain ⟨hne, bytes, bits, hr, hu, rfl⟩ := bodyBunpk_ok_iff.1 hb
    have hin : InHolds s bytes := readIn_ok_iff.1 hr
    have hcap : s.inLen.toNat ≤ s.cfg.maxIn := hread rfl
    have hbytes : bytes ≠ [] := by
      rintro rfl
      exact hne (BitVec.eq_of_toNat_eq hin.1)
    exact ⟨bytes, bits, ⟨hin, hin.1.symm.trans_le hcap⟩, (unpacksTo_iff hbytes).2 hu, rfl⟩

/-- The body of BUNPK does not read LASTOP. -/
theorem bodyBunpk_setLastop (s : State) (b : BitVec 8) :
    bodyBunpk { s with lastop := b } = (fun u => { u with lastop := b }) <$> bodyBunpk s := by
  unfold bodyBunpk
  split
  · rfl
  · simp only [map_bind, map_pure]
    rfl

/-- With its lengths within capacity a command can only lack a source (R250). -/
theorem precheck_of_lengths {i : Instr} (hin : readsIn i = true → s.inLen.toNat ≤ s.cfg.maxIn)
    (hpb : readsPbits i = true → s.pbLen.toNat ≤ s.cfg.maxPb) :
    precheck i s = if missing i s.valid ≠ 0 then some (.sequence, missing i s.valid) else none := by
  have h1 : ¬ (readsIn i = true ∧ s.cfg.maxIn < s.inLen.toNat) := fun h => Nat.not_lt.2 (hin h.1) h.2
  have h2 : ¬ (readsPbits i = true ∧ s.cfg.maxPb < s.pbLen.toNat) := fun h => Nat.not_lt.2 (hpb h.1) h.2
  rw [precheck, if_neg h1, if_neg h2]

namespace Strategy

variable {x : Strategy}

/-- HDCMP.x has the sources of HDEC.x but for PBITS, which BUNPK makes. -/
theorem missing_hdcmp (x : Strategy) (v : Valid) : missing x.hdcmp v = missing x.hdec { v with pbits := true } := by
  obtain ⟨f, r, c, p, o⟩ := v
  cases x <;> revert f r c p o <;> decide

/-- After BUNPK of a buffer within capacity PBITS is within capacity, so HDEC.x is checked as HDCMP.x is. -/
theorem precheck_hdcmp (hi : HasInput s bytes) (hu : UnpacksTo bytes bits) :
    precheck x.hdcmp s = precheck x.hdec (bunpkDone s bits) := by
  have hcap : (bunpkDone s bits).pbLen.toNat ≤ s.cfg.maxPb :=
    calc (bunpkDone s bits).pbLen.toNat ≤ bits.length := Nat.mod_le _ _
      _ ≤ 8 * bytes.length := length_le_of_unpacksTo hu
      _ ≤ 8 * s.cfg.maxIn := Nat.mul_le_mul_left 8 hi.2
  have hpb : readsPbits x.hdcmp = false := by cases x <;> rfl
  have hin : readsIn x.hdec = false := by cases x <;> rfl
  rw [precheck_of_lengths (fun _ => inLen_le_of_hasInput hi) (by simp [hpb]),
    precheck_of_lengths (by simp [hin]) (fun _ => hcap), missing_hdcmp]
  rfl

/-- After a successful BUNPK stage HDCMP.x decodes what is now in PBITS, by the source it had before. -/
theorem hdcmpBody_of_bunpk (h : bodyBunpk s = .ok u) : x.hdcmpBody s = x.hdecBody u := by
  have hf := bodyBunpk_frame h
  cases x with
  | table =>
    have hload : loadCode u = loadCode s := by rw [loadCode, loadCode, hf.code (by decide)]
    cases hl : loadCode u <;> simp [hdcmpBody, hdecBody, bodyHdcmpT, bodyHdecT, bind, Except.bind, ← hload, hl, h]
  | tree =>
    have hload : loadTree u = loadTree s := by
      obtain ⟨ht, hr, hn⟩ := hf.tree (by decide)
      rw [loadTree, loadTree, ht, hr, hn]
    cases hl : loadTree u <;> simp [hdcmpBody, hdecBody, bodyHdcmpR, bodyHdecR, bind, Except.bind, ← hload, hl, h]

theorem hdcmpBody_of_decoded {r : Except Stop (List Byte)} (hi : HasInput s bytes) (hu : UnpacksTo bytes bits)
    (h : x.decoded (bunpkDone s bits) = r) (b : BitVec 8) :
    x.hdcmpBody { s with lastop := b } = deliver (unpacked { s with lastop := b } bits) <$> r := by
  rw [hdcmpBody_of_bunpk (bodyBunpk_of_unpacksTo (s := { s with lastop := b }) hi hu), hdecBody_eq, ← h]
  cases x <;> rfl

theorem exec_hdcmp_of_decodesTo (hi : HasInput s bytes) (hu : UnpacksTo bytes bits)
    (h : x.DecodesTo (bunpkDone s bits) (.ok syms)) :
    exec x.hdcmp s = .next { hdecDone (bunpkDone s bits) syms with lastop := 0x21 } := by
  obtain ⟨hp, hd⟩ := h
  rw [← precheck_hdcmp hi hu] at hp
  rw [exec_hdcmp, runCommand_of_ok hp (hdcmpBody_of_decoded hi hu hd _), dests_hdcmp, hdcmp_opcode]
  rfl

theorem exec_hdcmp_of_raises (hi : HasInput s bytes) (hu : UnpacksTo bytes bits)
    (h : x.Raises (bunpkDone s bits) e info) :
    exec x.hdcmp s = .next (fail [.pbits, .out] e info { s with lastop := 0x21 }) := by
  rw [exec_hdcmp, ← hdcmp_opcode x, ← dests_hdcmp x]
  rw [Raises, DecodesTo, ← precheck_hdcmp hi hu] at h
  obtain hp | ⟨hp, hd⟩ := h
  · exact runCommand_of_precheck hp
  · exact runCommand_of_raise hp (hdcmpBody_of_decoded hi hu hd _)

/-- A valid, well-formed store to decode by. -/
def HasSource : Strategy → State → Prop
  | .table, s => ∃ tbl, HasTable s tbl
  | .tree, s => ∃ links, HasTree s links

theorem HasSource.valid (h : x.HasSource s) : s.valid.get x.source = true := by
  cases x with
  | table => obtain ⟨_, hv, -⟩ := h; exact hv
  | tree => obtain ⟨_, hv, -⟩ := h; exact hv

/-- With its source HDCMP.x fails in its BUNPK stage as BUNPK does. -/
theorem hdcmpBody_of_bunpk_error {stop : Stop} (hs : x.HasSource s) (h : bodyBunpk s = .error stop) :
    x.hdcmpBody s = .error stop := by
  cases x with
  | table =>
    obtain ⟨tbl, ht⟩ := hs
    simp [hdcmpBody, bodyHdcmpT, loadCode_of_hasTable ht, h, bind, Except.bind]
  | tree =>
    obtain ⟨links, ht⟩ := hs
    simp [hdcmpBody, bodyHdcmpR, loadTree_of_hasTree ht, h, bind, Except.bind]

/-- With its source HDCMP.x is checked as BUNPK is, by the length of IN only. -/
theorem precheck_hdcmp_of_source (hs : x.HasSource s) : precheck x.hdcmp s = precheck .bunpk s := by
  have hmissing : missing x.hdcmp s.valid = 0 := missing_of_valid (by simp [needs_hdcmp, hs.valid])
  have hnone : missing .bunpk s.valid = 0 := BitVec.zero_and
  rw [precheck, precheck, hmissing, hnone]
  cases x <;> rfl

/-- When BUNPK fails, HDCMP.x fails with the same error. -/
theorem exec_hdcmp_of_bunpk_err (hs : x.HasSource s) (h : exec .bunpk s = .next t) (he : t.state = .err) :
    ∃ v, exec x.hdcmp s = .next v ∧ v.state = .err ∧ v.ecode = t.ecode ∧ v.errinfo = t.errinfo := by
  rw [exec_hdcmp]
  have hs' : x.HasSource { s with lastop := x.hdcmp.opcode } := by cases x <;> exact hs
  have hpre := precheck_hdcmp_of_source hs'
  obtain ⟨e, info, hp, rfl⟩ | ⟨hp, e, info, hb, rfl⟩ | ⟨-, u, -, rfl⟩ := runCommand_cases (i := .bunpk) h
  · exact ⟨_, runCommand_of_precheck (hpre.trans hp), rfl, rfl, rfl⟩
  · have hbunpk : bodyBunpk { s with lastop := x.hdcmp.opcode } = .error (.raise e info) := by
      have hset := bodyBunpk_setLastop { s with lastop := Instr.bunpk.opcode } x.hdcmp.opcode
      rwa [hb] at hset
    exact ⟨_, runCommand_of_raise (hpre.trans hp) (hdcmpBody_of_bunpk_error hs' hbunpk), rfl, rfl, rfl⟩
  · cases he

/-- HDCMP.x is BUNPK and then HDEC.x, whether HDEC.x succeeds or fails. -/
theorem exec_hdcmp_of_bunpk_done (h : exec .bunpk s = .next t) (hd : t.state = .done) (hu : exec x.hdec t = .next u) :
    (u.state = .done ∧ exec x.hdcmp s = .next { u with lastop := 0x21 }) ∨
      ∃ e info, u.state = .err ∧ u.ecode = some e ∧ u.errinfo = info ∧
        exec x.hdcmp s = .next (fail [.pbits, .out] e info { s with lastop := 0x21 }) := by
  obtain ⟨bytes, bits, hi, hun, rfl⟩ := exec_bunpk_done h hd
  obtain ⟨e, info, hr, rfl⟩ | ⟨syms, hk, rfl⟩ := exec_hdec_cases hu
  · exact .inr ⟨e, info, rfl, rfl, rfl, exec_hdcmp_of_raises hi hun hr⟩
  · exact .inl ⟨rfl, exec_hdcmp_of_decodesTo hi hun hk⟩

/-- R216 for one strategy. -/
theorem hdcmp_refines (x : Strategy) (hb : exec .bunpk s = .next t) :
    (t.state = .done → ∀ u, exec x.hdec t = .next u →
      (u.state = .done → ∃ v, exec x.hdcmp s = .next v ∧ v.state = .done ∧ v.pbits = u.pbits ∧ v.pbLen = u.pbLen ∧
        v.out = u.out ∧ v.outLen = u.outLen) ∧
      (u.state = .err → ∃ v, exec x.hdcmp s = .next v ∧ v.state = .err ∧ v.ecode = u.ecode ∧
        v.errinfo = u.errinfo ∧ v.valid.pbits = false)) ∧
    (t.state = .err → x.HasSource s →
      ∃ v, exec x.hdcmp s = .next v ∧ v.state = .err ∧ v.ecode = t.ecode ∧ v.errinfo = t.errinfo) := by
  refine ⟨fun hd u hu => ?_, fun he hs => exec_hdcmp_of_bunpk_err hs hb he⟩
  obtain ⟨hdone, hv⟩ | ⟨e, info, herr, hcode, hinfo, hv⟩ := exec_hdcmp_of_bunpk_done hb hd hu
  · exact ⟨fun _ => ⟨_, hv, hdone, rfl, rfl, rfl, rfl⟩, fun herr => absurd (hdone.symm.trans herr) nofun⟩
  · exact ⟨fun hdone => absurd (hdone.symm.trans herr) nofun, fun _ => ⟨_, hv, rfl, hcode.symm, hinfo.symm, rfl⟩⟩

end Strategy

/-- Settles O43: each pair of commands is one strategy's. -/
theorem hdcmpIsBunpkThenHdec : Obligations.HdcmpIsBunpkThenHdec := by
  intro d h s t _ hdh hb
  obtain ⟨rfl, rfl⟩ | ⟨rfl, rfl⟩ := hdh
  · refine (Strategy.table.hdcmp_refines hb).imp_right fun herr he hs => herr he ?_
    obtain ⟨tbl, -, ht⟩ | ⟨_, hn, -⟩ := hs
    · exact ⟨tbl, ht⟩
    · cases hn
  · refine (Strategy.tree.hdcmp_refines hb).imp_right fun herr he hs => herr he ?_
    obtain ⟨_, hn, -⟩ | ⟨links, -, ht⟩ := hs
    · cases hn
    · exact ⟨links, ht⟩

/-! ## Whole buffers (R211, R212) -/

theorem bunpkDone_hasBits (hc : s.cfg.wf) (hi : HasInput s bytes) (hu : UnpacksTo bytes bits) :
    HasBits (bunpkDone s bits) bits :=
  ⟨rfl, bunpkDone_pbHolds (length_lt_of_unpacksTo hc hi hu),
    (length_le_of_unpacksTo hu).trans (Nat.mul_le_mul_left 8 hi.2)⟩

/-- HDCMP.x of a buffer whose payload its strategy decodes to a sequence that fits OUT. -/
theorem Strategy.hdcmp_decodes {x : Strategy} (hc : s.cfg.wf) (hi : HasInput s bytes) (hu : UnpacksTo bytes bits)
    (h : x.DecodesTo (bunpkDone s bits) (.ok syms)) (hm : syms.length ≤ s.cfg.maxOut) :
    ∃ t, exec x.hdcmp s = .next t ∧ PbHolds t bits ∧ OutHolds t syms ∧
      (∀ k, syms.length ≤ k → t.out.get k = s.out.get k) ∧
      t = { s with
        pbits := t.pbits, pbLen := t.pbLen, freeCtr := t.freeCtr, out := t.out, outLen := t.outLen,
        valid := { s.valid with pbits := true, out := true },
        state := .done, ecode := none, errinfo := 0, lastop := 0x21 } :=
  ⟨_, exec_hdcmp_of_decodesTo hi hu h, pbHolds_of_hasBits (bunpkDone_hasBits hc hi hu),
    hdecDone_outHolds (s := bunpkDone s bits) hc hm, fun _ => deliver_get_beyond (bunpkDone s bits), rfl⟩

/-- Settles O41: the table decodes what BUNPK's stage leaves in PBITS. -/
theorem hdcmpTDecodesTheBuffer : Obligations.HdcmpTDecodesTheBuffer := by
  intro s tbl bytes syms hc ht hi hu ha hm
  have hd := Strategy.decodesTo_codes (s := bunpkDone s (encoded tbl syms)) ht (bunpkDone_hasBits hc hi hu) ha hm
  exact Strategy.hdcmp_decodes hc hi hu hd hm

/-- Settles O42: the tree decodes what BUNPK's stage leaves in PBITS. -/
theorem hdcmpRDecodesTheBuffer : Obligations.HdcmpRDecodesTheBuffer := by
  intro s links bytes parts hc ht hi hu hp hm
  have hd := Strategy.decodesTo_leaves (s := bunpkDone s (parts.flatMap Prod.fst)) ht (bunpkDone_hasBits hc hi hu) hp hm
  rw [← List.length_map Prod.snd] at hm ⊢
  exact Strategy.hdcmp_decodes hc hi hu hd hm

end Sys2Proof.Machine
end

section
/-! PROOFS. The encoder: HENC is FCNT, TBLD, CGEN and BPACK in sequence (O45), compresses every input of at least one
byte (O44), reports the empty one (O46), and what it wrote decompresses to its input (O47). -/

namespace Sys2Proof.Machine

variable {s t : State} {bytes : List Byte} {e : Error} {info : Word}

/-! ## The tree and the table of an input (R140, R160) -/

theorem getD_countSymbols (bytes : List Byte) (x : Byte) : (countSymbols bytes).getD x.toNat 0 = bytes.count x := by
  simp [countSymbols_eq, x.isLt]

theorem mem_presentSymbols_of_mem {x : Byte} (h : x ∈ bytes) : x.toNat ∈ presentSymbols (countSymbols bytes) :=
  mem_presentSymbols.2 ⟨x.isLt, (getD_countSymbols bytes x).symm ▸ List.count_pos_iff.2 h⟩

theorem presentSymbols_countSymbols_ne_nil (h : bytes ≠ []) : presentSymbols (countSymbols bytes) ≠ [] := by
  obtain ⟨x, hx⟩ := List.exists_mem_of_ne_nil bytes h
  exact List.ne_nil_of_mem (mem_presentSymbols_of_mem hx)

theorem presentSymbols_countSymbols_nil : presentSymbols (countSymbols []) = [] :=
  presentSymbols_of_zero fun _ hn => Nat.le_zero.1 (le_length_of_mem_countSymbols hn)

/-- The records of the tree TBLD builds from the counts of an input. -/
def inputLinks (bytes : List Byte) : List Link := (buildTree (countSymbols bytes)).1.map nodeLink

/-- The codes CGEN derives from that tree. -/
def inputTable (bytes : List Byte) : List BitString := codeTable (inputLinks bytes) (buildTree (countSymbols bytes)).2

/-- The code bits of an input under its own table. -/
def inputCode (bytes : List Byte) : BitString := encoded (inputTable bytes) bytes

/-- No count exceeds the length of an input in IN, so each fits a word of FREQ. -/
theorem inputLinks_good (hi : InHolds s bytes) (hne : bytes ≠ []) :
    GoodTree (inputLinks bytes) (buildTree (countSymbols bytes)).2 :=
  buildTree_good (countSymbols_length bytes) (freqHolds_lt (fcntDone_freqHolds hi))
    (presentSymbols_countSymbols_ne_nil hne)

/-- Every symbol of the input has a leaf in its tree, and so a code. -/
theorem inputTable_allCoded (hi : InHolds s bytes) (hne : bytes ≠ []) : AllCoded (inputTable bytes) bytes := by
  intro x hx
  obtain ⟨hleaves, -⟩ := buildTree_leafSyms (countSymbols_length bytes) (freqHolds_lt (fcntDone_freqHolds hi))
    (presentSymbols_countSymbols_ne_nil hne)
  refine (inputLinks_good hi hne).codeOf_ne_nil_iff.2 ?_
  rw [inputLinks, hleaves]
  exact List.mem_map.2 ⟨x.toNat, mem_presentSymbols_of_mem hx, by simp⟩

/-- The length of the codes of an input, counted symbol by symbol (R235). -/
theorem encoded_length_eq_sum (tbl : List BitString) (bytes : List Byte) : (encoded tbl bytes).length =
    ((List.range 256).map fun k =>
      bytes.count (BitVec.ofNat 8 k) * (codeOf tbl (BitVec.ofNat 8 k)).length).sum := by
  induction bytes with
  | nil =>
    simp only [encoded_nil, List.length_nil, List.count_nil, Nat.zero_mul, List.map_const', List.sum_replicate_nat,
      Nat.mul_zero]
  | cons x xs ih =>
    have hstep : ∀ k ∈ List.range 256, (x :: xs).count (BitVec.ofNat 8 k) * (codeOf tbl (BitVec.ofNat 8 k)).length =
        xs.count (BitVec.ofNat 8 k) * (codeOf tbl (BitVec.ofNat 8 k)).length +
          if k = x.toNat then (codeOf tbl x).length else 0 := by
      intro k hk
      have hx : x = BitVec.ofNat 8 k ↔ k = x.toNat := by
        rw [List.mem_range] at hk
        simp [← BitVec.toNat_inj, Nat.mod_eq_of_lt hk, eq_comm]
      by_cases h : k = x.toNat
      · rw [if_pos h, ← hx.2 h, List.count_cons_self, Nat.succ_mul]
      · rw [if_neg h, List.count_cons_of_ne (mt hx.1 h), Nat.add_zero]
    rw [List.map_congr_left hstep, sum_map_add, ← ih, sum_range_single, if_pos x.isLt, encoded_cons, List.length_append,
      Nat.add_comm]

/-! ## The stages of the encoder (R230) -/

/-- The state after FCNT, TBLD and CGEN of an input. -/
def coderReady (s : State) (bytes : List Byte) : State :=
  cgenDone (tbldDone (fcntDone s bytes) (countSymbols bytes)) (inputLinks bytes)

theorem tbld_hasTree_of_input (hi : InHolds s bytes) (hne : bytes ≠ []) :
    HasTree (tbldDone (fcntDone s bytes) (countSymbols bytes)) (inputLinks bytes) :=
  tbldDone_hasTree (fcntDone_freqHolds hi) (presentSymbols_countSymbols_ne_nil hne)

theorem tbld_root_of_input (hi : InHolds s bytes) (hne : bytes ≠ []) :
    (tbldDone (fcntDone s bytes) (countSymbols bytes)).root.toNat = (buildTree (countSymbols bytes)).2 :=
  tbldDone_root (fcntDone_freqHolds hi) (presentSymbols_countSymbols_ne_nil hne)

theorem coderReady_hasTree (hi : InHolds s bytes) (hne : bytes ≠ []) :
    HasTree (coderReady s bytes) (inputLinks bytes) :=
  tbld_hasTree_of_input hi hne

theorem coderReady_hasTable (hi : InHolds s bytes) (hne : bytes ≠ []) :
    HasTable (coderReady s bytes) (inputTable bytes) := by
  have g := inputLinks_good hi hne
  have hholds := cgenDone_codeHolds ((tbld_root_of_input hi hne).symm ▸ g)
  rw [tbld_root_of_input hi hne] at hholds
  exact ⟨rfl, hholds, g.codeTable_shape⟩

/-- `s` with what the first three stages of HENC write; the flags are those of `s`, for a stage writes none (R231). -/
def hencReady (s : State) (bytes : List Byte) : State :=
  { s with
    freq := (coderReady s bytes).freq, tree := (coderReady s bytes).tree, root := (coderReady s bytes).root,
    nnodes := (coderReady s bytes).nnodes, code := (coderReady s bytes).code }

/-- On an input of at least one byte the first three stages of HENC succeed. -/
theorem bodyHenc_eq_bodyBpack (hi : InHolds s bytes) (hne : bytes ≠ []) :
    bodyHenc s = bodyBpack (hencReady s bytes) := by
  obtain ⟨-, htree⟩ := tbld_hasTree_of_input hi hne
  have hfcnt : bodyFcnt s = .ok { s with freq := (fcntDone s bytes).freq } :=
    bodyFcnt_ok_iff.2 ⟨bytes, readIn_ok_iff.2 hi, rfl⟩
  have htbld : bodyTbld { s with freq := (fcntDone s bytes).freq } = .ok { hencReady s bytes with code := s.code } :=
    bodyTbld_ok_iff.2 ⟨_, readFreq_ok_iff.2 (fcntDone_freqHolds hi), presentSymbols_countSymbols_ne_nil hne, rfl⟩
  have hcgen : bodyCgen { hencReady s bytes with code := s.code } = .ok (hencReady s bytes) :=
    bodyCgen_ok_iff.2 ⟨_, loadTree_ok_iff.2 htree, rfl⟩
  simp only [bodyHenc, hfcnt, htbld, hcgen, bind, Except.bind]

theorem hencReady_loadCode (hi : InHolds s bytes) (hne : bytes ≠ []) :
    loadCode (hencReady s bytes) = .ok (inputTable bytes) := by
  obtain ⟨-, htable⟩ := coderReady_hasTable hi hne
  exact loadCode_ok_iff.2 htable

theorem encodeSymbols_inputTable (hi : InHolds s bytes) (hne : bytes ≠ []) :
    encodeSymbols (inputTable bytes) 0 bytes = .ok (inputCode bytes) :=
  encodeSymbols_ok_iff.2 ⟨inputTable_allCoded hi hne, rfl⟩

theorem bodyHenc_of_fit (hi : InHolds s bytes) (hne : bytes ≠ [])
    (hm : 2 + (inputCode bytes).length / 8 ≤ s.cfg.maxOut) :
    bodyHenc s = .ok (deliver (hencReady s bytes) (packBuffer (inputCode bytes))) := by
  rw [bodyHenc_eq_bodyBpack hi hne]
  refine bodyBpack_ok_iff.2 ⟨_, bytes, _, hencReady_loadCode hi hne, readIn_ok_iff.2 hi,
    encodeSymbols_inputTable hi hne, ?_, ?_⟩
  · rwa [bpack_size, Nat.not_lt]
  · rw [bpack_size, deliver, packBuffer_length]

theorem bodyHenc_of_overflow (hi : InHolds s bytes) (hne : bytes ≠ [])
    (hm : s.cfg.maxOut < 2 + (inputCode bytes).length / 8) : bodyHenc s = .error (.raise .capacity 1) := by
  rw [bodyHenc_eq_bodyBpack hi hne]
  refine bodyBpack_of_overflow (hencReady_loadCode hi hne) (readIn_ok_iff.2 hi) (encodeSymbols_inputTable hi hne) ?_
  rwa [bpack_size]

/-! ## How HENC ends (R231) -/

/-- The state after all four stages. -/
def hencDone (s : State) (bytes : List Byte) : State :=
  { bpackDone (coderReady s bytes) (inputCode bytes) with lastop := 0x20 }

theorem exec_henc_of_fit (hi : HasInput s bytes) (hne : bytes ≠ [])
    (hm : 2 + (inputCode bytes).length / 8 ≤ s.cfg.maxOut) :
    exec .henc s = .next (hencDone s bytes) :=
  runCommand_of_ok (i := .henc) (precheck_of_no_needs rfl (inLen_le_of_hasInput hi))
    (bodyHenc_of_fit (s := { s with lastop := 0x20 }) hi.1 hne hm)

/-- The state HENC leaves after an error. -/
def hencFailed (s : State) (e : Error) (info : Word) : State :=
  fail [.freq, .tree, .code, .out] e info { s with lastop := 0x20 }

theorem exec_henc_of_raise (hi : HasInput s bytes) (hb : bodyHenc { s with lastop := 0x20 } = .error (.raise e info)) :
    exec .henc s = .next (hencFailed s e info) :=
  runCommand_of_raise (i := .henc) (precheck_of_no_needs rfl (inLen_le_of_hasInput hi)) hb

/-- An input above MAX_IN stops HENC before its first stage, as it stops FCNT. -/
theorem exec_henc_of_overflow (h : s.cfg.maxIn < s.inLen.toNat) : exec .henc s = .next (hencFailed s .capacity 0) := by
  refine runCommand_of_precheck (i := .henc) ?_
  have hmissing : missing .henc s.valid = 0 := BitVec.zero_and
  rw [precheck, if_neg (not_not.2 hmissing), if_pos ⟨rfl, h⟩]

theorem exec_henc_of_no_input (h : HasInput s []) : exec .henc s = .next (hencFailed s .emptyInput 0) :=
  exec_henc_of_raise h (bodyHenc_of_no_input (s := { s with lastop := 0x20 }) h.1)

theorem exec_henc_of_output_overflow (hi : HasInput s bytes) (hne : bytes ≠ [])
    (hm : s.cfg.maxOut < 2 + (inputCode bytes).length / 8) : exec .henc s = .next (hencFailed s .capacity 1) :=
  exec_henc_of_raise hi (bodyHenc_of_overflow (s := { s with lastop := 0x20 }) hi.1 hne hm)

/-- HENC failed with the error of `t`, and all its destinations are invalid (R252). -/
theorem henc_failsLike (h : exec .henc s = .next (hencFailed s e info)) (he : t.ecode = some e)
    (hinfo : t.errinfo = info) : FailsLike (exec .henc s) t
      { s.valid with freq := false, tree := false, code := false, out := false } :=
  ⟨_, h, rfl, he.symm, hinfo.symm, rfl⟩

/-! ## The sequence of the four commands (R231) -/

/-- TBLD after FCNT of no bytes. -/
theorem exec_tbld_of_no_input (h : HasInput s []) :
    exec .tbld (fcntDone s []) = .next (fail [.tree] .emptyInput 0 { fcntDone s [] with lastop := 0x11 }) :=
  exec_tbld_of_no_symbol rfl (fcntDone_freqHolds h.1) presentSymbols_countSymbols_nil

theorem exec_tbld_of_input (hi : HasInput s bytes) (hne : bytes ≠ []) :
    exec .tbld (fcntDone s bytes) = .next (tbldDone (fcntDone s bytes) (countSymbols bytes)) :=
  exec_tbld_of_counts rfl (fcntDone_freqHolds hi.1) (presentSymbols_countSymbols_ne_nil hne)

theorem exec_bpack_of_input (hi : HasInput s bytes) (hne : bytes ≠ [])
    (hm : 2 + (inputCode bytes).length / 8 ≤ s.cfg.maxOut) :
    exec .bpack (coderReady s bytes) = .next (bpackDone (coderReady s bytes) (inputCode bytes)) :=
  exec_bpack_of_fit (coderReady_hasTable hi.1 hne) hi (inputTable_allCoded hi.1 hne) hm

theorem exec_bpack_of_input_overflow (hi : HasInput s bytes) (hne : bytes ≠ [])
    (hm : s.cfg.maxOut < 2 + (inputCode bytes).length / 8) : exec .bpack (coderReady s bytes) =
      .next (fail [.out] .capacity 1 { coderReady s bytes with lastop := 0x13 }) := by
  have ht := coderReady_hasTable hi.1 hne
  refine runCommand_of_raise (i := .bpack) (precheck_bpack (s := { coderReady s bytes with lastop := 0x13 }) ht hi)
    (bodyBpack_of_overflow (loadCode_of_hasTable (s := { coderReady s bytes with lastop := 0x13 }) ht)
      (readIn_ok_iff.2 hi.1) (encodeSymbols_inputTable hi.1 hne) ?_)
  rwa [bpack_size]

/-- Settles O45: each command of the sequence ends as the stage of HENC does, on the same contents. -/
theorem hencIsThePipeline : Obligations.HencIsThePipeline := by
  intro s a _ hfcnt
  obtain ⟨hcap, rfl⟩ | ⟨bytes, hi, rfl⟩ := exec_fcnt_cases hfcnt
  · exact ⟨fun _ => henc_failsLike (exec_henc_of_overflow hcap) rfl rfl, nofun⟩
  refine ⟨nofun, fun _ b htbld => ?_⟩
  by_cases hne : bytes = []
  · subst hne
    cases (exec_tbld_of_no_input hi).symm.trans htbld
    exact ⟨fun _ => ⟨rfl, henc_failsLike (exec_henc_of_no_input hi) rfl rfl⟩, nofun⟩
  cases (exec_tbld_of_input hi hne).symm.trans htbld
  refine ⟨nofun, fun _ => ⟨_, exec_cgen_of_tree (tbld_hasTree_of_input hi.1 hne), rfl, fun d hbpack => ?_⟩⟩
  obtain hm | hm := Nat.lt_or_ge s.cfg.maxOut (2 + (inputCode bytes).length / 8)
  · cases (exec_bpack_of_input_overflow hi hne hm).symm.trans hbpack
    exact ⟨fun _ => ⟨rfl, rfl, rfl, henc_failsLike (exec_henc_of_output_overflow hi hne hm) rfl rfl⟩, nofun⟩
  · cases (exec_bpack_of_input hi hne hm).symm.trans hbpack
    exact ⟨nofun, fun _ => exec_henc_of_fit hi hne hm⟩

/-! ## Compression (R230, R232, R235) -/

/-- The default MAX_OUT has room for MAX_IN codes of at most 255 bits (R232). -/
theorem inputCode_fits (hi : HasInput s bytes) (hne : bytes ≠ []) (hm : 32 * s.cfg.maxIn + 2 ≤ s.cfg.maxOut) :
    2 + (inputCode bytes).length / 8 ≤ s.cfg.maxOut := by
  obtain ⟨hin, hcap⟩ := hi
  have hlen : (inputCode bytes).length ≤ 255 * bytes.length :=
    encoded_length_le (fun x => ((inputLinks_good hin hne).codeOf_length x).1) bytes
  omega

theorem hencDone_outHolds (hc : s.cfg.wf) (hm : 2 + (inputCode bytes).length / 8 ≤ s.cfg.maxOut) :
    OutHolds (hencDone s bytes) (packBuffer (inputCode bytes)) :=
  bpackDone_outHolds (s := coderReady s bytes) hc hm

/-- Settles O44: FREQ, CODE and OUT are as FCNT, CGEN and BPACK leave them. -/
theorem hencCompresses : Obligations.HencCompresses := by
  intro s bytes hc hi hne hdefault
  have hm := inputCode_fits hi hne hdefault
  obtain ⟨-, hcode, hshape⟩ := coderReady_hasTable hi.1 hne
  refine ⟨hencDone s bytes, inputTable bytes, _, exec_henc_of_fit hi hne hm,
    countSymbols_eq bytes ▸ fcntDone_freqHolds hi.1, hcode, hshape, inputTable_allCoded hi.1 hne,
    hencDone_outHolds hc hm, bitsOf_packBuffer _, ?_, rfl⟩
  rw [packBuffer_length, inputCode, encoded_length_eq_sum]

/-! ## The round trip (R233) -/

/-- The code and the symbol of each byte of an input. -/
def inputPaths (bytes : List Byte) : List (BitString × Byte) := bytes.map fun x => (codeOf (inputTable bytes) x, x)

theorem inputPaths_bits (bytes : List Byte) : (inputPaths bytes).flatMap Prod.fst = inputCode bytes := by
  simp [inputPaths, inputCode, encoded, List.flatMap_map]

theorem inputPaths_symbols (bytes : List Byte) : (inputPaths bytes).map Prod.snd = bytes := by
  simp [inputPaths, Function.comp_def]

theorem inputPaths_length (bytes : List Byte) : (inputPaths bytes).length = bytes.length := List.length_map _

/-- The codes of an input are paths to the leaves of its symbols. -/
theorem inputPaths_isTreeCode (hi : InHolds s bytes) (hne : bytes ≠ []) : ∀ p ∈ inputPaths bytes,
    isTreeCode (inputLinks bytes) (tbldDone (fcntDone s bytes) (countSymbols bytes)).root.toNat p.1 p.2 := by
  intro p hp
  obtain ⟨x, hx, rfl⟩ := List.mem_map.1 hp
  rw [tbld_root_of_input hi hne]
  exact (inputLinks_good hi hne).isTreeCode_codeOf (inputTable_allCoded hi hne x hx)

/-- HENC, then its output in IN. -/
def hencCopied (s : State) (bytes : List Byte) (m : Memory 8) (n : Word) : State :=
  { hencDone s bytes with inp := m, inLen := n }

variable {m : Memory 8} {n : Word}

/-- The table HENC left in CODE decodes its output to its input. -/
theorem hdcmpT_of_hencCopied (hc : s.cfg.wf) (hi : InHolds s bytes) (hne : bytes ≠ [])
    (hcopy : HasInput (hencCopied s bytes m n) (packBuffer (inputCode bytes))) (hroom : bytes.length ≤ s.cfg.maxOut) :
    ∃ u, exec .hdcmpT (hencCopied s bytes m n) = .next u ∧ u.state = .done ∧ OutHolds u bytes := by
  obtain ⟨u, hu, -, hout, -, heq⟩ := hdcmpTDecodesTheBuffer (hencCopied s bytes m n) _ _ bytes hc
    (coderReady_hasTable hi hne) hcopy (packBuffer_unpacksTo _) (inputTable_allCoded hi hne) hroom
  exact ⟨u, hu, congrArg State.state heq, hout⟩

/-- The tree HENC left in TREE decodes its output to its input. -/
theorem hdcmpR_of_hencCopied (hc : s.cfg.wf) (hi : InHolds s bytes) (hne : bytes ≠ [])
    (hcopy : HasInput (hencCopied s bytes m n) (packBuffer (inputCode bytes))) (hroom : bytes.length ≤ s.cfg.maxOut) :
    ∃ u, exec .hdcmpR (hencCopied s bytes m n) = .next u ∧ u.state = .done ∧ OutHolds u bytes := by
  have hunpack : UnpacksTo (packBuffer (inputCode bytes)) ((inputPaths bytes).flatMap Prod.fst) :=
    (inputPaths_bits bytes).symm ▸ packBuffer_unpacksTo _
  obtain ⟨u, hu, -, hout, -, heq⟩ := hdcmpRDecodesTheBuffer (hencCopied s bytes m n) _ _ _ hc
    (coderReady_hasTree hi hne) hcopy hunpack (inputPaths_isTreeCode hi hne) ((inputPaths_length bytes).trans_le hroom)
  exact ⟨u, hu, congrArg State.state heq, inputPaths_symbols bytes ▸ hout⟩

/-- Settles O47: OUT holds the packed codes of the input, which both strategies decode by what HENC left in CODE and
TREE. -/
theorem roundTripLaw : Obligations.RoundTripLaw := by
  intro s bytes hc hi hne hdefault
  have hm := inputCode_fits hi hne hdefault
  refine ⟨hencDone s bytes, exec_henc_of_fit hi hne hm, rfl, fun outb m n hout hcopy => ?_⟩
  obtain rfl := outHolds_unique (hencDone_outHolds hc hm) hout
  have hroom : bytes.length ≤ s.cfg.maxOut := by have := hi.2; omega
  exact ⟨hdcmpT_of_hencCopied hc hi.1 hne hcopy hroom, hdcmpR_of_hencCopied hc hi.1 hne hcopy hroom⟩

/-! ## Empty buffers (R193, R234) -/

/-- BUNPK of a buffer without a header byte (R193). -/
theorem exec_bunpk_of_empty (h : s.inLen = 0) :
    exec .bunpk s = .next (fail [.pbits] .corruptPadding 0x100 { s with lastop := 0x14 }) :=
  runCommand_of_raise (i := .bunpk) (precheck_of_no_needs rfl (inLen_le_of_hasInput (hasInput_nil h))) (if_pos h)

theorem Strategy.hdcmp_fails_of_empty {x : Strategy} (hs : x.HasSource s) (h : s.inLen = 0) :
    FailsWith (exec x.hdcmp s) .corruptPadding 0x100 :=
  exec_hdcmp_of_bunpk_err hs (exec_bunpk_of_empty h) rfl

/-- Settles O46: HENC of no bytes fails in its TBLD stage, and HDCMP of none in its BUNPK stage. -/
theorem hencOfEmptyInput : Obligations.HencOfEmptyInput :=
  ⟨fun _ h => ⟨_, exec_henc_of_no_input (hasInput_nil h), rfl, rfl, rfl, rfl, rfl, rfl, rfl, rfl⟩,
    fun _ tbl ht => Strategy.hdcmp_fails_of_empty (x := .table) ⟨tbl, ht⟩,
    fun _ links ht => Strategy.hdcmp_fails_of_empty (x := .tree) ⟨links, ht⟩⟩

end Sys2Proof.Machine
end

section
/-! PROOFS. The system commands and the exceptions: HNOP (O15) and HCLR (O16), a word that is no command (O5), what a
failed (O10) and a successful command (O11) change, the errors of the checks of R250 (O8, O9), corrupt padding (O32) and
the stores declared valid that are not well-formed (O54). -/

namespace Sys2Proof.Machine

variable {s : State} {i : Instr} {e : Error} {info : Word}

/-! ## HNOP and HCLR (R253, R254) -/

/-- Settles O15: HNOP needs no source, so its checks pass, and its body is the identity. -/
theorem hnopOnlyReportsDone : Obligations.HnopOnlyReportsDone :=
  ⟨by decide, fun _ => runCommand_of_ok (i := .hnop) (precheck_of_valid nofun rfl rfl) rfl⟩

/-- The STATUS of a block in which HCLR was the last command and nothing has happened since reset. -/
theorem statusWord_cleared : statusWord { State.reset with lastop := 0x01 } = 0x01000000 := by decide

/-- Settles O16: HCLR writes every field of STATUS, so STATUS is the same in every state. -/
theorem hclrEndsTheSession : Obligations.HclrEndsTheSession :=
  ⟨by decide, fun _ => ⟨_, exec_hclr_eq, statusWord_cleared, rfl⟩⟩

/-! ## Words that are no command (R93, R275) -/

theorem issueCommand_of_no_command {w : Word} (hw : ∀ i, w ≠ encode i) :
    issueCommand w s = .next (illegalCommand w s) := by
  cases hd : decode w with
  | ok i => exact absurd (eq_encode_of_decode hd) (hw i)
  | error e => rw [issueCommand, hd]

/-- Settles O5: the write reaches the decoder, which rejects the word, and `illegalCommand` has no destinations. -/
theorem illegalWordFailsAtOnce : Obligations.IllegalWordFailsAtOnce := by
  refine ⟨rfl, fun s w rest hp hb hw => ?_⟩
  rw [step_of_pending hp, perform_writeReg (s := { s with pending := rest }) hb]
  exact issueCommand_of_no_command hw

/-! ## The frames of failure and success (R251, R252) -/

/-- Settles O10: the only command that ends in ERR is one `fail` ended, with the destinations of R31. -/
theorem failureTouchesDestinationsOnly : Obligations.FailureTouchesDestinationsOnly := by
  intro i s t h herr
  obtain rfl | ⟨e, info, rfl⟩ | ⟨-, u, -, rfl⟩ := exec_cases h
  · cases h
    cases herr
  · have hvalid : ∀ x, (fail (dests i) e info { s with lastop := i.opcode }).valid.get x =
        if x ∈ dests i then false else s.valid.get x := by
      intro x
      rw [fail_valid_get]
      by_cases hx : x ∈ dests i <;> simp [hx]
    exact ⟨fail_lastop .., ⟨e, rfl, rfl⟩, hvalid,
      fun hd => (fail_outLen ..).trans (if_pos hd),
      fun hd => (fail_pbLen ..).trans (if_pos hd),
      fun hd => ⟨(fail_root ..).trans (if_pos hd), (fail_nnodes ..).trans (if_pos hd)⟩,
      fun hd => (fail_freq ..).trans (if_neg hd),
      fun hd => ⟨(fail_tree ..).trans (if_neg hd), (fail_root ..).trans (if_neg hd), (fail_nnodes ..).trans (if_neg hd)⟩,
      fun hd => (fail_code ..).trans (if_neg hd),
      fun hd => ⟨(fail_pbits ..).trans (if_neg hd), (fail_pbLen ..).trans (if_neg hd)⟩,
      fun hd => ⟨(fail_out ..).trans (if_neg hd), (fail_outLen ..).trans (if_neg hd)⟩,
      fail_inp .., fail_inLen .., fail_cfg .., fail_pending .., fail_readData ..⟩
  · cases herr

/-- Settles O11: a command in DONE is one `succeed` ended, after a body that kept to the frame of its destinations. -/
theorem successTouchesDestinationsOnly : Obligations.SuccessTouchesDestinationsOnly := by
  intro i s t h hdone
  obtain rfl | ⟨e, info, rfl⟩ | ⟨-, u, hu, rfl⟩ := exec_cases h
  · cases h
    cases hdone
  · cases hdone
  · have hvalid : ∀ x, (succeed (dests i) u).valid.get x = if x ∈ dests i then true else s.valid.get x := by
      intro x
      rw [succeed_valid_get, hu.valid]
      by_cases hx : x ∈ dests i <;> simp [hx]
    simp only [succeed_lastop, succeed_sticky, succeed_freq, succeed_tree, succeed_root, succeed_nnodes, succeed_code,
      succeed_pbits, succeed_pbLen, succeed_out, succeed_outLen, succeed_inp, succeed_inLen, succeed_cfg,
      succeed_pending, succeed_readData]
    have hpbits : .pbits ∉ dests i → u.pbits = s.pbits ∧ u.pbLen = s.pbLen := fun hd =>
      have ⟨hbits, hlen, _⟩ := hu.pbits hd
      ⟨hbits, hlen⟩
    exact ⟨hu.lastop, rfl, rfl, hu.sticky, hvalid, hu.freq, hu.tree, hu.code, hpbits, hu.out, hu.inp, hu.inLen, hu.cfg,
      hu.pending, hu.readData⟩

/-! ## The checks of R250 (R276, R277) -/

/-- Every command but HCLR runs in the frame of R250. -/
theorem exists_bodyOf (hi : i ≠ .hclr) : ∃ body, bodyOf i = some body := by
  cases i with
  | hclr => exact absurd rfl hi
  | _ => exact ⟨_, rfl⟩

/-- A check that stops a command gives the command's error and info word. -/
theorem fails_of_precheck (hi : i ≠ .hclr) (hp : precheck i s = some (e, info)) : FailsWith (exec i s) e info := by
  obtain ⟨body, hb⟩ := exists_bodyOf hi
  exact ⟨_, (exec_eq_runCommand hb).trans (runCommand_of_precheck hp), rfl, rfl, rfl⟩

/-- The missing valid bits are those of the needed stores that are not valid. -/
theorem missing_eq_validBitMask (i : Instr) (v : Valid) :
    missing i v = validBitMask ((needs i).filter fun x => !v.get x) := by
  refine BitVec.eq_of_getLsbD_eq fun j hj => ?_
  simp only [missing, BitVec.getLsbD_and, BitVec.getLsbD_not, validBitMask_getLsbD, List.any_filter, hj, decide_true,
    Bool.true_and]
  have hbit : ∀ x, (statusBit x == j && !v.word.getLsbD j) = (!v.get x && statusBit x == j) := by
    intro x
    by_cases hx : statusBit x = j
    · rw [← hx, Valid.word_getLsbD_statusBit, Bool.and_comm]
    · rw [beq_false_of_ne hx, Bool.false_and, Bool.and_false]
  induction needs i with
  | nil => rfl
  | cons x xs ih => rw [List.any_cons, List.any_cons, Bool.and_or_distrib_right, hbit, ih]

/-- A command whose sources `xs` are missing is a SequenceError that names them (R276). -/
theorem sequence_fails (xs : List DerivedStore) (hxs : (needs i).filter (fun x => !s.valid.get x) = xs)
    (hi : i ≠ .hclr := by decide) (hinfo : validBitMask xs = info := by decide) (hne : info ≠ 0 := by decide) :
    FailsWith (exec i s) .sequence info := by
  have hmissing : missing i s.valid = info := by rw [missing_eq_validBitMask, hxs, hinfo]
  exact fails_of_precheck hi (by rw [precheck, hmissing, if_pos hne])

/-- Settles O8: each command names the sources of R31 that are not valid. -/
theorem sequenceErrorNamesTheMissingStores : Obligations.SequenceErrorNamesTheMissingStores := by
  refine ⟨rfl, fun s => ⟨fun hf => ?_, fun ht => ?_, fun hc => ?_, fun hp hc => ?_, fun hp hc => ?_, fun hp hc => ?_,
    fun hp ht => ?_, fun hp ht => ?_, fun hp ht => ?_, fun hc => ?_, fun ht => ?_⟩⟩
  · exact sequence_fails [.freq] (by simp [needs, Valid.get, hf])
  · exact sequence_fails [.tree] (by simp [needs, Valid.get, ht])
  · exact sequence_fails [.code] (by simp [needs, Valid.get, hc])
  · exact sequence_fails [.pbits] (by simp [needs, Valid.get, hp, hc])
  · exact sequence_fails [.code] (by simp [needs, Valid.get, hp, hc])
  · exact sequence_fails [.pbits, .code] (by simp [needs, Valid.get, hp, hc])
  · exact sequence_fails [.pbits] (by simp [needs, Valid.get, hp, ht])
  · exact sequence_fails [.tree] (by simp [needs, Valid.get, hp, ht])
  · exact sequence_fails [.pbits, .tree] (by simp [needs, Valid.get, hp, ht])
  · exact sequence_fails [.code] (by simp [needs, Valid.get, hc])
  · exact sequence_fails [.tree] (by simp [needs, Valid.get, ht])

theorem precheck_of_long_input (hv : ∀ x ∈ needs i, s.valid.get x = true) (hr : readsIn i = true)
    (hl : s.cfg.maxIn < s.inLen.toNat) : precheck i s = some (.capacity, 0) := by
  rw [precheck, if_neg (not_not.2 (missing_of_valid hv)), if_pos ⟨hr, hl⟩]

theorem precheck_of_long_bits (hv : ∀ x ∈ needs i, s.valid.get x = true) (hin : readsIn i = false)
    (hr : readsPbits i = true) (hl : s.cfg.maxPb < s.pbLen.toNat) : precheck i s = some (.capacity, 2) := by
  rw [precheck, if_neg (not_not.2 (missing_of_valid hv)), if_neg (by simp [hin]), if_pos ⟨hr, hl⟩]

/-- Settles O9: with its sources valid a command reaches check (3), which comes before the body. -/
theorem lengthsAboveCapacityAreRefusedFirst : Obligations.LengthsAboveCapacityAreRefusedFirst := by
  have hreadsIn : ∀ i ∈ [Instr.fcnt, .bpack, .bunpk, .henc, .hdcmpT, .hdcmpR], i ≠ .hclr ∧ readsIn i = true := by decide
  have hreadsPbits : ∀ i ∈ [Instr.hdecT, .hdecR], i ≠ .hclr ∧ readsIn i = false ∧ readsPbits i = true := by decide
  refine fun i s hv => ⟨fun hi hl => ?_, fun hi hl => ?_⟩
  · obtain ⟨hne, hr⟩ := hreadsIn i hi
    exact fails_of_precheck hne (precheck_of_long_input hv hr hl)
  · obtain ⟨hne, hin, hr⟩ := hreadsPbits i hi
    exact fails_of_precheck hne (precheck_of_long_bits hv hin hr hl)

/-! ## Corrupt padding (R191, R193, R273) -/

/-- A header outside 1 to 8, or above the number of payload bits, stops the unpacking (R191). -/
theorem bodyBunpk_of_bad_header {h : Byte} {rest : List Byte} (hi : HasInput s (h :: rest))
    (hbad : h = 0 ∨ 8 < h.toNat ∨ 8 * rest.length < h.toNat) :
    bodyBunpk s = .error (.raise .corruptPadding (h.setWidth 32)) := by
  have hlow : h = 0 → h.toNat < 1 := by rintro rfl; decide
  rw [bodyBunpk, if_neg (inLen_ne_zero_of_hasInput hi (List.cons_ne_nil h rest)), readIn_of_hasInput hi]
  simp only [bind, Except.bind, unpackBuffer_cons, if_pos (hbad.imp_left hlow)]

theorem exec_bunpk_of_bad_header {h : Byte} {rest : List Byte} (hi : HasInput s (h :: rest))
    (hbad : h = 0 ∨ 8 < h.toNat ∨ 8 * rest.length < h.toNat) :
    exec .bunpk s = .next (fail [.pbits] .corruptPadding (h.setWidth 32) { s with lastop := 0x14 }) :=
  runCommand_of_raise (i := .bunpk) (precheck_of_no_needs rfl (inLen_le_of_hasInput hi))
    (bodyBunpk_of_bad_header (s := { s with lastop := 0x14 }) hi hbad)

/-- BUNPK's error is also that of a decompression that has its table or tree (R211, R212). -/
theorem fails_as_bunpk (h : exec .bunpk s = .next (fail [.pbits] e info { s with lastop := 0x14 }))
    (hi : i = .bunpk ∨ (i = .hdcmpT ∧ ∃ tbl, HasTable s tbl) ∨ (i = .hdcmpR ∧ ∃ links, HasTree s links)) :
    FailsWith (exec i s) e info := by
  obtain rfl | ⟨rfl, hs⟩ | ⟨rfl, hs⟩ := hi
  · exact ⟨_, h, rfl, rfl, rfl⟩
  · exact Strategy.exec_hdcmp_of_bunpk_err (x := .table) hs h rfl
  · exact Strategy.exec_hdcmp_of_bunpk_err (x := .tree) hs h rfl

/-- Settles O32: BUNPK reports a buffer without a legal header, and HDCMP does so in its BUNPK stage. -/
theorem corruptPaddingIsReported : Obligations.CorruptPaddingIsReported := by
  refine fun s bytes i hin hi => ⟨?_, ?_⟩
  · rintro rfl
    have hempty : s.inLen = 0 := BitVec.eq_of_toNat_eq hin.1.1
    exact fails_as_bunpk (exec_bunpk_of_empty hempty) hi
  · rintro h rest rfl hbad
    exact fails_as_bunpk (exec_bunpk_of_bad_header hin hbad) hi

/-! ## Valid stores that are not well-formed (R24, R27, R40; log 2) -/

theorem loadTree_of_bad_shape {links : List Link} (h : TreeHolds s links)
    (hs : treeShape links s.root.toNat = false) : loadTree s = .error (.refuse .treeNotWellFormed) := by
  by_cases hn : s.nnodes.toNat = 0 ∨ Config.maxNodes < s.nnodes.toNat
  · exact loadTree_of_count hn
  · rw [loadTree, if_neg hn, readLinks_of_treeHolds h]
    simp [bind, Except.bind, hs]

theorem loadCode_of_bad_shape {tbl : List BitString} (h : CodeHolds s tbl) (hs : codeShape tbl = false) :
    loadCode s = .error (.refuse .codeNotWellFormed) := by
  obtain ⟨hlen, hrec⟩ := h
  have hread : readCodes s.code 0 256 = .ok tbl := readCodes_ok_iff.2 ⟨hlen, by simpa using hrec⟩
  simp [loadCode, hread, bind, Except.bind, hs]

/-- The commands that work on the tree load it first. -/
theorem body_of_loadTree_error {stop : Stop} (hi : i ∈ [Instr.cgen, .hdecR, .hdcmpR]) (h : loadTree s = .error stop) :
    ∃ body, bodyOf i = some body ∧ body s = .error stop := by
  simp only [List.mem_cons, List.not_mem_nil, or_false] at hi
  obtain rfl | rfl | rfl := hi
  · exact ⟨bodyCgen, rfl, by rw [bodyCgen, h]; rfl⟩
  · exact ⟨bodyHdecR, rfl, by rw [bodyHdecR, h]; rfl⟩
  · exact ⟨bodyHdcmpR, rfl, by rw [bodyHdcmpR, h]; rfl⟩

/-- The commands that work on the code table load it first. -/
theorem body_of_loadCode_error {stop : Stop} (hi : i ∈ [Instr.bpack, .hdecT, .hdcmpT]) (h : loadCode s = .error stop) :
    ∃ body, bodyOf i = some body ∧ body s = .error stop := by
  simp only [List.mem_cons, List.not_mem_nil, or_false] at hi
  obtain rfl | rfl | rfl := hi
  · exact ⟨bodyBpack, rfl, by rw [bodyBpack, h]; rfl⟩
  · exact ⟨bodyHdecT, rfl, by rw [bodyHdecT, h]; rfl⟩
  · exact ⟨bodyHdcmpT, rfl, by rw [bodyHdcmpT, h]; rfl⟩

theorem exec_refused {r : Refusal} (hp : precheck i s = none)
    (hb : ∃ body, bodyOf i = some body ∧ body { s with lastop := i.opcode } = .error (.refuse r)) :
    exec i s = .refused r := by
  obtain ⟨body, hi, hr⟩ := hb
  rw [exec_eq_runCommand hi]
  exact runCommand_of_refuse hp hr

/-- Settles O54: past the checks of R250 the first act of the body is to load the store, which is refused. -/
theorem illFormedStoresAreRefused : Obligations.IllFormedStoresAreRefused := by
  refine ⟨fun i s links hi hv hin hpb hholds hs => ?_, fun i s hi hv hin hpb hn => ?_,
    fun i s tbl hi hv hin hpb hholds hs => ?_⟩
  · have hload := loadTree_of_bad_shape (s := { s with lastop := i.opcode }) hholds hs
    exact exec_refused (precheck_none_iff.2 ⟨missing_of_valid hv, hin, hpb⟩) (body_of_loadTree_error hi hload)
  · have hload := loadTree_of_count (s := { s with lastop := i.opcode }) hn
    exact exec_refused (precheck_none_iff.2 ⟨missing_of_valid hv, hin, hpb⟩) (body_of_loadTree_error hi hload)
  · have hload := loadCode_of_bad_shape (s := { s with lastop := i.opcode }) hholds hs
    exact exec_refused (precheck_none_iff.2 ⟨missing_of_valid hv, hin, hpb⟩) (body_of_loadCode_error hi hload)

end Sys2Proof.Machine
end
